-- ==== Sys2Proof/Word.lean ====
section
/-! DEFINITION. The words of the block: bytes, 32-bit words and the four-channel pixel (00_scope.md R9, R10, R12). -/

namespace Sys2Proof

/-- One byte: a wire byte of the stream or one pixel channel (R9: "channel width 8 bits"). -/
abbrev Byte := BitVec 8

/-- One 32-bit word: a CSR, a length, a pointer or a counter (R10, R29). -/
abbrev Word := BitVec 32

/-- A pixel: four unsigned 8-bit channels (R12). Equality is equality of all four channels. -/
structure Pixel where
  r : Byte
  g : Byte
  b : Byte
  a : Byte
deriving DecidableEq, Repr, Inhabited

/-- "Initialize `previous` / `current = (0,0,0,255)`": the pixel every job starts from (R9, R22). -/
def Pixel.initial : Pixel := ⟨0, 0, 0, 255⟩

end Sys2Proof
end

