-- ==== Sys2Proof/Config.lean ====
section
/-! DEFINITION. What an implementation fixes (the parameters of 00_scope.md R10) and the values the spec leaves
free (93_implementation_defined.md U1, U3, U4, U9): constants with no body, so no proof can see a value of one. -/

namespace Sys2Proof

/-- The open parameters of R10. A machine carries them as the field `cfg` of its state, which no step changes
(log 1). -/
structure Params where
  /-- IN_CAP, the capacity of IN in bytes. -/
  inCap : Word
  /-- OUT_CAP, the capacity of OUT in bytes. -/
  outCap : Word
  /-- CACHE_FILL, what the data field of an absent cache slot holds. -/
  cacheFill : Pixel
  /-- CSR_BASE, where the CSR block sits in the system's address map. -/
  csrBase : Nat
deriving DecidableEq, Repr

/-- R10: "0 < IN_CAP ≤ 2^32 − 1" and "0 < OUT_CAP ≤ 2^32 − 1"; the upper bounds are the width's. The CSR block starts at
a word address, as its registers are aligned words (R29, log 13). -/
def Params.legal (p : Params) : Bool := p.inCap != 0 && p.outCap != 0 && decide (p.csrBase % 4 = 0)

/-- The defaults of R10; where a default is OPEN, DESIGN CHOICE (log 1): both capacities at the largest value
("a model may take 2^32 − 1"), CSR_BASE at 0. -/
def Params.default : Params := ⟨0xFFFFFFFF, 0xFFFFFFFF, ⟨0, 0, 0, 0⟩, 0⟩

namespace Config

/-- U1, R115: the pixel a decoded INDEX chunk takes from an absent slot: any value, drawn afresh at every such
chunk. Its arguments are the draw's number and what the slot's data field holds (log 3). -/
opaque absentPixel (draw : Nat) (held : Pixel) : Pixel

/-- U4, R158: a 32-bit register value the spec leaves unspecified (log 6). -/
opaque unspecifiedWord (draw : Nat) : Word

/-- U3, R57(c), R158: what a host read of OUT returns where the spec leaves the read unspecified (log 5). -/
opaque unspecifiedByte (draw : Nat) : Byte

/-- U9, R44: a byte of IN that the host has not written since the power-on of number `epoch` (log 4). -/
opaque inContents (epoch off : Nat) : Byte

/-- U3, U9, R44, R158: a byte of OUT that neither job nor host has written since the reset or error of number `epoch` made
OUT unspecified (log 5). -/
opaque outContents (epoch off : Nat) : Byte

end Config

end Sys2Proof
end

