-- ==== Sys2Proof/Machine/State.lean ====
section
/-! DEFINITION. The machine's state: everything 10_state.md and 20_memory.md give the block, its value after
power-on reset (R44), the host's accesses, and the reasons a step can stop. -/

namespace Sys2Proof.Machine

/-- R17: STATUS.STATE. -/
inductive JobState where
  /-- 0: no job has run since reset. -/
  | idle
  /-- 1: a job is running. -/
  | busy
  /-- 2: the last job completed. -/
  | done
  /-- 3: the last job aborted. -/
  | error
deriving DecidableEq, Repr

/-- R18: PHASE, which orders the steps of a job. -/
inductive Phase where
  | hdr
  | body
  | trail
deriving DecidableEq, Repr

/-- R30: MODE, 0 = ENCODE, 1 = DECODE. -/
inductive Mode where
  | encode
  | decode
deriving DecidableEq, Repr

/-- R153: the error codes 0 to 5; codes 6–15 are reserved and never produced (U15, log 20). -/
inductive ErrCode where
  /-- 0 -/
  | none
  /-- 1, R154 -/
  | badMagic
  /-- 2, never raised (R160) -/
  | invalidTag
  /-- 3, R156 -/
  | truncated
  /-- 4, R155 -/
  | param
  /-- 5, R159 -/
  | outOverflow
deriving DecidableEq, Repr

/-- R27: one slot of the pixel-history cache; absent when `valid` is false. -/
structure Slot where
  valid : Bool
  px : Pixel
deriving DecidableEq, Repr

/-- R27: the 64 slots. -/
abbrev Cache := Vector Slot 64

/-- A byte buffer: (offset, byte) pairs, offsets strictly rising (`Memory.wf`). An offset not listed holds no value
that is known: what reading it gives is said where it is read (logs 4, 5). -/
abbrev Memory := List Host.Cell

/-- The width of a host's CSR access (R54). -/
inductive AccessWidth where
  | byte
  | half
  | word
deriving DecidableEq, Repr

/-- What the host can do between two core steps. -/
inductive HostOp where
  /-- Write a CSR at a system address (R29). -/
  | csrWrite (addr : Nat) (width : AccessWidth) (v : Word)
  /-- Read a CSR at a system address (R29). -/
  | csrRead (addr : Nat) (width : AccessWidth)
  /-- Put one byte into IN (R45, R57). -/
  | inWrite (off : Nat) (b : Byte)
  /-- Put one byte into OUT (R57; outside a job only). -/
  | outWrite (off : Nat) (b : Byte)
  /-- Read one byte of OUT (R48, R57). -/
  | outRead (off : Nat)
  /-- Power-on reset (R172, R173). -/
  | powerOnReset
deriving DecidableEq, Repr

/-- Whose turn it is: the core's, or a host access (R165, U21; log 8). -/
inductive Turn where
  | core
  | host (op : HostOp)
deriving DecidableEq, Repr

/-- What a host read returned (log 14). -/
inductive Response where
  | csr (addr : Nat) (v : Word)
  | out (off : Nat) (b : Byte)
deriving DecidableEq, Repr

/-- The machine's state, plain data. -/
structure State where
  /-- The parameters of R10; no step changes them. -/
  cfg : Params
  /-- CTRL[1], R30. -/
  mode : Mode
  /-- ENC_WIDTH, R32. -/
  encWidth : Word
  /-- ENC_HEIGHT, R33. -/
  encHeight : Word
  /-- ENC_CHANNELS[7:0], R34. -/
  encChannels : Byte
  /-- IN_LEN, R35. -/
  inLen : Word
  /-- STATUS[1:0], R17. -/
  jobState : JobState
  /-- STATUS[7:4], R31. -/
  err : ErrCode
  /-- ABS, STATUS[2], R25. -/
  absIdx : Bool
  /-- OUT_LEN, R36. -/
  outLen : Word
  /-- PIX_COUNT, R40. -/
  pixCount : Word
  /-- HDR_WIDTH, R37 (held from the header parse, shown at DONE: R100). -/
  hdrWidth : Word
  /-- HDR_HEIGHT, R38. -/
  hdrHeight : Word
  /-- HDR_INFO[7:0], R39. -/
  hdrChannels : Byte
  /-- HDR_INFO[15:8], R39. -/
  hdrColorspace : Byte
  /-- PHASE, R18. -/
  phase : Phase
  /-- The MODE latched at START, R19. -/
  jobMode : Mode
  /-- L, R19. -/
  len : Word
  /-- W, R19. -/
  wid : Word
  /-- H, R19. -/
  hgt : Word
  /-- CH, R19. -/
  ch : Byte
  /-- N, the encoder's pixel count, R24. -/
  n : Word
  /-- ptr, the decoder's program counter, R20. -/
  ptr : Word
  /-- i, the encoder's pixel index, R20. -/
  i : Word
  /-- o, the number of bytes written to OUT in this job, R21. -/
  o : Word
  /-- PX, `previous` / `current`, R22. -/
  px : Pixel
  /-- RUN, the encoder's run counter, R23. -/
  run : BitVec 6
  /-- The pixel-history cache, R27. -/
  cache : Cache
  /-- IN, R45. -/
  inBuf : Memory
  /-- OUT, R45. -/
  outBuf : Memory
  /-- The model's: the host has read STATUS as DONE or ERROR since the last START, or no job has been started since
  reset. The STATUS read is the one event that orders a job's writes before the host's later accesses (R58, R59;
  log 25). -/
  observed : Bool
  /-- The model's: the number of free values drawn so far (log 7). -/
  draws : Nat
  /-- The model's: which power-on contents of IN its unlisted bytes hold (log 4). -/
  inEpoch : Nat
  /-- The model's: which unspecified contents of OUT its unlisted bytes hold; an error and a reset begin new ones
  (log 5). -/
  outEpoch : Nat
  /-- The model's: the turns to come, the next first; when none is listed, the core's (log 8). -/
  turns : List Turn
  /-- The model's: what the last host read returned (log 14). -/
  response : Option Response
deriving DecidableEq, Repr

/-- R91, R27: every slot absent, its data field CACHE_FILL. -/
def Cache.absent (fill : Pixel) : Cache := Vector.replicate 64 ⟨false, fill⟩

/-- R44, R172: right after power-on reset, for a machine with parameters `p`. The working registers the spec leaves
unspecified hold their per-job initial values, or 0 where a job has none fixed (DESIGN CHOICE, log 2). -/
def State.resetWith (p : Params) : State where
  cfg := p
  mode := .encode
  encWidth := 0
  encHeight := 0
  encChannels := 0
  inLen := 0
  jobState := .idle
  err := .none
  absIdx := false
  outLen := 0
  pixCount := 0
  hdrWidth := 0
  hdrHeight := 0
  hdrChannels := 0
  hdrColorspace := 0
  phase := .hdr
  jobMode := .encode
  len := 0
  wid := 0
  hgt := 0
  ch := 0
  n := 0
  ptr := 14
  i := 0
  o := 0
  px := Pixel.initial
  run := 0
  cache := Cache.absent p.cacheFill
  inBuf := []
  outBuf := []
  observed := true
  draws := 0
  inEpoch := 0
  outEpoch := 0
  turns := []
  response := none

/-- The machine right after reset, with the parameters at the defaults of R10 (log 1). -/
def State.reset : State := State.resetWith Params.default

/-- Why the machine stops with a fault. -/
inductive Fault where
  /-- The core would read IN at an offset at or above L or IN_CAP, which R46 excludes. Raised by the fetch of a chunk
  or of a pixel; no state that meets the invariant raises it. Safe (log 12). -/
  | inReadOutOfRange
  /-- The bytes of a chunk do not decode. Raised by the fetch of a chunk; no state raises it (R77). Safe (log 12). -/
  | undecodable
  /-- BUSY in a way for which the spec has no step: DECODE outside BODY, ENCODE in TRAIL between steps, i beyond N, or
  CH other than 3 and 4. Raised by the core's turn; no state that meets the invariant raises it. Safe (log 11). -/
  | noCoreStep
  /-- A host access to IN or OUT at an offset at or above its capacity (R45: no such byte). Raised by the host's turn.
  Safe (log 15). -/
  | noSuchOffset
deriving DecidableEq, Repr

/-- Why the machine has no meaning for what is asked. -/
inductive Refusal where
  /-- An instruction with no meaning in this model, by its mnemonic. Raised by no arm of exec. Safe. -/
  | notModelled (mnemonic : String)
  /-- A CSR access that is not a naturally aligned 32-bit word (R54: "A model must refuse such an access"). Raised by the
  host's turn. Safe (log 13). -/
  | csrAccessNotAlignedWord
  /-- A CSR access at an address below CSR_BASE, which is not this block's (R62). Raised by the host's turn. Safe
  (log 13). -/
  | outsideCsrBlock
  /-- A host write to IN below L while BUSY (R57(a): the model "refuses such a run"). Raised by the host's turn. Safe. -/
  | hostWroteInWhileBusy
  /-- A host write to OUT while BUSY (R57(b), likewise). Raised by the host's turn. Safe. -/
  | hostWroteOutWhileBusy
deriving DecidableEq, Repr

end Sys2Proof.Machine
end

