-- ==== Sys2Proof/Machine/Flags.lean ====
section
/-! DEFINITION. The core's only flags, the STATUS register (10_state.md R31, R42), and the numbers of its fields. -/

namespace Sys2Proof.Machine

/-- R17: the encoding of STATE. -/
def JobState.code : JobState → BitVec 2
  | .idle => 0
  | .busy => 1
  | .done => 2
  | .error => 3

/-- R153: the encoding of ERR. -/
def ErrCode.code : ErrCode → BitVec 4
  | .none => 0
  | .badMagic => 1
  | .invalidTag => 2
  | .truncated => 3
  | .param => 4
  | .outOverflow => 5

/-- R30: the encoding of MODE. -/
def Mode.code : Mode → BitVec 1
  | .encode => 0
  | .decode => 1

/-- R31: STATUS: STATE in [1:0], ABSENT_IDX in [2], ERR in [7:4], every other bit reserved and 0. -/
def statusWord (s : State) : Word :=
  0#24 ++ s.err.code ++ 0#1 ++ (BitVec.ofBool s.absIdx) ++ s.jobState.code

/-- R25, R115: the sticky flag is set when a decoded INDEX chunk reads an absent slot. -/
def flagAbsent (s : State) : State := { s with absIdx := true }

end Sys2Proof.Machine
end

