-- ==== Sys2Proof/Syntax.lean ====
section
/-! DEFINITION. The instructions: the six chunk types of spec/opcode_table.json (30_encoding.md R64), with their
operands as the assembly notation of R82 writes them. -/

namespace Sys2Proof

/-- One chunk, one constructor for each row of the opcode table. Deltas are signed integers and the run count is a
natural number, as in R82; `Instr.wellFormed` gives their ranges. -/
inductive Instr where
  /-- `INDEX idx`: the pixel of cache slot idx (R65, R75). -/
  | index (idx : BitVec 6)
  /-- `DIFF dR, dG, dB`: small deltas to the previous pixel (R66, R70). -/
  | diff (dR dG dB : Int)
  /-- `LUMA dG, dRG, dBG`: a green delta, and red and blue deltas relative to it (R67, R71). -/
  | luma (dG dRG dBG : Int)
  /-- `RUN count`: the previous pixel, count times (R69, R72). -/
  | run (count : Nat)
  /-- `RGB r, g, b`: three literal channels, alpha kept (R73). -/
  | rgb (r g b : Byte)
  /-- `RGBA r, g, b, a`: four literal channels (R74). -/
  | rgba (r g b a : Byte)
deriving DecidableEq, Repr

/-- The chunk types the recognizer tells apart (R68). -/
inductive ChunkType where
  | index
  | diff
  | luma
  | run
  | rgb
  | rgba
deriving DecidableEq, Repr

/-- The type of a chunk. -/
def Instr.chunkType : Instr → ChunkType
  | .index _ => .index
  | .diff _ _ _ => .diff
  | .luma _ _ _ => .luma
  | .run _ => .run
  | .rgb _ _ _ => .rgb
  | .rgba _ _ _ _ => .rgba

end Sys2Proof
end

