-- ==== Sys2Proof/WellFormed.lean ====
section
/-! DEFINITION. Which instructions can be written down: the operand ranges of 30_encoding.md R82 ("An assembler
must refuse an operand outside its range"). -/

namespace Sys2Proof

/-- `lo ≤ v ≤ hi`. -/
def inRange (lo hi v : Int) : Bool := decide (lo ≤ v) && decide (v ≤ hi)

/-- R82's operand ranges. INDEX, RGB and RGBA operands have exactly the width of their field, so every term of
theirs is well-formed. -/
def Instr.wellFormed : Instr → Bool
  | .index _ => true
  | .diff dR dG dB => inRange (-2) 1 dR && inRange (-2) 1 dG && inRange (-2) 1 dB
  | .luma dG dRG dBG => inRange (-32) 31 dG && inRange (-8) 7 dRG && inRange (-8) 7 dBG
  | .run count => decide (1 ≤ count) && decide (count ≤ 62)
  | .rgb _ _ _ => true
  | .rgba _ _ _ _ => true

end Sys2Proof
end

