-- ==== Sys2Proof/Decode.lean ====
section
/-! DEFINITION. The chunk-type recognizer, operand assembly and decoder (30_encoding.md R65–R80), then the serializer
and the assembler written from the same tables (R81–R83), and the byte-number codec (41_framing.md R96, R97). -/

namespace Sys2Proof

/-! ### Recognizer -/

/-- R68: the type of the chunk whose tag byte is `b`, and the chunk's full length in bytes. Tests in the spec's
order; the first that matches wins. Total: R77, no tag is illegal. -/
def classify (b : Byte) : ChunkType × Nat :=
  if b = 0xFF then (.rgba, 5)
  else if b = 0xFE then (.rgb, 4)
  else if b.extractLsb' 6 2 = 0b00 then (.index, 1)
  else if b.extractLsb' 6 2 = 0b01 then (.diff, 1)
  else if b.extractLsb' 6 2 = 0b10 then (.luma, 2)
  else (.run, 1)

/-! ### Operand assembly -/

/-- A field read with a bias: its unsigned value less `bias` (R70, R71; the bias reading is the spec's, D7). -/
def biased {w : Nat} (field : BitVec w) (bias : Int) : Int := (field.toNat : Int) - bias

/-- R70: the three DIFF deltas of a tag, at bits [5:4], [3:2], [1:0] (R66), bias 2. -/
def diffOperands (tag : Byte) : Instr :=
  .diff (biased (tag.extractLsb' 4 2) 2) (biased (tag.extractLsb' 2 2) 2) (biased (tag.extractLsb' 0 2) 2)

/-- R71: the LUMA deltas: green at bits [5:0] of the tag, bias 32; red and blue relative to green in the nibbles of
the second byte (R67), bias 8. -/
def lumaOperands (tag b2 : Byte) : Instr :=
  .luma (biased (tag.extractLsb' 0 6) 32) (biased (b2.extractLsb' 4 4) 8) (biased (b2.extractLsb' 0 4) 8)

/-- R75: the INDEX slot number, bits [5:0], no bias. -/
def indexOperands (tag : Byte) : Instr := .index (tag.extractLsb' 0 6)

/-- R72: the RUN count, bits [5:0] plus 1. -/
def runOperands (tag : Byte) : Instr := .run ((tag.extractLsb' 0 6).toNat + 1)

/-- The chunk of type `t` with tag byte `tag` and exactly the operand bytes `ops` (R64's lengths); none for another
number of operand bytes. -/
def assembleOperands (t : ChunkType) (tag : Byte) (ops : List Byte) : Option Instr :=
  match t, ops with
  | .index, [] => some (indexOperands tag)
  | .diff, [] => some (diffOperands tag)
  | .luma, [b2] => some (lumaOperands tag b2)
  | .run, [] => some (runOperands tag)
  | .rgb, [r, g, b] => some (.rgb r g b)
  | .rgba, [r, g, b, a] => some (.rgba r g b a)
  | _, _ => none

/-! ### Decoder -/

/-- Why a list of bytes holds no whole chunk. Every tag byte is legal (R77), so only missing bytes reject. -/
inductive DecodeError where
  /-- No tag byte. -/
  | noTag
  /-- Fewer operand bytes than the chunk type needs. -/
  | operandsMissing (t : ChunkType)
deriving DecidableEq, Repr

/-- What decoding answers: a chunk and the bytes after it, or a rejection by name. -/
inductive Decoded where
  | chunk (i : Instr) (rest : List Byte)
  | rejected (e : DecodeError)
deriving DecidableEq, Repr

/-- Decodes the first chunk of a list of bytes: classify the tag, take the operand bytes its length asks for (R80),
assemble them. Total on any bytes. -/
def decode : List Byte → Decoded
  | [] => .rejected .noTag
  | tag :: rest =>
    match assembleOperands (classify tag).1 tag (rest.take ((classify tag).2 - 1)) with
    | some i => .chunk i (rest.drop ((classify tag).2 - 1))
    | none => .rejected (.operandsMissing (classify tag).1)

/-! ### Serializer -/

/-- R81: pack_INDEX. -/
def packIndex (idx : BitVec 6) : List Byte := [idx.setWidth 8]

/-- R81: pack_DIFF, `0x40 | (dR+2) << 4 | (dG+2) << 2 | (dB+2)`. -/
def packDiff (dR dG dB : Int) : List Byte :=
  [0x40#8 ||| (BitVec.ofInt 8 (dR + 2) <<< 4) ||| (BitVec.ofInt 8 (dG + 2) <<< 2) ||| BitVec.ofInt 8 (dB + 2)]

/-- R81: pack_LUMA, `(0x80 | (dG+32), (dRG+8) << 4 | (dBG+8))`. -/
def packLuma (dG dRG dBG : Int) : List Byte :=
  [0x80#8 ||| BitVec.ofInt 8 (dG + 32), (BitVec.ofInt 8 (dRG + 8) <<< 4) ||| BitVec.ofInt 8 (dBG + 8)]

/-- R81: pack_RUN, `0xC0 | (count − 1)`. -/
def packRun (count : Nat) : List Byte := [0xC0#8 ||| BitVec.ofNat 8 (count - 1)]

/-- R81: pack_RGB. -/
def packRgb (r g b : Byte) : List Byte := [0xFE, r, g, b]

/-- R81: pack_RGBA. -/
def packRgba (r g b a : Byte) : List Byte := [0xFF, r, g, b, a]

/-- The bytes of a chunk (R81), for operands inside their ranges. -/
def encode : Instr → List Byte
  | .index idx => packIndex idx
  | .diff dR dG dB => packDiff dR dG dB
  | .luma dG dRG dBG => packLuma dG dRG dBG
  | .run count => packRun count
  | .rgb r g b => packRgb r g b
  | .rgba r g b a => packRgba r g b a

/-! ### Byte-number codec -/

/-- R96: four bytes, the most significant at the lowest offset, as one 32-bit word. -/
def bytesToUint32 (b0 b1 b2 b3 : Byte) : Word := b0 ++ b1 ++ b2 ++ b3

/-- R97: a 32-bit word as four bytes, the most significant first. -/
def uint32ToBytes (v : Word) : List Byte :=
  [v.extractLsb' 24 8, v.extractLsb' 16 8, v.extractLsb' 8 8, v.extractLsb' 0 8]

/-! ### Container and assembler -/

/-- R95: the magic, ASCII `qoif`. -/
def magic : List Byte := [0x71, 0x6F, 0x69, 0x66]

/-- R95: the 14 header bytes, `.header w, h, ch, cs` of R83. -/
def headerBytes (w h : Word) (ch cs : Byte) : List Byte :=
  magic ++ uint32ToBytes w ++ uint32ToBytes h ++ [ch, cs]

/-- R95, R103: the 8-byte end marker, `.end` of R83. -/
def endMarker : List Byte := [0, 0, 0, 0, 0, 0, 0, 1]

/-- R82: the bytes of one line of the notation; "An assembler must refuse an operand outside its range". -/
def assemble (i : Instr) : Option (List Byte) := if i.wellFormed then some (encode i) else none

/-- R83: the chunk bytes of a program, refused where one line is. -/
def assembleChunks : List Instr → Option (List Byte)
  | [] => some []
  | i :: is =>
    match assemble i, assembleChunks is with
    | some bs, some rest => some (bs ++ rest)
    | _, _ => none

/-- R83, R95: a whole stream: `.header w, h, ch, cs`, chunks, `.end`. -/
def assembleStream (w h : Word) (ch cs : Byte) (is : List Instr) : Option (List Byte) :=
  match assembleChunks is with
  | some bs => some (headerBytes w h ch cs ++ bs ++ endMarker)
  | none => none

/-! ### Words of the opcode table -/

/-- The 5 bytes (the longest chunk) of an instruction whose bits are `w`, numbered as the opcode table numbers them
(the first byte is bits 7..0); every bit from `nbits` up is 0. -/
def tableBytes (nbits w : Nat) : List Byte :=
  [BitVec.ofNat 8 (w % 2 ^ nbits), BitVec.ofNat 8 (w % 2 ^ nbits / 2 ^ 8), BitVec.ofNat 8 (w % 2 ^ nbits / 2 ^ 16),
   BitVec.ofNat 8 (w % 2 ^ nbits / 2 ^ 24), BitVec.ofNat 8 (w % 2 ^ nbits / 2 ^ 32)]

/-- The instruction the decoder reads from those bytes. -/
def decodeTableWord (nbits w : Nat) : Option Instr :=
  match decode (tableBytes nbits w) with
  | .chunk i _ => some i
  | .rejected _ => none

end Sys2Proof
end

