-- ==== Sys2Proof/Machine/Operands.lean ====
section
/-! DEFINITION. Channel arithmetic, the pixel operations of the chunk types, the encoder's delta unit and its choice
of a chunk (00_scope.md R11–R13, 42_decoder.md R114–R117, 43_encoder.md R139, R140). -/

namespace Sys2Proof.Machine

/-! ### Pixels as words and bytes -/

/-- R12: a pixel as one word, `{R, G, B, A}`, R in bits 31:24. -/
def packPixel (p : Pixel) : Word := p.r ++ p.g ++ p.b ++ p.a

/-- R12, the other way. -/
def unpackPixel (w : Word) : Pixel :=
  ⟨w.extractLsb' 24 8, w.extractLsb' 16 8, w.extractLsb' 8 8, w.extractLsb' 0 8⟩

/-- R111, R105: the four bytes of a finalized pixel, in the order R, G, B, A. -/
def pixelBytes (p : Pixel) : List Byte := [p.r, p.g, p.b, p.a]

/-! ### Channels -/

/-- R13: `px +₈ d`, the sum of a channel and an integer, mod 256. -/
def addChannel (c : Byte) (d : Int) : Byte := BitVec.ofInt 8 ((c.toNat : Int) + d)

/-- R11: `s8`, any integer mod 256, read as a signed 8-bit number. -/
def s8 (x : Int) : Int := (BitVec.ofInt 8 x).toInt

/-- R139: the difference of two channels, taken mod 256 and read as a signed 8-bit number. -/
def channelDelta (cur prev : Byte) : Int := s8 ((cur.toNat : Int) - (prev.toNat : Int))

/-! ### The decoder's pixel operations -/

/-- R114: three literal channels, alpha kept. -/
def applyRgb (r g b : Byte) (px : Pixel) : Pixel := ⟨r, g, b, px.a⟩

/-- R113: four literal channels. -/
def applyRgba (r g b a : Byte) : Pixel := ⟨r, g, b, a⟩

/-- R116: each colour channel plus its delta, mod 256; alpha kept. -/
def applyDiff (dR dG dB : Int) (px : Pixel) : Pixel :=
  ⟨addChannel px.r dR, addChannel px.g dG, addChannel px.b dB, px.a⟩

/-- R117: green plus its delta; red and blue plus the green delta plus their own; mod 256; alpha kept. -/
def applyLuma (dG dRG dBG : Int) (px : Pixel) : Pixel :=
  ⟨addChannel px.r (dG + dRG), addChannel px.g dG, addChannel px.b (dG + dBG), px.a⟩

/-! ### The encoder's delta unit and selection -/

/-- R139: `deltas(cur, prev)`. -/
structure Deltas where
  dR : Int
  dG : Int
  dB : Int
  dA : Int
deriving DecidableEq, Repr

/-- R139. -/
def deltas (cur prev : Pixel) : Deltas :=
  ⟨channelDelta cur.r prev.r, channelDelta cur.g prev.g, channelDelta cur.b prev.b, channelDelta cur.a prev.a⟩

/-- R140's first test. -/
def fitsDiff (d : Deltas) : Bool :=
  decide (d.dA = 0) && inRange (-2) 1 d.dR && inRange (-2) 1 d.dG && inRange (-2) 1 d.dB

/-- R140's second test; dRG and dBG are plain differences (R139). -/
def fitsLuma (d : Deltas) : Bool :=
  decide (d.dA = 0) && inRange (-32) 31 d.dG && inRange (-8) 7 (d.dR - d.dG) && inRange (-8) 7 (d.dB - d.dG)

/-- R140: the chunk the encoder chooses on a cache miss, in strict priority order. -/
def selectChunk (cur prev : Pixel) : Instr :=
  let d := deltas cur prev
  if fitsDiff d then .diff d.dR d.dG d.dB
  else if fitsLuma d then .luma d.dG (d.dR - d.dG) (d.dB - d.dG)
  else if d.dA = 0 then .rgb cur.r cur.g cur.b
  else .rgba cur.r cur.g cur.b cur.a

end Sys2Proof.Machine
end

