-- ==== Sys2Proof/Machine/Ops.lean ====
section
/-! DEFINITION. The operations the steps share: byte buffers, MemRead and Emit (20_memory.md R47, R49), raising an
error and beginning a job (60_exceptions.md R158, R162), and the pixel-history CAM (40_pixel_cache.md R85–R91). -/

namespace Sys2Proof.Machine

/-! ### Byte buffers -/

/-- The byte listed at an offset. -/
def Memory.byteAt : Memory → Nat → Option Byte
  | [], _ => none
  | (k, v) :: rest, a => if a = k then some v else Memory.byteAt rest a

/-- The buffer with byte `b` at offset `a`; the offsets keep rising. -/
def Memory.put : Memory → Nat → Byte → Memory
  | [], a, b => [(a, b)]
  | (k, v) :: rest, a, b =>
    if a < k then (a, b) :: (k, v) :: rest
    else if a = k then (a, b) :: rest
    else (k, v) :: Memory.put rest a b

/-- The buffer with the bytes `bs` at offsets `a`, `a + 1`, …, stored in that order (R47). -/
def Memory.putBytes (m : Memory) (a : Nat) : List Byte → Memory
  | [] => m
  | b :: bs => Memory.putBytes (m.put a b) (a + 1) bs

/-- Every offset listed is above `a`. -/
def Memory.above (a : Nat) : Memory → Bool
  | [] => true
  | (k, _) :: _ => decide (a < k)

/-- The canonical form: the offsets listed rise strictly. No entry can equal what an unlisted offset reads as, since
that is no value (logs 4, 5). -/
def Memory.wf : Memory → Bool
  | [] => true
  | (k, _) :: rest => Memory.above k rest && Memory.wf rest

/-! ### Reading IN -/

/-- The byte IN holds at an offset: the one the host put there, or else whatever IN held (R44: any value; log 4).
Reading it changes nothing (R55). -/
def inByte (s : State) (off : Nat) : Byte := (s.inBuf.byteAt off).getD (Config.inContents s.inEpoch off)

/-- The bytes of IN at offsets `off`, `off + 1`, …, in ascending order. -/
def inBytes (s : State) (off : Nat) : Nat → List Byte
  | 0 => []
  | k + 1 => inByte s off :: inBytes s (off + 1) k

/-- R47: `MemRead(IN, off, k)`, for off + k ≤ L; none beyond (R46), or beyond IN_CAP (R45). -/
def memRead (s : State) (off k : Nat) : Option (List Byte) :=
  if off + k ≤ s.len.toNat ∧ off + k ≤ s.cfg.inCap.toNat then some (inBytes s off k) else none

/-! ### What OUT holds -/

/-- The byte OUT holds at an offset: the one a job or the host put there, or else whatever OUT held, which a job that does
not write there leaves unchanged (R44, R48: any value; log 5). -/
def outByte (s : State) (off : Nat) : Byte := (s.outBuf.byteAt off).getD (Config.outContents s.outEpoch off)

/-! ### Steps that can end early -/

/-- How far a core step has come. -/
inductive Flow where
  /-- The step goes on. -/
  | more (s : State)
  /-- An error was raised: the job is over and the rest of the step does not happen (R158). -/
  | aborted (s : State)
  /-- The machine stops. -/
  | faulted (f : Fault)
deriving Repr

/-- The next part of a step, if the step goes on. -/
def Flow.andThen (f : Flow) (g : State → Flow) : Flow :=
  match f with
  | .more s => g s
  | .aborted s => .aborted s
  | .faulted r => .faulted r

/-- The step's outcome: an abort is a next state like any other (R158: reported through STATUS, not trapped). -/
def Flow.outcome : Flow → Host.Outcome State Fault Refusal
  | .more s => .next s
  | .aborted s => .next s
  | .faulted r => .fault r

/-! ### Errors: entry and return -/

/-- R158: `raise e`, the state right after it. STATE, ERR, OUT_LEN and PIX_COUNT as given; HDR_* become unspecified
(free values, log 6); all of OUT becomes unspecified (nothing is listed any more, and what its bytes hold is new, log 5);
the rest keeps what it holds. -/
def raise (e : ErrCode) (s : State) : State :=
  { s with
    jobState := .error
    err := e
    outLen := 0
    pixCount := 0
    hdrWidth := Config.unspecifiedWord s.draws
    hdrHeight := Config.unspecifiedWord (s.draws + 1)
    hdrChannels := (Config.unspecifiedWord (s.draws + 2)).extractLsb' 0 8
    hdrColorspace := (Config.unspecifiedWord (s.draws + 2)).extractLsb' 8 8
    outBuf := []
    outEpoch := s.outEpoch + 1
    draws := s.draws + 3 }

/-- R30, R162: what every start step does first, from ERROR as from IDLE and DONE: STATE ← BUSY, ERR ← 0, ABS ← 0, and
MODE is latched (R19). There is no other return from an error. The host has not observed the new job's end (R58). -/
def beginJob (s : State) : State :=
  { s with jobState := .busy, err := .none, absIdx := false, jobMode := s.mode, observed := false }

/-! ### Emit -/

/-- The byte `b` at OUT[o], and o one further. -/
def pushByte (b : Byte) (s : State) : State :=
  { s with outBuf := s.outBuf.put s.o.toNat b, o := s.o + 1 }

/-- R49: `Emit(b)`. -/
def emit (b : Byte) (s : State) : Flow :=
  if s.cfg.outCap ≤ s.o then .aborted (raise .outOverflow s) else .more (pushByte b s)

/-- R49: `Emit(b1, ..., bk)` is `Emit(b1); ...; Emit(bk)`. -/
def emits : List Byte → State → Flow
  | [], s => .more s
  | b :: bs, s => (emit b s).andThen (emits bs)

/-- R110, R111: `repeat count times: Emit(PX.R, PX.G, PX.B, PX.A)`. -/
def emitCopies (p : Pixel) : Nat → State → Flow
  | 0, s => .more s
  | k + 1, s => (emits (pixelBytes p) s).andThen (emitCopies p k)

/-! ### The pixel-history CAM -/

/-- R85: `hash(px) = (R*3 + G*5 + B*7 + A*11) mod 64`. -/
def pixelHash (p : Pixel) : BitVec 6 :=
  BitVec.ofNat 6 (p.r.toNat * 3 + p.g.toNat * 5 + p.b.toNat * 7 + p.a.toNat * 11)

/-- R88: `slot_read(idx)`. -/
def slotRead (c : Cache) (k : BitVec 6) : Slot := c.get ⟨k.toNat, k.isLt⟩

/-- One slot replaced. -/
def slotSet (c : Cache) (k : BitVec 6) (v : Slot) : Cache := c.set k.toNat v k.isLt

/-- R87: `hit(px)`: the one slot px can occupy is valid and holds px. -/
def hit (c : Cache) (p : Pixel) : Bool :=
  (slotRead c (pixelHash p)).valid && decide ((slotRead c (pixelHash p)).px = p)

/-- R89: `slot_write(px)`. -/
def slotWrite (p : Pixel) (s : State) : State :=
  { s with cache := slotSet s.cache (pixelHash p) ⟨true, p⟩ }

/-- R91: `invalidate()`. -/
def invalidate (s : State) : State := { s with cache := Cache.absent s.cfg.cacheFill }

/-! ### The common tail of a chunk step -/

/-- R110: PX and count are what the chunk's own rule gives; then the output append (R111), the cache refresh (R112) and
the pointer advance by the chunk's length (R119). -/
def chunkTail (p : Pixel) (count length : Nat) (s : State) : Flow :=
  (emitCopies p count { s with px := p }).andThen fun t =>
    .more { slotWrite p t with ptr := t.ptr + BitVec.ofNat 32 length }

end Sys2Proof.Machine
end

