-- ==== Sys2Proof/Machine/Cached.lean ====
section
/-! DEFINITION. The chunk that reads the pixel-history CAM: INDEX (42_decoder.md R115). -/

namespace Sys2Proof.Machine

/-- R115, the absent slot: ABS ← 1, and the pixel is any value (U1, D6): a fresh draw, whose number and the slot's data
field are all it is a function of (log 3). -/
def absentRead (held : Pixel) (s : State) : Pixel × State :=
  (Config.absentPixel s.draws held, { flagAbsent s with draws := s.draws + 1 })

/-- R115: the pixel an INDEX chunk produces, and the state after reading it. The slot is read before the same step's
refresh writes (R180). -/
def indexRead (idx : BitVec 6) (s : State) : Pixel × State :=
  let slot := slotRead s.cache idx
  if slot.valid then (slot.px, s) else absentRead slot.px s

/-- R115: INDEX, length 1. -/
def execIndex (idx : BitVec 6) (s : State) : Host.Outcome State Fault Refusal :=
  (chunkTail (indexRead idx s).1 1 1 (indexRead idx s).2).outcome

end Sys2Proof.Machine
end

