-- ==== Sys2Proof/Machine/Delta.lean ====
section
/-! DEFINITION. The delta chunks: DIFF and LUMA (42_decoder.md R116, R117). -/

namespace Sys2Proof.Machine

/-- R116: DIFF, length 1. -/
def execDiff (dR dG dB : Int) (s : State) : Host.Outcome State Fault Refusal :=
  (chunkTail (applyDiff dR dG dB s.px) 1 1 s).outcome

/-- R117: LUMA, length 2. -/
def execLuma (dG dRG dBG : Int) (s : State) : Host.Outcome State Fault Refusal :=
  (chunkTail (applyLuma dG dRG dBG s.px) 1 2 s).outcome

end Sys2Proof.Machine
end

