-- ==== Sys2Proof/Machine/Literal.lean ====
section
/-! DEFINITION. The literal chunks: RGB and RGBA (42_decoder.md R113, R114). -/

namespace Sys2Proof.Machine

/-- R114: RGB, length 4; "A unchanged". -/
def execRgb (r g b : Byte) (s : State) : Host.Outcome State Fault Refusal :=
  (chunkTail (applyRgb r g b s.px) 1 4 s).outcome

/-- R113: RGBA, length 5. -/
def execRgba (r g b a : Byte) (s : State) : Host.Outcome State Fault Refusal :=
  (chunkTail (applyRgba r g b a) 1 5 s).outcome

end Sys2Proof.Machine
end

