-- ==== Sys2Proof/Machine/RunLength.lean ====
section
/-! DEFINITION. The run chunk: RUN (42_decoder.md R118). -/

namespace Sys2Proof.Machine

/-- R118: RUN, length 1: PX unchanged, count copies appended, one cache refresh. -/
def execRun (count : Nat) (s : State) : Host.Outcome State Fault Refusal :=
  (chunkTail s.px count 1 s).outcome

end Sys2Proof.Machine
end

