-- ==== Sys2Proof/Machine/Dispatch.lean ====
section
/-! DEFINITION. One arm per chunk type: its meaning in the decoder (42_decoder.md R113–R118). -/

namespace Sys2Proof.Machine

def exec (i : Instr) (s : State) : Host.Outcome State Fault Refusal :=
  match i with
  | .index idx => Sys2Proof.Machine.execIndex idx s
  | .diff dR dG dB => Sys2Proof.Machine.execDiff dR dG dB s
  | .luma dG dRG dBG => Sys2Proof.Machine.execLuma dG dRG dBG s
  | .run count => Sys2Proof.Machine.execRun count s
  | .rgb r g b => Sys2Proof.Machine.execRgb r g b s
  | .rgba r g b a => Sys2Proof.Machine.execRgba r g b a s

end Sys2Proof.Machine
end

