-- ==== Sys2Proof/Machine/Framing.lean ====
section
/-! DEFINITION. The block's stream boundary: header write and parse, end marker (41_framing.md R98–R103). -/

namespace Sys2Proof.Machine

/-- R98: `write_header()`. The colorspace byte is always 0 (R99). -/
def writeHeader (s : State) : Flow := emits (headerBytes s.wid s.hgt s.ch 0x00) s

/-- R103: `write_end()`. -/
def writeEnd (s : State) : Flow := emits endMarker s

/-- R100's assignments: width and height big-endian from bytes 4–11, channels from byte 12, colorspace from byte 13,
none of them checked (R102). -/
def parseHeader (s : State) : State :=
  { s with
    hdrWidth := bytesToUint32 (inByte s 4) (inByte s 5) (inByte s 6) (inByte s 7)
    hdrHeight := bytesToUint32 (inByte s 8) (inByte s 9) (inByte s 10) (inByte s 11)
    hdrChannels := inByte s 12
    hdrColorspace := inByte s 13 }

/-- R100: `read_header()`; it runs only when 22 ≤ L ≤ IN_CAP, so its 14 bytes exist. -/
def readHeader (s : State) : Flow :=
  if inBytes s 0 4 = magic then .more (parseHeader s) else .aborted (raise .badMagic s)

end Sys2Proof.Machine
end

