-- ==== Sys2Proof/Machine/Decoder.lean ====
section
/-! DEFINITION. A DECODE job around its chunks: start, chunk fetch, finish (42_decoder.md R106–R110, R124). -/

namespace Sys2Proof.Machine

/-- The last four assignments of R106. -/
def decoderInit (s : State) : State :=
  { invalidate s with px := Pixel.initial, ptr := 14, o := 0, phase := .body }

/-- R106: the DECODE start step, with its three checks in the order of R157. R18 says the header is parsed in PHASE = HDR and
R106 assigns no HDR; the model assigns none (DESIGN CHOICE, log 26), so a START that fails leaves PHASE as it was. -/
def startDecode (s : State) : Flow :=
  let s := { beginJob s with len := s.inLen }
  if s.cfg.inCap < s.len then .aborted (raise .param s)
  else if s.len < 22 then .aborted (raise .truncated s)
  else (readHeader s).andThen fun t => .more (decoderInit t)

/-- R108: a chunk step is due (ptr < L − 8), rather than the finish step. -/
def chunkDue (s : State) : Bool := decide (s.ptr.toNat + 8 < s.len.toNat)

/-- R110: the tag byte at IN[ptr] is classified, the chunk's bytes read (operands from the end-marker region too, R120)
and decoded. -/
def fetchChunk (s : State) : Except Fault Instr :=
  match memRead s s.ptr.toNat (classify (inByte s s.ptr.toNat)).2 with
  | none => .error .inReadOutOfRange
  | some bytes =>
    match decode bytes with
    | .chunk i _ => .ok i
    | .rejected _ => .error .undecodable

/-- R124: the DECODE finish step. HDR_* already hold what R106 read; STATE = DONE publishes them. -/
def finishDecode (s : State) : State :=
  { s with outLen := s.o, pixCount := s.o / 4, jobState := .done }

end Sys2Proof.Machine
end

