-- ==== Sys2Proof/Machine/Encoder.lean ====
section
/-! DEFINITION. An ENCODE job: start, header step, pixel step with run-length encoder, delta encoder and chunk
serializer, trailer step (43_encoder.md R126–R151). -/

namespace Sys2Proof.Machine

/-! ### Start and header -/

/-- R126, R19: the parameters are latched. -/
def latchParams (s : State) : State :=
  { s with len := s.inLen, wid := s.encWidth, hgt := s.encHeight, ch := s.encChannels }

/-- R130: `check_params()` passes. -/
def paramsOk (s : State) : Bool :=
  decide (s.len ≤ s.cfg.inCap) && (decide (s.ch = 3) || decide (s.ch = 4)) && decide (s.len.toNat % s.ch.toNat = 0)

/-- R126 after the check: N = L div CH, cache, PX, RUN, i, o, PHASE. -/
def encoderInit (s : State) : State :=
  { invalidate s with
    n := BitVec.ofNat 32 (s.len.toNat / s.ch.toNat), px := Pixel.initial, run := 0, i := 0, o := 0, phase := .hdr }

/-- R126: the ENCODE start step. -/
def startEncode (s : State) : Flow :=
  let s := latchParams (beginJob s)
  if paramsOk s then .more (encoderInit s) else .aborted (raise .param s)

/-- R131: the HDR step. -/
def headerStep (s : State) : Flow :=
  (writeHeader s).andThen fun t => .more { t with phase := .body }

/-! ### Chunk serializer -/

/-- R141. -/
def emitIndex (k : BitVec 6) (s : State) : Flow := emits (packIndex k) s

/-- R142. -/
def emitDiff (dR dG dB : Int) (s : State) : Flow := emits (packDiff dR dG dB) s

/-- R143. -/
def emitLuma (dG dRG dBG : Int) (s : State) : Flow := emits (packLuma dG dRG dBG) s

/-- R144. -/
def emitRgb (cur : Pixel) (s : State) : Flow := emits (packRgb cur.r cur.g cur.b) s

/-- R145. -/
def emitRgba (cur : Pixel) (s : State) : Flow := emits (packRgba cur.r cur.g cur.b cur.a) s

/-- R146. -/
def emitRun (r : BitVec 6) (s : State) : Flow := emits (packRun r.toNat) s

/-- R140: the chosen chunk, by its own emit rule. -/
def emitSelected (cur prev : Pixel) (s : State) : Flow :=
  match selectChunk cur prev with
  | .index k => emitIndex k s
  | .diff dR dG dB => emitDiff dR dG dB s
  | .luma dG dRG dBG => emitLuma dG dRG dBG s
  | .run count => emits (packRun count) s
  | .rgb _ _ _ => emitRgb cur s
  | .rgba _ _ _ _ => emitRgba cur s

/-! ### The pixel step -/

/-- R132, R105: `current` at index i; alpha is 255 in RGB mode. -/
def fetchPixel (s : State) : Except Fault Pixel :=
  if s.ch ≠ 3 ∧ s.ch ≠ 4 then .error .noCoreStep
  else
    match memRead s (s.i.toNat * s.ch.toNat) s.ch.toNat with
    | some [r, g, b] => .ok ⟨r, g, b, 255⟩
    | some [r, g, b, a] => .ok ⟨r, g, b, a⟩
    | _ => .error .inReadOutOfRange

/-- R128: "`last = (i == N − 1)`". -/
def isLast (s : State) : Bool := decide (s.i.toNat + 1 = s.n.toNat)

/-- R136, R137: `emit_RUN(RUN); RUN <- 0`. -/
def flushRun (s : State) : Flow := (emitRun s.run s).andThen fun t => .more { t with run := 0 }

/-- R134, R136: the repeat branch. No cache access, no other chunk. -/
def repeatBranch (last : Bool) (s : State) : Flow :=
  let s := { s with run := s.run + 1 }
  if s.run = 62 ∨ last = true then flushRun s else .more s

/-- R138: a hit emits INDEX and leaves the cache; a miss writes the slot and then selects. -/
def lookupBranch (cur : Pixel) (s : State) : Flow :=
  if hit s.cache cur then emitIndex (pixelHash cur) s else emitSelected cur s.px (slotWrite cur s)

/-- R137, R138: the differing branch: pending run first. -/
def differBranch (cur : Pixel) (s : State) : Flow :=
  (if s.run = 0 then .more s else flushRun s).andThen (lookupBranch cur)

/-- R133: the pixel step for a fetched pixel. -/
def encodePixel (cur : Pixel) (s : State) : Flow :=
  (if cur = s.px then repeatBranch (isLast s) s else differBranch cur s).andThen fun t =>
    .more { t with px := cur, i := t.i + 1 }

/-- R133: the pixel step. -/
def pixelStep (s : State) : Flow :=
  match fetchPixel s with
  | .ok cur => encodePixel cur s
  | .error f => .faulted f

/-! ### Trailer -/

/-- R151 after the end marker. -/
def finishEncode (s : State) : State :=
  { s with
    outLen := s.o, pixCount := s.n, hdrWidth := s.wid, hdrHeight := s.hgt, hdrChannels := s.ch, hdrColorspace := 0
    jobState := .done }

/-- R151: the TRAIL step. PHASE is TRAIL in it (R18, log 10). -/
def trailStep (s : State) : Flow :=
  (writeEnd { s with phase := .trail }).andThen fun t => .more (finishEncode t)

end Sys2Proof.Machine
end

