-- ==== Sys2Proof/Machine/HostPort.lean ====
section
/-! DEFINITION. The host's accesses: the CSR block (10_state.md R29–R41), the two buffers (20_memory.md R45, R57) and
power-on reset (70_reset_and_hazards.md R172, R173). -/

namespace Sys2Proof.Machine

/-! ### The CSR block -/

/-- R29: the eleven registers, and the offsets of R41 that hold none. -/
inductive Csr where
  | ctrl
  | status
  | encWidth
  | encHeight
  | encChannels
  | inLen
  | outLen
  | hdrWidth
  | hdrHeight
  | hdrInfo
  | pixCount
  | unmapped
deriving DecidableEq, Repr

/-- R29's table; R41: offsets 0x2C and above hold no register. -/
def csrAt (off : Nat) : Csr :=
  if off = 0x00 then .ctrl
  else if off = 0x04 then .status
  else if off = 0x08 then .encWidth
  else if off = 0x0C then .encHeight
  else if off = 0x10 then .encChannels
  else if off = 0x14 then .inLen
  else if off = 0x18 then .outLen
  else if off = 0x1C then .hdrWidth
  else if off = 0x20 then .hdrHeight
  else if off = 0x24 then .hdrInfo
  else if off = 0x28 then .pixCount
  else .unmapped

/-- R54, R62: the register a host access reaches, or the refusal: an address below CSR_BASE is not this block's, and
only naturally aligned 32-bit words are accesses the spec gives a meaning. -/
def csrSelect (s : State) (addr : Nat) (width : AccessWidth) : Except Refusal Csr :=
  if addr < s.cfg.csrBase then .error .outsideCsrBlock
  else if width = .word ∧ (addr - s.cfg.csrBase) % 4 = 0 then .ok (csrAt (addr - s.cfg.csrBase))
  else .error .csrAccessNotAlignedWord

/-- R30: CTRL as read: MODE in bit 1; START and the reserved bits read 0. -/
def ctrlWord (s : State) : Word := 0#30 ++ s.mode.code ++ 0#1

/-- R39: HDR_INFO: channels in [7:0], colorspace in [15:8]. -/
def hdrInfoWord (s : State) : Word := 0#16 ++ s.hdrColorspace ++ s.hdrChannels

/-- R31–R41: what a register holds. -/
def csrHeld (s : State) : Csr → Word
  | .ctrl => ctrlWord s
  | .status => statusWord s
  | .encWidth => s.encWidth
  | .encHeight => s.encHeight
  | .encChannels => s.encChannels.setWidth 32
  | .inLen => s.inLen
  | .outLen => s.outLen
  | .hdrWidth => s.hdrWidth
  | .hdrHeight => s.hdrHeight
  | .hdrInfo => hdrInfoWord s
  | .pixCount => s.pixCount
  | .unmapped => 0

/-- R58: the results of the last job are visible to the host: the job is over, and the host has read STATUS since it
ended. "Nothing else orders the core's writes against the host" (log 25). -/
def resultsVisible (s : State) : Bool := decide (s.jobState ≠ .busy) && s.observed

/-- R36–R40, U4, R58: what a register shows while the results are not visible: any value where it is a result; HDR_INFO's
reserved bits still read 0 (R41, log 6). -/
def csrShownUnordered (s : State) (r : Csr) : Word :=
  match r with
  | .outLen | .hdrWidth | .hdrHeight | .pixCount => Config.unspecifiedWord s.draws
  | .hdrInfo => 0#16 ++ (Config.unspecifiedWord s.draws).extractLsb' 0 16
  | .ctrl | .status | .encWidth | .encHeight | .encChannels | .inLen | .unmapped => csrHeld s r

/-- What a host read of a register returns. -/
def csrShown (s : State) (r : Csr) : Word := if resultsVisible s then csrHeld s r else csrShownUnordered s r

/-- R58: the host has observed the end of the job after reading register `r`: it had before, or this is a STATUS read that
returns STATE = DONE or STATE = ERROR. -/
def observedAfterRead (s : State) (r : Csr) : Bool :=
  s.observed || (decide (r = .status) && (decide (s.jobState = .done) || decide (s.jobState = .error)))

/-- R29: a CSR read. It has no side effect on the block; the model notes the response (log 14), counts a draw (log 7), and
notes that the host has seen the job's end (R58, log 25). -/
def csrRead (addr : Nat) (r : Csr) (s : State) : State :=
  { s with
    response := some (.csr addr (csrShown s r)), draws := s.draws + 1, observed := observedAfterRead s r }

/-- R30: the mode bit of a word written to CTRL. -/
def modeOf (v : Word) : Mode := if v.getLsbD 1 then .decode else .encode

/-- R30: the start step of the mode in force. -/
def startJob (s : State) : Flow :=
  match s.mode with
  | .encode => startEncode s
  | .decode => startDecode s

/-- R30: a write to CTRL while not BUSY: bit 1 into MODE; bit 0 starts a job in the newly written MODE. -/
def writeCtrl (v : Word) (s : State) : Flow :=
  let s := { s with mode := modeOf v }
  if v.getLsbD 0 then startJob s else .more s

/-- R29: a CSR write. While BUSY every write is ignored, START included (R165); writes to RO registers, reserved fields
and unmapped offsets are ignored (R41). -/
def csrWrite (r : Csr) (v : Word) (s : State) : Flow :=
  if s.jobState = .busy then .more s
  else
    match r with
    | .ctrl => writeCtrl v s
    | .encWidth => .more { s with encWidth := v }
    | .encHeight => .more { s with encHeight := v }
    | .encChannels => .more { s with encChannels := v.extractLsb' 0 8 }
    | .inLen => .more { s with inLen := v }
    | .status | .outLen | .hdrWidth | .hdrHeight | .hdrInfo | .pixCount | .unmapped => .more s

/-! ### The buffers -/

/-- R45, R57(a): the host puts a byte into IN; while BUSY only at L and above. -/
def hostInWrite (off : Nat) (b : Byte) (s : State) : Host.Outcome State Fault Refusal :=
  if s.cfg.inCap.toNat ≤ off then .fault .noSuchOffset
  else if s.jobState = .busy ∧ off < s.len.toNat then .refused .hostWroteInWhileBusy
  else .next { s with inBuf := s.inBuf.put off b }

/-- What OUT holds after a host write of `b`: `b`, but any value where the write is not ordered after the job's own
(R58, R182(b); logs 16, 25). -/
def outStored (b : Byte) (s : State) : Byte := if resultsVisible s then b else Config.unspecifiedByte s.draws

/-- R45, R57(b): the host puts a byte into OUT, never while BUSY (log 16). -/
def hostOutWrite (off : Nat) (b : Byte) (s : State) : Host.Outcome State Fault Refusal :=
  if s.cfg.outCap.toNat ≤ off then .fault .noSuchOffset
  else if s.jobState = .busy then .refused .hostWroteOutWhileBusy
  else .next { s with outBuf := s.outBuf.put off (outStored b s), draws := s.draws + 1 }

/-- R48, R57(c), R58, R158, R182(b): the byte of OUT the host sees: any value until the host has observed that the job is
over, and in ERROR; otherwise the byte OUT holds (logs 5, 25). -/
def outShown (s : State) (off : Nat) : Byte :=
  if resultsVisible s = false ∨ s.jobState = .error then Config.unspecifiedByte s.draws
  else outByte s off

/-- The host reads a byte of OUT (log 14). -/
def hostOutRead (off : Nat) (s : State) : Host.Outcome State Fault Refusal :=
  if s.cfg.outCap.toNat ≤ off then .fault .noSuchOffset
  else .next { s with response := some (.out off (outShown s off)), draws := s.draws + 1 }

/-! ### Power-on reset -/

/-- R172, R173: power-on reset. Every piece of the block's state takes its value of R44. OUT is unspecified (log 5); IN is
unchanged when a job was running (R173), and otherwise any value (R44; log 17). The parameters, and the model's own
counters and turns, go on. -/
def powerOnReset (s : State) : State :=
  { State.resetWith s.cfg with
    inBuf := if s.jobState = .busy then s.inBuf else []
    inEpoch := if s.jobState = .busy then s.inEpoch else s.inEpoch + 1
    outEpoch := s.outEpoch + 1
    draws := s.draws
    turns := s.turns
    response := s.response }

/-! ### A host access -/

/-- The effect of one host access, all of it between two core steps (R165). -/
def hostStep (op : HostOp) (s : State) : Host.Outcome State Fault Refusal :=
  match op with
  | .csrWrite addr width v =>
    match csrSelect s addr width with
    | .ok r => (csrWrite r v s).outcome
    | .error e => .refused e
  | .csrRead addr width =>
    match csrSelect s addr width with
    | .ok r => .next (csrRead addr r s)
    | .error e => .refused e
  | .inWrite off b => hostInWrite off b s
  | .outWrite off b => hostOutWrite off b s
  | .outRead off => hostOutRead off s
  | .powerOnReset => .next (powerOnReset s)

end Sys2Proof.Machine
end

