-- ==== Sys2Proof/Machine/Sequencer.lean ====
section
/-! DEFINITION. Which step is next: the core's (00_scope.md R7, 10_state.md R15, 42_decoder.md R108, 43_encoder.md R127)
or the host's (60_exceptions.md R165). -/

namespace Sys2Proof.Machine

/-- R110: a chunk step: the chunk at ptr is fetched, and its meaning is the step. -/
def chunkStep (s : State) : Host.Outcome State Fault Refusal :=
  match fetchChunk s with
  | .ok i => exec i s
  | .error f => .fault f

/-- R108: the step of a DECODE job. -/
def decodeStep (s : State) : Host.Outcome State Fault Refusal :=
  match s.phase with
  | .body => if chunkDue s then chunkStep s else .next (finishDecode s)
  | .hdr | .trail => .fault .noCoreStep

/-- R127: the step of an ENCODE job: HDR, then a pixel step for each i < N, then TRAIL at i = N. -/
def encodeStep (s : State) : Host.Outcome State Fault Refusal :=
  match s.phase with
  | .hdr => (headerStep s).outcome
  | .body =>
    if s.i = s.n then (trailStep s).outcome
    else if s.i < s.n then (pixelStep s).outcome
    else .fault .noCoreStep
  | .trail => .fault .noCoreStep

/-- R15, R171: the core steps only while BUSY; otherwise its turn changes nothing. -/
def coreStep (s : State) : Host.Outcome State Fault Refusal :=
  match s.jobState with
  | .busy =>
    match s.jobMode with
    | .encode => encodeStep s
    | .decode => decodeStep s
  | .idle | .done | .error => .next s

/-- R165, U21: one whole turn. When no turn is listed it is the core's (R185: a BUSY core goes on). -/
def takeTurn (s : State) : Host.Outcome State Fault Refusal :=
  match s.turns with
  | [] => coreStep s
  | .core :: rest => coreStep { s with turns := rest }
  | .host op :: rest => hostStep op { s with turns := rest }

end Sys2Proof.Machine
end

