-- ==== Sys2Proof/Machine/Step.lean ====
section
/-! DEFINITION. One step of the machine, and how the host's checks place one chunk where the next step fetches it. -/

namespace Sys2Proof.Machine

/-- One step: one turn of the core or of the host (R7, R165). -/
def step (s : State) : Host.Outcome State Fault Refusal := takeTurn s

/-- `s` in the body of a DECODE job whose next chunk is the instruction of `nbits` bits `w`: its bytes in IN at ptr, an L
that leaves 8 bytes behind the longest chunk, and IN_LEN and MODE as the host would have written them (log 9). -/
def State.withFetchWord (s : State) (nbits w : Nat) : State :=
  { s with
    turns := []
    jobState := .busy
    observed := false
    mode := .decode
    jobMode := .decode
    phase := .body
    inLen := s.ptr + 13
    len := s.ptr + 13
    inBuf := s.inBuf.putBytes s.ptr.toNat (tableBytes nbits w) }

end Sys2Proof.Machine
end

