-- ==== Sys2Proof/Safety.lean ====
section
/-! DEFINITION. What holds of a machine that runs as the spec says (the invariant, R17–R44, R46, R48, R90, R137, R147,
R152), and the terms the statements use: what a chunk step leaves, what a raise leaves, lockstep of encoder and decoder. -/

namespace Sys2Proof.Machine

/-! ### The invariant -/

/-- R90, R91: every valid slot holds a pixel of its own hash; every absent slot holds CACHE_FILL (R27). -/
structure CacheInv (s : State) : Prop where
  hashed : ∀ k, (slotRead s.cache k).valid = true → pixelHash (slotRead s.cache k).px = k
  filled : ∀ k, (slotRead s.cache k).valid = false → (slotRead s.cache k).px = s.cfg.cacheFill

/-- PX is in its slot, unless it is the initial pixel and that slot is still absent (R92–R94). -/
def pxCached (s : State) : Prop :=
  slotRead s.cache (pixelHash s.px) = ⟨true, s.px⟩ ∨
    (s.px = Pixel.initial ∧ (slotRead s.cache (pixelHash s.px)).valid = false)

/-- Both buffers are in canonical form and list only offsets that exist (R45). -/
structure BufferInv (s : State) : Prop where
  in_wf : s.inBuf.wf = true
  out_wf : s.outBuf.wf = true
  in_exists : ∀ a, s.inBuf.byteAt a ≠ none → a < s.cfg.inCap.toNat
  out_exists : ∀ a, s.outBuf.byteAt a ≠ none → a < s.cfg.outCap.toNat

/-- A running job of either mode: R19 (the copies equal the CSRs), R35, R48, R49. -/
structure BusyInv (s : State) : Prop where
  len_cap : s.len.toNat ≤ s.cfg.inCap.toNat
  out_cap : s.o.toNat ≤ s.cfg.outCap.toNat
  mode : s.jobMode = s.mode
  in_len : s.len = s.inLen
  written : ∀ a, a < s.o.toNat → s.outBuf.byteAt a ≠ none
  cached : pxCached s

/-- A running DECODE job between steps: R18, R20, R107, R119, and whole pixels in OUT (R124). -/
structure DecodeInv (s : State) : Prop where
  phase : s.phase = .body
  len_min : 22 ≤ s.len.toNat
  ptr_min : 14 ≤ s.ptr.toNat
  ptr_max : s.ptr.toNat + 4 ≤ s.len.toNat
  whole : s.o.toNat % 4 = 0

/-- A running ENCODE job between steps: R18, R19, R23, R24, R130, R137, R147, R152. -/
structure EncodeInv (s : State) : Prop where
  channels : s.ch = 3 ∨ s.ch = 4
  latched : s.wid = s.encWidth ∧ s.hgt = s.encHeight ∧ s.ch = s.encChannels
  pixels : s.n.toNat * s.ch.toNat = s.len.toNat
  index : s.i.toNat ≤ s.n.toNat
  run_max : s.run.toNat ≤ 61
  run_index : s.run.toNat ≤ s.i.toNat
  run_end : s.i = s.n → s.run = 0
  flag : s.absIdx = false
  alpha : s.ch = 3 → s.px.a = 255
  place : (s.phase = .hdr ∧ s.i = 0 ∧ s.run = 0 ∧ s.o = 0) ∨
    (s.phase = .body ∧ 14 ≤ s.o.toNat ∧ s.o.toNat ≤ 14 + 5 * (s.i.toNat - s.run.toNat) ∧
      (s.run.toNat < s.i.toNat → 15 ≤ s.o.toNat))

/-- What a state keeps from step to step. -/
structure State.Inv (s : State) : Prop where
  cfg : s.cfg.legal = true
  buffers : BufferInv s
  cache : CacheInv s
  /-- R31, R153: ERR is a code other than 0 exactly in ERROR, and never ERR_INVALID_TAG (R160). -/
  err : (s.err ≠ .none ↔ s.jobState = .error) ∧ s.err ≠ .invalidTag
  /-- R58: a running job's end has not been observed, and before the first job there is none to observe. -/
  observed : (s.jobState = .busy → s.observed = false) ∧ (s.jobState = .idle → s.observed = true)
  /-- R158. -/
  error : s.jobState = .error → s.outLen = 0 ∧ s.pixCount = 0
  /-- R36, R40, R48: at DONE the result stands in OUT, and a DECODE job's length is 4 × its pixel count. -/
  done : s.jobState = .done →
    (∀ a, a < s.outLen.toNat → s.outBuf.byteAt a ≠ none) ∧
      (s.jobMode = .decode → s.outLen.toNat = 4 * s.pixCount.toNat)
  busy : s.jobState = .busy → BusyInv s
  decode : s.jobState = .busy → s.jobMode = .decode → DecodeInv s
  encode : s.jobState = .busy → s.jobMode = .encode → EncodeInv s

/-! ### Terms of the statements -/

/-- Every field the core's steps never write: the parameters, the host-written CSRs, the latched parameters, IN, and
the model's own record of the host (R19, R28, R45, R60). -/
def SameInputs (s t : State) : Prop :=
  t.cfg = s.cfg ∧ t.mode = s.mode ∧ t.encWidth = s.encWidth ∧ t.encHeight = s.encHeight ∧
    t.encChannels = s.encChannels ∧ t.inLen = s.inLen ∧ t.jobMode = s.jobMode ∧ t.len = s.len ∧ t.wid = s.wid ∧
    t.hgt = s.hgt ∧ t.ch = s.ch ∧ t.n = s.n ∧ t.inBuf = s.inBuf ∧ t.inEpoch = s.inEpoch ∧ t.response = s.response ∧
    t.observed = s.observed

/-- The result registers a host reads at DONE (R36–R40). -/
def SameResults (s t : State) : Prop :=
  t.outLen = s.outLen ∧ t.pixCount = s.pixCount ∧ t.hdrWidth = s.hdrWidth ∧ t.hdrHeight = s.hdrHeight ∧
    t.hdrChannels = s.hdrChannels ∧ t.hdrColorspace = s.hdrColorspace

/-- OUT is as in `s` at offset `a`: it lists the same byte there, and so holds the same byte (`outByte`). -/
def OutKeeps (s t : State) (a : Nat) : Prop := t.outBuf.byteAt a = s.outBuf.byteAt a ∧ outByte t a = outByte s a

/-- OUT holds the bytes `bs` from offset `off` on, and every other offset of OUT is as in `s`. -/
def OutGets (s t : State) (off : Nat) (bs : List Byte) : Prop :=
  (∀ k, k < bs.length → t.outBuf.byteAt (off + k) = bs[k]?) ∧
    ∀ a, a < off ∨ off + bs.length ≤ a → OutKeeps s t a

/-- R89: in the cache of `t`, slot hash(p) is valid and holds p, and every other slot is as in `s`. -/
def CacheGets (s t : State) (p : Pixel) : Prop :=
  ∀ k, slotRead t.cache k = if k = pixelHash p then ⟨true, p⟩ else slotRead s.cache k

/-- R110–R112, R119: a chunk of `length` bytes that gives the pixel p `count` times is done: PX, OUT, o, the cache and
ptr as the rules say, and every other register as in `s`; ABS and the model's draw count are said apart, as INDEX may
change them. -/
def ChunkDone (s t : State) (p : Pixel) (count length : Nat) : Prop :=
  t.px = p ∧ OutGets s t s.o.toNat (List.replicate count (pixelBytes p)).flatten ∧
    t.o.toNat = s.o.toNat + 4 * count ∧ CacheGets s t p ∧ t.ptr = s.ptr + BitVec.ofNat 32 length ∧
    SameInputs s t ∧ SameResults s t ∧ t.jobState = s.jobState ∧ t.err = s.err ∧ t.phase = s.phase ∧ t.i = s.i ∧
    t.run = s.run ∧ t.turns = s.turns

/-- The number of pixels a chunk gives (R64, R72). -/
def pixelCount : Instr → Nat
  | .run count => count
  | .index _ | .diff _ _ _ | .luma _ _ _ | .rgb _ _ _ | .rgba _ _ _ _ => 1

/-- OUT has room for `k` more bytes (R49). -/
def Room (s : State) (k : Nat) : Prop := s.o.toNat + k ≤ s.cfg.outCap.toNat

/-- R158: an error of code `e` has ended a chunk step: the fields the rule names, and what it says is kept. PX is the
chunk's pixel by then, and ABS and o are said apart. -/
def Raised (e : ErrCode) (s t : State) : Prop :=
  t.jobState = .error ∧ t.err = e ∧ t.outLen = 0 ∧ t.pixCount = 0 ∧ SameInputs s t ∧ t.phase = s.phase ∧ t.i = s.i ∧
    t.run = s.run ∧ t.ptr = s.ptr ∧ t.cache = s.cache ∧ t.turns = s.turns

/-- A DECODE job is running with no host access listed, and its next step is a chunk step (R108). -/
def AtChunk (s : State) : Prop :=
  s.turns = [] ∧ s.jobState = .busy ∧ s.jobMode = .decode ∧ s.phase = .body ∧ s.ptr.toNat + 8 < s.len.toNat ∧
    s.len.toNat ≤ s.cfg.inCap.toNat

/-- An ENCODE job is running with no host access listed, and its next step is a pixel step (R127). -/
def AtPixel (s : State) : Prop :=
  s.turns = [] ∧ s.jobState = .busy ∧ s.jobMode = .encode ∧ s.phase = .body ∧ s.i.toNat < s.n.toNat

/-- R105, R132: pixel j of the raw pixels in IN, with `ch` channels. -/
def inputPixel (s : State) (ch : Byte) (j : Nat) : Pixel :=
  if ch = 3 then ⟨inByte s (3 * j), inByte s (3 * j + 1), inByte s (3 * j + 2), 255⟩
  else ⟨inByte s (4 * j), inByte s (4 * j + 1), inByte s (4 * j + 2), inByte s (4 * j + 3)⟩

/-- R132: the pixel at index i exists in IN, in a legal channel mode, and is `cur`. -/
def Fetched (s : State) (cur : Pixel) : Prop :=
  (s.ch = 3 ∨ s.ch = 4) ∧ (s.i.toNat + 1) * s.ch.toNat ≤ s.len.toNat ∧ s.len.toNat ≤ s.cfg.inCap.toNat ∧
    cur = inputPixel s s.ch s.i.toNat

/-- R133: the pixel step for `cur` is done and has appended `bytes`: OUT, o, PX and i as the rules say, and every other
register as in `s`; RUN and the cache are said apart. -/
def PixelDone (s t : State) (cur : Pixel) (bytes : List Byte) : Prop :=
  OutGets s t s.o.toNat bytes ∧ t.o.toNat = s.o.toNat + bytes.length ∧ t.px = cur ∧ t.i = s.i + 1 ∧
    SameInputs s t ∧ SameResults s t ∧ t.jobState = s.jobState ∧ t.err = s.err ∧ t.absIdx = s.absIdx ∧
    t.phase = s.phase ∧ t.ptr = s.ptr ∧ t.draws = s.draws ∧ t.turns = s.turns

/-- R49, R158, R159: the next step ends the job with ERR_OUT_OVERFLOW. -/
def Overflows (s : State) : Prop :=
  ∃ t, step s = .next t ∧ t.jobState = .error ∧ t.err = .outOverflow ∧ t.outLen = 0 ∧ t.pixCount = 0 ∧ SameInputs s t

/-- R137: the byte of a pending run, if there is one. -/
def pendingRun (s : State) : List Byte := if s.run = 0 then [] else packRun s.run.toNat

/-- The turn of a host that writes `v` to the CSR at offset `off`. -/
def hostWrites (s : State) (off : Nat) (v : Word) : Turn := .host (.csrWrite (s.cfg.csrBase + off) .word v)

/-- The turn of a host that reads the CSR at offset `off`. -/
def hostReads (s : State) (off : Nat) : Turn := .host (.csrRead (s.cfg.csrBase + off) .word)

/-- What a literal or delta chunk makes of the previous pixel (R113, R114, R116, R117); RUN keeps it (R118). INDEX does
not depend on it: what the slot holds is given. -/
def chunkPixel (i : Instr) (slot prev : Pixel) : Pixel :=
  match i with
  | .index _ => slot
  | .diff dR dG dB => applyDiff dR dG dB prev
  | .luma dG dRG dBG => applyLuma dG dRG dBG prev
  | .run _ => prev
  | .rgb r g b => applyRgb r g b prev
  | .rgba r g b a => applyRgba r g b a

/-- The meanings of a list of chunks, one after another. -/
def execAll : List Instr → State → Host.Outcome State Fault Refusal
  | [], s => .next s
  | i :: is, s =>
    match exec i s with
    | .next t => execAll is t
    | .fault f => .fault f
    | .refused r => .refused r

/-- R94: an encoder between pixel steps and a decoder that has decoded what it emitted: the same PX, and the same cache,
but that slot 53 may be valid in the decoder only. -/
structure Lockstep (e d : State) : Prop where
  px : d.px = e.px
  valid : ∀ k, (slotRead e.cache k).valid = true → slotRead d.cache k = slotRead e.cache k
  absent : ∀ k, k ≠ 53 → (slotRead e.cache k).valid = false → (slotRead d.cache k).valid = false

/-- The next turn is the core's. -/
def CoreTurn (s : State) : Prop := s.turns = [] ∨ ∃ rest, s.turns = .core :: rest

/-- R44, R172: every register and cache slot for which R44 states a power-on value holds it. -/
def PowerOn (t : State) : Prop :=
  t.jobState = .idle ∧ t.mode = .encode ∧ t.err = .none ∧ t.absIdx = false ∧ t.encWidth = 0 ∧ t.encHeight = 0 ∧
    t.encChannels = 0 ∧ t.inLen = 0 ∧ t.outLen = 0 ∧ t.pixCount = 0 ∧ t.hdrWidth = 0 ∧ t.hdrHeight = 0 ∧
    t.hdrChannels = 0 ∧ t.hdrColorspace = 0 ∧ ∀ k, slotRead t.cache k = ⟨false, t.cfg.cacheFill⟩

/-- The host's turn is a CTRL write of `v` with START = 1 while no job runs (R30). -/
def Starts (s : State) (v : Word) (ts : List Turn) : Prop :=
  s.jobState ≠ .busy ∧ v.getLsbD 0 = true ∧ s.turns = hostWrites s 0x00 v :: ts

/-- R30, R158: the start step of a START ends in ERROR with code `e`, in the MODE written, with ABS clear, no result, and the
host's registers, IN and the cache as they were. -/
def StartFails (e : ErrCode) (s : State) (m : Mode) : Prop :=
  ∃ t, step s = .next t ∧ t.jobState = .error ∧ t.err = e ∧ t.absIdx = false ∧ t.mode = m ∧ t.outLen = 0 ∧
    t.pixCount = 0 ∧ t.inLen = s.inLen ∧ t.encWidth = s.encWidth ∧ t.encHeight = s.encHeight ∧
    t.encChannels = s.encChannels ∧ t.inBuf = s.inBuf ∧ t.inEpoch = s.inEpoch ∧ t.cache = s.cache ∧ t.cfg = s.cfg ∧
    t.observed = false

/-- Two machines that differ only in OUT and in the result registers (R36–R40, R48). -/
def SameButResults (s t : State) : Prop :=
  ∃ m e ol pc hw hh hc hs,
    t = { s with outBuf := m, outEpoch := e, outLen := ol, pixCount := pc, hdrWidth := hw, hdrHeight := hh, hdrChannels := hc,
                 hdrColorspace := hs }

/-- Two machines that differ only in CACHE_FILL and in the data fields of absent slots (R148). -/
def SameButFill (s t : State) : Prop :=
  (∃ fill c, t = { s with cfg := { s.cfg with cacheFill := fill }, cache := c }) ∧
    ∀ k, (slotRead t.cache k).valid = (slotRead s.cache k).valid ∧
      ((slotRead s.cache k).valid = true → (slotRead t.cache k).px = (slotRead s.cache k).px)

/-- Two machines that differ only in IN, and hold the same bytes of it below `l` (R46). -/
def SameInputBelow (l : Word) (s t : State) : Prop :=
  (∃ m e, t = { s with inBuf := m, inEpoch := e }) ∧ ∀ a, a < l.toNat → inByte t a = inByte s a

end Sys2Proof.Machine
end

