-- ==== Sys2Proof/Certificates/Slice0/Obligations.lean ====
section
/-! DEFINITION. What is claimed of the model, from the numbered rules of spec/. Statements only; nothing is proved here. -/

open Sys2Proof
open Sys2Proof.Machine

/-! ### Encoding (30_encoding.md, 41_framing.md) -/

/-- R81 with R65–R75: every well-formed chunk is decoded back from its bytes, whatever follows them. -/
def Obligations.DecodeOfEncodeIsTheChunk : Prop :=
  ∀ (i : Instr) (rest : List Byte), i.wellFormed = true → decode (encode i ++ rest) = .chunk i rest

/-- R77, R80: whatever bytes are decoded to a chunk are exactly that chunk's bytes and the rest, and the chunk is
well-formed: each encoding has one meaning. -/
def Obligations.EncodeOfDecodeIsTheBytes : Prop :=
  ∀ (bs : List Byte) (i : Instr) (rest : List Byte), decode bs = .chunk i rest →
    i.wellFormed = true ∧ encode i ++ rest = bs

/-- R76: the opcode map by ranges of the tag byte. -/
def Obligations.TagRangesSelectTheType : Prop :=
  ∀ b : Byte,
    (b.toNat ≤ 0x3F → (classify b).1 = .index) ∧ (0x40 ≤ b.toNat ∧ b.toNat ≤ 0x7F → (classify b).1 = .diff) ∧
      (0x80 ≤ b.toNat ∧ b.toNat ≤ 0xBF → (classify b).1 = .luma) ∧
      (0xC0 ≤ b.toNat ∧ b.toNat ≤ 0xFD → (classify b).1 = .run) ∧ (b = 0xFE → (classify b).1 = .rgb) ∧
      (b = 0xFF → (classify b).1 = .rgba)

/-- R77, R80: every tag byte with as many operand bytes as its length asks for is a chunk of its type, and takes just
those bytes; with fewer it is rejected by name. No tag is illegal. -/
def Obligations.DecodingTakesTheLengthOfTheTag : Prop :=
  ∀ (tag : Byte) (ops : List Byte),
    ((classify tag).2 ≤ ops.length + 1 →
        ∃ i, decode (tag :: ops) = .chunk i (ops.drop ((classify tag).2 - 1)) ∧ i.chunkType = (classify tag).1 ∧
          (encode i).length = (classify tag).2) ∧
      (ops.length + 1 < (classify tag).2 → decode (tag :: ops) = .rejected (.operandsMissing (classify tag).1))

/-- R65–R75: words written out from the encodings decode to the chunks they stand for (bits as the opcode table numbers
them: the first byte lowest). -/
def Obligations.WrittenOutWordsDecode : Prop :=
  decodeTableWord 8 0b00_001001 = some (.index 9) ∧ decodeTableWord 8 0b01_11_10_10 = some (.diff 1 0 0) ∧
    decodeTableWord 8 0b01_00_11_01 = some (.diff (-2) 1 (-1)) ∧
    decodeTableWord 16 0b1000_0111_10_100010 = some (.luma 2 0 (-1)) ∧ decodeTableWord 8 0b11_111101 = some (.run 62) ∧
    decodeTableWord 32 0x1E140AFE = some (.rgb 0x0A 0x14 0x1E) ∧
    decodeTableWord 40 0x04030201FF = some (.rgba 1 2 3 4)

/-- R82: the assembler refuses exactly the lines with an operand outside its range, and otherwise gives the packed
bytes. -/
def Obligations.AssemblerRefusesOutOfRange : Prop :=
  (∀ dR dG dB : Int,
      assemble (.diff dR dG dB) =
        if (-2 ≤ dR ∧ dR ≤ 1) ∧ (-2 ≤ dG ∧ dG ≤ 1) ∧ (-2 ≤ dB ∧ dB ≤ 1) then some (packDiff dR dG dB) else none) ∧
    (∀ dG dRG dBG : Int,
      assemble (.luma dG dRG dBG) =
        if (-32 ≤ dG ∧ dG ≤ 31) ∧ (-8 ≤ dRG ∧ dRG ≤ 7) ∧ (-8 ≤ dBG ∧ dBG ≤ 7) then some (packLuma dG dRG dBG)
        else none) ∧
    (∀ count : Nat, assemble (.run count) = if 1 ≤ count ∧ count ≤ 62 then some (packRun count) else none) ∧
    (∀ idx, assemble (.index idx) = some (packIndex idx)) ∧ (∀ r g b, assemble (.rgb r g b) = some (packRgb r g b)) ∧
    ∀ r g b a, assemble (.rgba r g b a) = some (packRgba r g b a)

/-- R96, R97: four bytes as a big-endian number; a number as four big-endian bytes; and back. -/
def Obligations.ByteNumberCodecIsBigEndian : Prop :=
  (∀ b0 b1 b2 b3 : Byte,
      (bytesToUint32 b0 b1 b2 b3).toNat = b0.toNat * 2 ^ 24 + b1.toNat * 2 ^ 16 + b2.toNat * 2 ^ 8 + b3.toNat) ∧
    ∀ v : Word, ∃ b0 b1 b2 b3 : Byte, uint32ToBytes v = [b0, b1, b2, b3] ∧ b0 = v.extractLsb' 24 8 ∧
      b1 = v.extractLsb' 16 8 ∧ b2 = v.extractLsb' 8 8 ∧ b3 = v.extractLsb' 0 8 ∧ bytesToUint32 b0 b1 b2 b3 = v

/-! ### The pixel-history CAM (40_pixel_cache.md) -/

/-- R85: the hash, the bound of its exact sum, and the rule's examples. -/
def Obligations.HashIsTheModularSum : Prop :=
  (∀ p : Pixel,
      (pixelHash p).toNat = (p.r.toNat * 3 + p.g.toNat * 5 + p.b.toNat * 7 + p.a.toNat * 11) % 64 ∧
        p.r.toNat * 3 + p.g.toNat * 5 + p.b.toNat * 7 + p.a.toNat * 11 ≤ 6630) ∧
    pixelHash ⟨0, 0, 0, 255⟩ = 53 ∧ pixelHash ⟨10, 20, 30, 255⟩ = 9 ∧ pixelHash ⟨1, 0, 0, 255⟩ = 56 ∧ pixelHash ⟨0, 0, 0, 0⟩ = 0

/-- R87: a hit is a valid slot, the pixel's own, that holds the pixel; an absent slot never hits, whatever it holds. -/
def Obligations.HitNeedsValidAndEqual : Prop :=
  ∀ (c : Cache) (p : Pixel),
    (hit c p = true ↔ (slotRead c (pixelHash p)).valid = true ∧ (slotRead c (pixelHash p)).px = p) ∧
      ((slotRead c (pixelHash p)).valid = false → hit c p = false)

/-- R89: slot_write replaces slot hash(px), unconditionally, and writes nothing else. -/
def Obligations.SlotWriteReplacesOneSlot : Prop :=
  ∀ (p : Pixel) (s : State), CacheGets s (slotWrite p s) p ∧ ∃ c, slotWrite p s = { s with cache := c }

/-- R91: invalidate empties all 64 slots, fills them with CACHE_FILL, and nothing hits after it. -/
def Obligations.InvalidateEmptiesEverySlot : Prop :=
  ∀ s : State, (∀ k, slotRead (invalidate s).cache k = ⟨false, s.cfg.cacheFill⟩) ∧
    (∀ p, hit (invalidate s).cache p = false) ∧ ∃ c, invalidate s = { s with cache := c }

/-! ### Chunks (42_decoder.md R110–R119): results, completion and frame -/

/-- R113: RGBA: the bytes FF r g b a are the chunk; PX is its four channels; common tail, length 5. -/
def Obligations.RgbaChunkWritesItsFourChannels : Prop :=
  ∀ (r g b a : Byte) (s : State),
    (∀ rest, decode (0xFF :: r :: g :: b :: a :: rest) = .chunk (.rgba r g b a) rest) ∧
      (Room s 4 → ∃ t, exec (.rgba r g b a) s = .next t ∧ ChunkDone s t ⟨r, g, b, a⟩ 1 5 ∧ t.absIdx = s.absIdx ∧
        t.draws = s.draws) ∧
      (¬Room s 4 → ∃ t, exec (.rgba r g b a) s = .next t ∧ Raised .outOverflow s t ∧ t.absIdx = s.absIdx)

/-- R114: RGB: the bytes FE r g b are the chunk; PX is its three channels with the previous alpha; common tail, length 4. -/
def Obligations.RgbChunkKeepsAlpha : Prop :=
  ∀ (r g b : Byte) (s : State),
    (∀ rest, decode (0xFE :: r :: g :: b :: rest) = .chunk (.rgb r g b) rest) ∧
      (Room s 4 → ∃ t, exec (.rgb r g b) s = .next t ∧ ChunkDone s t ⟨r, g, b, s.px.a⟩ 1 4 ∧ t.absIdx = s.absIdx ∧
        t.draws = s.draws) ∧
      (¬Room s 4 → ∃ t, exec (.rgb r g b) s = .next t ∧ Raised .outOverflow s t ∧ t.absIdx = s.absIdx)

/-- R115, the valid slot: a tag with top bits 00 is INDEX of its low six bits; PX is an exact copy of the slot's pixel, and
no flag is set; common tail, length 1. -/
def Obligations.IndexChunkCopiesAValidSlot : Prop :=
  (∀ (tag : Byte) (rest : List Byte), tag.extractLsb' 6 2 = 0b00 →
      decode (tag :: rest) = .chunk (.index (tag.extractLsb' 0 6)) rest) ∧
    ∀ (idx : BitVec 6) (s : State), (slotRead s.cache idx).valid = true →
      (Room s 4 → ∃ t, exec (.index idx) s = .next t ∧ ChunkDone s t (slotRead s.cache idx).px 1 1 ∧
          t.absIdx = s.absIdx ∧ t.draws = s.draws) ∧
        (¬Room s 4 → ∃ t, exec (.index idx) s = .next t ∧ Raised .outOverflow s t ∧ t.absIdx = s.absIdx)

/-- R115, the absent slot: ABS is set, the job goes on, and some pixel, which nothing here constrains, goes to OUT, PX
and its own slot. -/
def Obligations.IndexChunkOfAnAbsentSlotSetsAbs : Prop :=
  ∀ (idx : BitVec 6) (s : State), (slotRead s.cache idx).valid = false →
    (Room s 4 → ∃ t p, exec (.index idx) s = .next t ∧ ChunkDone s t p 1 1 ∧ t.absIdx = true) ∧
      (¬Room s 4 → ∃ t, exec (.index idx) s = .next t ∧ Raised .outOverflow s t ∧ t.absIdx = true)

/-- R116: DIFF: a tag with top bits 01 holds the three deltas, biased by 2; each colour channel moves by its delta mod 256,
alpha stays; common tail, length 1. -/
def Obligations.DiffChunkAddsItsDeltas : Prop :=
  (∀ (tag : Byte) (rest : List Byte), tag.extractLsb' 6 2 = 0b01 →
      decode (tag :: rest) =
        .chunk (.diff ((tag.extractLsb' 4 2).toNat - 2) ((tag.extractLsb' 2 2).toNat - 2)
          ((tag.extractLsb' 0 2).toNat - 2)) rest) ∧
    ∀ (dR dG dB : Int) (s : State),
      (Room s 4 → ∃ t p, exec (.diff dR dG dB) s = .next t ∧ ChunkDone s t p 1 1 ∧ t.absIdx = s.absIdx ∧
          t.draws = s.draws ∧ (p.r.toNat : Int) = (s.px.r.toNat + dR) % 256 ∧
          (p.g.toNat : Int) = (s.px.g.toNat + dG) % 256 ∧ (p.b.toNat : Int) = (s.px.b.toNat + dB) % 256 ∧
          p.a = s.px.a) ∧
        (¬Room s 4 → ∃ t, exec (.diff dR dG dB) s = .next t ∧ Raised .outOverflow s t ∧ t.absIdx = s.absIdx)

/-- R117: LUMA: a tag with top bits 10 and a second byte hold the three deltas, biased by 32, 8 and 8; green moves by its
delta, red and blue by the green delta plus their own, mod 256; alpha stays; common tail, length 2. -/
def Obligations.LumaChunkAddsItsDeltas : Prop :=
  (∀ (tag b2 : Byte) (rest : List Byte), tag.extractLsb' 6 2 = 0b10 →
      decode (tag :: b2 :: rest) =
        .chunk (.luma ((tag.extractLsb' 0 6).toNat - 32) ((b2.extractLsb' 4 4).toNat - 8)
          ((b2.extractLsb' 0 4).toNat - 8)) rest) ∧
    ∀ (dG dRG dBG : Int) (s : State),
      (Room s 4 → ∃ t p, exec (.luma dG dRG dBG) s = .next t ∧ ChunkDone s t p 1 2 ∧ t.absIdx = s.absIdx ∧
          t.draws = s.draws ∧ (p.r.toNat : Int) = (s.px.r.toNat + dG + dRG) % 256 ∧
          (p.g.toNat : Int) = (s.px.g.toNat + dG) % 256 ∧ (p.b.toNat : Int) = (s.px.b.toNat + dG + dBG) % 256 ∧
          p.a = s.px.a) ∧
        (¬Room s 4 → ∃ t, exec (.luma dG dRG dBG) s = .next t ∧ Raised .outOverflow s t ∧ t.absIdx = s.absIdx)

/-- R118: RUN: a tag with top bits 11, other than FE and FF, holds the count less 1; PX stays, count copies of it go to OUT,
and its slot is written once; length 1. -/
def Obligations.RunChunkRepeatsThePixel : Prop :=
  (∀ (tag : Byte) (rest : List Byte), tag.extractLsb' 6 2 = 0b11 → tag ≠ 0xFE → tag ≠ 0xFF →
      decode (tag :: rest) = .chunk (.run ((tag.extractLsb' 0 6).toNat + 1)) rest) ∧
    ∀ (count : Nat) (s : State), 1 ≤ count ∧ count ≤ 62 →
      (Room s (4 * count) → ∃ t, exec (.run count) s = .next t ∧ ChunkDone s t s.px count 1 ∧ t.absIdx = s.absIdx ∧
          t.draws = s.draws) ∧
        (¬Room s (4 * count) → ∃ t, exec (.run count) s = .next t ∧ Raised .outOverflow s t ∧ t.absIdx = s.absIdx)

/-- R110, R125: the frame of every chunk, whatever it ends in: the parameters, the host's registers, the latched
parameters, IN, RUN, i, PHASE and every slot but that of the new PX are unchanged; and where OUT has room, so are
STATE, ERR, the result registers and every byte of OUT outside the count × 4 bytes at o. ABS and the model's draw
count move only for an INDEX of an absent slot. -/
def Obligations.ChunkFrame : Prop :=
  ∀ (i : Instr) (s t : State), i.wellFormed = true → exec i s = .next t →
    SameInputs s t ∧ t.run = s.run ∧ t.i = s.i ∧ t.phase = s.phase ∧ t.turns = s.turns ∧
      (∀ k, k ≠ pixelHash t.px → slotRead t.cache k = slotRead s.cache k) ∧
      (t.absIdx ≠ s.absIdx → ∃ idx, i = .index idx ∧ (slotRead s.cache idx).valid = false) ∧
      (Room s (4 * pixelCount i) →
        SameResults s t ∧ t.jobState = s.jobState ∧ t.err = s.err ∧
          (t.draws ≠ s.draws → ∃ idx, i = .index idx ∧ (slotRead s.cache idx).valid = false) ∧
          ∀ a, a < s.o.toNat ∨ s.o.toNat + 4 * pixelCount i ≤ a → OutKeeps s t a)

/-! ### A DECODE job (42_decoder.md) -/

/-- R110, R119, R120: a step at a chunk boundary is the meaning of the chunk that the bytes of IN at ptr decode to, its
operands taken wherever they lie below L; the same when the core's turn is written out. -/
def Obligations.StepRunsTheChunkAtPtr : Prop :=
  ∀ (s : State) (i : Instr) (rest : List Byte), AtChunk s → decode (inBytes s s.ptr.toNat 5) = .chunk i rest →
    step s = exec i s ∧ ∀ ts, step { s with turns := .core :: ts } = exec i { s with turns := ts }

/-- R77, R110, R160: at every chunk boundary the bytes of IN at ptr are some well-formed chunk, and the step is its
meaning: there is no tag the recognizer turns away. -/
def Obligations.EveryTagIsRunAsAChunk : Prop :=
  ∀ s : State, AtChunk s →
    ∃ i rest, i.wellFormed = true ∧ decode (inBytes s s.ptr.toNat 5) = .chunk i rest ∧ step s = exec i s ∧
      i.chunkType = (classify (inByte s s.ptr.toNat)).1

/-- R124, R108: at ptr ≥ L − 8 the job finishes: OUT_LEN, PIX_COUNT and STATE as the rule says, all else as it is. -/
def Obligations.DecodeFinishPublishesTheResult : Prop :=
  ∀ s : State, s.turns = [] → s.jobState = .busy → s.jobMode = .decode → s.phase = .body →
    s.len.toNat ≤ s.ptr.toNat + 8 →
    ∃ q : Word, q.toNat = s.o.toNat / 4 ∧
      step s = .next { s with outLen := s.o, pixCount := q, jobState := .done }

/-- R106: a CTRL write with START = 1 and MODE = 1 while not BUSY, over a stream of legal length with the magic, starts a
DECODE job: every piece of state of the rule, and nothing of the other direction's (R125). -/
def Obligations.DecodeStartInitializesTheJob : Prop :=
  ∀ (s : State) (v : Word) (ts : List Turn), s.jobState ≠ .busy → v.getLsbD 0 = true → v.getLsbD 1 = true →
    s.turns = hostWrites s 0x00 v :: ts → 22 ≤ s.inLen.toNat → s.inLen.toNat ≤ s.cfg.inCap.toNat →
    inBytes s 0 4 = [0x71, 0x6F, 0x69, 0x66] →
    ∃ t, step s = .next t ∧ t.jobState = .busy ∧ t.err = .none ∧ t.absIdx = false ∧ t.mode = .decode ∧
      t.jobMode = .decode ∧ t.len = s.inLen ∧ t.px = ⟨0, 0, 0, 255⟩ ∧ t.ptr = 14 ∧ t.o = 0 ∧ t.phase = .body ∧
      (∀ k, slotRead t.cache k = ⟨false, s.cfg.cacheFill⟩) ∧
      t.hdrWidth = bytesToUint32 (inByte s 4) (inByte s 5) (inByte s 6) (inByte s 7) ∧
      t.hdrHeight = bytesToUint32 (inByte s 8) (inByte s 9) (inByte s 10) (inByte s 11) ∧
      t.hdrChannels = inByte s 12 ∧ t.hdrColorspace = inByte s 13 ∧ t.outLen = s.outLen ∧ t.pixCount = s.pixCount ∧
      t.run = s.run ∧ t.i = s.i ∧ t.n = s.n ∧ t.wid = s.wid ∧ t.hgt = s.hgt ∧ t.ch = s.ch ∧ t.inBuf = s.inBuf ∧
      t.inEpoch = s.inEpoch ∧ t.outBuf = s.outBuf ∧ t.outEpoch = s.outEpoch ∧ t.cfg = s.cfg ∧ t.turns = ts

/-- R107, R154–R157: what a DECODE start reports when it fails: ERR_PARAM before ERR_TRUNCATED before ERR_BAD_MAGIC; and what
the host then finds: ABS cleared before any check (R106) and kept by the error (R158), MODE as written (R30). -/
def Obligations.DecodeStartErrorsInPriority : Prop :=
  ∀ (s : State) (v : Word) (ts : List Turn), Starts s v ts → v.getLsbD 1 = true →
    (s.cfg.inCap.toNat < s.inLen.toNat → StartFails .param s .decode) ∧
      (s.inLen.toNat ≤ s.cfg.inCap.toNat → s.inLen.toNat < 22 → StartFails .truncated s .decode) ∧
      (s.inLen.toNat ≤ s.cfg.inCap.toNat → 22 ≤ s.inLen.toNat → inBytes s 0 4 ≠ [0x71, 0x6F, 0x69, 0x66] →
        StartFails .badMagic s .decode)

/-- R123: a DECODE job ends: from ptr it takes at most L − 8 − ptr chunk steps and the finish step (from the start, at
most L − 22 chunk steps), and ends in DONE, or in ERROR by an output overflow only (R122). -/
def Obligations.DecodeJobEnds : Prop :=
  ∀ s : State, s.Inv → s.turns = [] → s.jobState = .busy → s.jobMode = .decode →
    ∃ k t, k ≤ s.len.toNat - 8 - s.ptr.toNat + 1 ∧ Host.Core.run Sys2Proof.core k s = .next t ∧
      (t.jobState = .done ∨ (t.jobState = .error ∧ t.err = .outOverflow))

/-! ### An ENCODE job (43_encoder.md) -/

/-- R126: a CTRL write with START = 1 and MODE = 0 while not BUSY, with parameters that pass R130, starts an ENCODE job:
every piece of state of the rule. -/
def Obligations.EncodeStartInitializesTheJob : Prop :=
  ∀ (s : State) (v : Word) (ts : List Turn), s.jobState ≠ .busy → v.getLsbD 0 = true → v.getLsbD 1 = false →
    s.turns = hostWrites s 0x00 v :: ts → s.inLen.toNat ≤ s.cfg.inCap.toNat →
    s.encChannels = 3 ∨ s.encChannels = 4 → s.inLen.toNat % s.encChannels.toNat = 0 →
    ∃ t, step s = .next t ∧ t.jobState = .busy ∧ t.err = .none ∧ t.absIdx = false ∧ t.mode = .encode ∧
      t.jobMode = .encode ∧ t.len = s.inLen ∧ t.wid = s.encWidth ∧ t.hgt = s.encHeight ∧ t.ch = s.encChannels ∧
      t.n.toNat = s.inLen.toNat / s.encChannels.toNat ∧ (∀ k, slotRead t.cache k = ⟨false, s.cfg.cacheFill⟩) ∧
      t.px = ⟨0, 0, 0, 255⟩ ∧ t.run = 0 ∧ t.i = 0 ∧ t.o = 0 ∧ t.phase = .hdr ∧ t.ptr = s.ptr ∧
      t.outLen = s.outLen ∧ t.pixCount = s.pixCount ∧ t.inBuf = s.inBuf ∧ t.inEpoch = s.inEpoch ∧
      t.outBuf = s.outBuf ∧ t.outEpoch = s.outEpoch ∧ t.cfg = s.cfg ∧ t.turns = ts

/-- R130: an ENCODE start whose parameters fail a check raises ERR_PARAM; width × height is not among the checks. What the
host then finds: ABS cleared before any check (R126) and kept by the error (R158), MODE as written (R30). -/
def Obligations.EncodeStartRefusesBadParameters : Prop :=
  ∀ (s : State) (v : Word) (ts : List Turn), Starts s v ts → v.getLsbD 1 = false →
    s.cfg.inCap.toNat < s.inLen.toNat ∨ (s.encChannels ≠ 3 ∧ s.encChannels ≠ 4) ∨
      s.inLen.toNat % s.encChannels.toNat ≠ 0 →
    StartFails .param s .encode

/-- R98, R131: the HDR step writes the 14 header bytes, width and height big-endian and colorspace 0, leaves o = 14 and
goes to BODY; nothing else changes. With OUT_CAP < 14 it raises ERR_OUT_OVERFLOW. -/
def Obligations.HeaderStepWritesFourteenBytes : Prop :=
  ∀ s : State, s.turns = [] → s.jobState = .busy → s.jobMode = .encode → s.phase = .hdr → s.o = 0 →
    (14 ≤ s.cfg.outCap.toNat →
      ∃ t m, step s = .next t ∧ t = { s with outBuf := m, o := 14, phase := .body } ∧
        OutGets s t 0
          ([0x71, 0x6F, 0x69, 0x66] ++
            [s.wid.extractLsb' 24 8, s.wid.extractLsb' 16 8, s.wid.extractLsb' 8 8, s.wid.extractLsb' 0 8] ++
            [s.hgt.extractLsb' 24 8, s.hgt.extractLsb' 16 8, s.hgt.extractLsb' 8 8, s.hgt.extractLsb' 0 8] ++
            [s.ch, 0])) ∧
      (s.cfg.outCap.toNat < 14 → Overflows s)

/-- R134: a pixel equal to PX, not the last and with RUN + 1 below 62, is only counted: no chunk and no cache access. -/
def Obligations.RepeatedPixelIsOnlyCounted : Prop :=
  ∀ (s : State) (cur : Pixel), AtPixel s → Fetched s cur → cur = s.px → s.run.toNat < 61 →
    s.i.toNat + 1 ≠ s.n.toNat → step s = .next { s with run := s.run + 1, i := s.i + 1 }

/-- R136, R146: at the 62nd repeat, or at the last pixel, the run is flushed: one RUN byte, and RUN is 0. -/
def Obligations.RunIsFlushedAtTheCapOrTheEnd : Prop :=
  ∀ (s : State) (cur : Pixel), AtPixel s → Fetched s cur → cur = s.px → s.run.toNat ≤ 61 →
    s.run.toNat = 61 ∨ s.i.toNat + 1 = s.n.toNat →
    (Room s 1 →
      ∃ t, step s = .next t ∧ PixelDone s t cur [BitVec.ofNat 8 (0xC0 + s.run.toNat)] ∧ t.run = 0 ∧
        t.cache = s.cache) ∧
      (¬Room s 1 → Overflows s)

/-- R137, R138, R141: a pixel that differs from PX and hits: the pending run's byte first, then INDEX; the cache is not
written. -/
def Obligations.CachedPixelIsEmittedAsIndex : Prop :=
  ∀ (s : State) (cur : Pixel), AtPixel s → Fetched s cur → cur ≠ s.px → hit s.cache cur = true →
    (Room s ((pendingRun s).length + 1) →
      ∃ t, step s = .next t ∧ PixelDone s t cur (pendingRun s ++ [(pixelHash cur).setWidth 8]) ∧ t.run = 0 ∧
        t.cache = s.cache) ∧
      (¬Room s ((pendingRun s).length + 1) → Overflows s)

/-- R137, R138, R140, R142–R145: a pixel that differs from PX and misses: the pending run's byte first, then the selected
chunk; the pixel's slot is written. -/
def Obligations.MissedPixelIsCachedAndEncoded : Prop :=
  ∀ (s : State) (cur : Pixel), AtPixel s → Fetched s cur → cur ≠ s.px → hit s.cache cur = false →
    (Room s ((pendingRun s).length + (encode (selectChunk cur s.px)).length) →
      ∃ t, step s = .next t ∧ PixelDone s t cur (pendingRun s ++ encode (selectChunk cur s.px)) ∧ t.run = 0 ∧
        CacheGets s t cur) ∧
      (¬Room s ((pendingRun s).length + (encode (selectChunk cur s.px)).length) → Overflows s)

/-- R139, R140: the selection, in strict priority order, by the channel differences mod 256 read as signed numbers. -/
def Obligations.SelectionFollowsThePriorityOrder : Prop :=
  ∀ (cur prev : Pixel) (dR dG dB dA : Int),
    (∀ d ∈ [dR, dG, dB, dA], -128 ≤ d ∧ d ≤ 127) →
    ((cur.r.toNat : Int) - prev.r.toNat - dR) % 256 = 0 → ((cur.g.toNat : Int) - prev.g.toNat - dG) % 256 = 0 →
    ((cur.b.toNat : Int) - prev.b.toNat - dB) % 256 = 0 → ((cur.a.toNat : Int) - prev.a.toNat - dA) % 256 = 0 →
    selectChunk cur prev =
      if dA = 0 ∧ (-2 ≤ dR ∧ dR ≤ 1) ∧ (-2 ≤ dG ∧ dG ≤ 1) ∧ (-2 ≤ dB ∧ dB ≤ 1) then .diff dR dG dB
      else if dA = 0 ∧ (-32 ≤ dG ∧ dG ≤ 31) ∧ (-8 ≤ dR - dG ∧ dR - dG ≤ 7) ∧ (-8 ≤ dB - dG ∧ dB - dG ≤ 7) then
        .luma dG (dR - dG) (dB - dG)
      else if dA = 0 then .rgb cur.r cur.g cur.b
      else .rgba cur.r cur.g cur.b cur.a

/-- R138, R140, R148, R149: the selected chunk is well-formed and, decoded after the previous pixel, gives the current one;
and it is "the smallest applicable encoding": no DIFF, LUMA, RGB or RGBA chunk that gives the current pixel after the
previous one is shorter. -/
def Obligations.SelectedChunkRebuildsThePixelAndIsTheShortest : Prop :=
  ∀ cur prev slot : Pixel,
    (selectChunk cur prev).wellFormed = true ∧ chunkPixel (selectChunk cur prev) slot prev = cur ∧
      ∀ i : Instr, i.wellFormed = true → i.chunkType ≠ .index → i.chunkType ≠ .run → chunkPixel i slot prev = cur →
        (encode (selectChunk cur prev)).length ≤ (encode i).length

/-- R147: in RGB mode RGBA is never selected. -/
def Obligations.RgbModeNeverSelectsRgba : Prop :=
  ∀ (s : State) (cur : Pixel), s.Inv → AtPixel s → s.ch = 3 → Fetched s cur →
    ∀ r g b a, selectChunk cur s.px ≠ .rgba r g b a

/-- R103, R151: at i = N the end marker is written and the result published: OUT_LEN, PIX_COUNT, HDR_*, DONE. PHASE is
TRAIL afterwards (the model's reading of R18, log 10). Without room for the 8 bytes it raises ERR_OUT_OVERFLOW. -/
def Obligations.TrailStepPublishesTheStream : Prop :=
  ∀ s : State, s.turns = [] → s.jobState = .busy → s.jobMode = .encode → s.phase = .body → s.i = s.n →
    (Room s 8 →
      ∃ t m, step s = .next t ∧
        t = { s with outBuf := m, o := s.o + 8, phase := .trail, outLen := s.o + 8, pixCount := s.n, hdrWidth := s.wid,
                     hdrHeight := s.hgt, hdrChannels := s.ch, hdrColorspace := 0, jobState := .done } ∧
        OutGets s t s.o.toNat [0, 0, 0, 0, 0, 0, 0, 1]) ∧
      (¬Room s 8 → Overflows s)

/-- R152: an ENCODE job takes exactly N + 2 steps after its start, is BUSY before the last, and ends in DONE with between
22 and 22 + 5N bytes, at least 23 where there is a pixel; OUT_CAP being large enough (R159). -/
def Obligations.EncodeJobTakesNPlusTwoSteps : Prop :=
  ∀ s : State, s.Inv → s.turns = [] → s.jobState = .busy → s.jobMode = .encode → s.phase = .hdr →
    22 + 5 * s.n.toNat ≤ s.cfg.outCap.toNat →
    (∀ k, k < s.n.toNat + 2 → ∃ u, Host.Core.run Sys2Proof.core k s = .next u ∧ u.jobState = .busy) ∧
      ∃ t, Host.Core.run Sys2Proof.core (s.n.toNat + 2) s = .next t ∧ t.jobState = .done ∧ t.pixCount = s.n ∧
        22 ≤ t.outLen.toNat ∧ t.outLen.toNat ≤ 22 + 5 * s.n.toNat ∧ (1 ≤ s.n.toNat → 23 ≤ t.outLen.toNat)

/-- R148: what a step of an ENCODE job does, its start step included, and the bytes it writes, do not depend on
CACHE_FILL. -/
def Obligations.EncoderIgnoresCacheFill : Prop :=
  ∀ s t s' : State, SameButFill s t →
    (s.jobState = .busy → s.jobMode = .encode → coreStep s = .next s' → ∃ t', coreStep t = .next t' ∧ SameButFill s' t') ∧
      ∀ v ts, Starts s v ts → v.getLsbD 1 = false → step s = .next s' → ∃ t', step t = .next t' ∧ SameButFill s' t'

/-! ### Encoder and decoder together -/

/-- R94, R148, R149: one pixel step of the encoder, mirrored by a decoder in lockstep: the bytes emitted are a list of
well-formed chunks; their meanings take the decoder to lockstep with the encoder's next state, set no flag, and append
the encoder's pending copies of the old pixel and then the new one, all but the copies still pending. -/
def Obligations.DecoderMirrorsThePixelStep : Prop :=
  ∀ (e d e' : State) (cur : Pixel), e.Inv → AtPixel e → Fetched e cur → Lockstep e d →
    step e = .next e' → e'.jobState = .busy → Room d (4 * (e.run.toNat + 1)) →
    ∃ (is : List Instr) (d' : State),
      (∀ i ∈ is, i.wellFormed = true) ∧ PixelDone e e' cur (is.flatMap encode) ∧ execAll is d = .next d' ∧
        Lockstep e' d' ∧ d'.absIdx = d.absIdx ∧ d'.jobState = d.jobState ∧
        OutGets d d' d.o.toNat
          (((List.replicate e.run.toNat e.px ++ [cur]).take (e.run.toNat + 1 - e'.run.toNat)).flatMap pixelBytes)

/-- R149 (with R147): the round trip. An ENCODE job that reaches DONE, and a DECODE job, on any machine with room, over
the bytes it left in OUT: the DECODE job reaches DONE with ABSENT_IDX = 0, and its OUT is the pixels of the ENCODE job's
IN, alpha 255 in RGB mode. -/
def Obligations.DecodeOfEncodeIsTheImage : Prop :=
  ∀ (s t u : State) (k : Nat) (v w : Word),
    s.jobState ≠ .busy → v.getLsbD 0 = true → v.getLsbD 1 = false → s.turns = [hostWrites s 0x00 v] →
    Host.Core.run Sys2Proof.core (k + 1) s = .next t → t.jobState = .done →
    u.jobState ≠ .busy → w.getLsbD 0 = true → w.getLsbD 1 = true → u.turns = [hostWrites u 0x00 w] →
    u.inLen = t.outLen → u.inLen.toNat ≤ u.cfg.inCap.toNat → 4 * t.pixCount.toNat ≤ u.cfg.outCap.toNat →
    (∀ a, a < t.outLen.toNat → t.outBuf.byteAt a = some (inByte u a)) →
    ∃ m x, Host.Core.run Sys2Proof.core m u = .next x ∧ x.jobState = .done ∧ x.absIdx = false ∧
      x.pixCount = t.pixCount ∧ x.outLen.toNat = 4 * t.pixCount.toNat ∧
      ∀ j, j < t.pixCount.toNat →
        x.outBuf.byteAt (4 * j) = some (inputPixel s s.encChannels j).r ∧
          x.outBuf.byteAt (4 * j + 1) = some (inputPixel s s.encChannels j).g ∧
          x.outBuf.byteAt (4 * j + 2) = some (inputPixel s s.encChannels j).b ∧
          x.outBuf.byteAt (4 * j + 3) = some (inputPixel s s.encChannels j).a

/-! ### Errors (60_exceptions.md) -/

/-- R158: what raising an error writes and what it keeps; and no step of the job follows it (R163). HDR_* and OUT are
unspecified after it and nothing is said of them. -/
def Obligations.RaiseEndsTheJob : Prop :=
  ∀ (e : ErrCode) (s : State),
    (raise e s).jobState = .error ∧ (raise e s).err = e ∧ (raise e s).outLen = 0 ∧ (raise e s).pixCount = 0 ∧
      (raise e s).absIdx = s.absIdx ∧ (raise e s).cache = s.cache ∧ (raise e s).px = s.px ∧
      (raise e s).run = s.run ∧ (raise e s).ptr = s.ptr ∧ (raise e s).i = s.i ∧ (raise e s).o = s.o ∧
      SameInputs s (raise e s) ∧ coreStep (raise e s) = .next (raise e s)

/-- R157, R158, R160: a step that ends a job in ERROR leaves a code of a real error, never ERR_INVALID_TAG, zeroes OUT_LEN
and PIX_COUNT and leaves IN as it was; a step of the core reports only ERR_OUT_OVERFLOW and keeps every input. -/
def Obligations.EveryErrorEntryReportsACode : Prop :=
  ∀ s t : State, s.jobState ≠ .error → step s = .next t → t.jobState = .error →
    t.err ≠ .none ∧ t.err ≠ .invalidTag ∧ t.outLen = 0 ∧ t.pixCount = 0 ∧ t.inBuf = s.inBuf ∧ t.inEpoch = s.inEpoch ∧
      t.cfg = s.cfg ∧ (CoreTurn s → t.err = .outOverflow ∧ SameInputs s t)

/-! ### The host (10_state.md, 20_memory.md, 70_reset_and_hazards.md) -/

/-- R29, R41, R165, R182: which CSR writes are ignored: every one while BUSY, START included; and whatever STATE is, those
to the read-only registers and to unmapped offsets. -/
def Obligations.IgnoredCsrWrites : Prop :=
  ∀ (s : State) (off : Nat) (v : Word) (ts : List Turn), off % 4 = 0 → s.turns = hostWrites s off v :: ts →
    s.jobState = .busy ∨ off = 0x04 ∨ 0x18 ≤ off → step s = .next { s with turns := ts }

/-- R30, R32–R35: while not BUSY a write to ENC_WIDTH, ENC_HEIGHT, ENC_CHANNELS or IN_LEN stores the field, and a write to
CTRL without START stores MODE; nothing else changes. -/
def Obligations.ParameterRegistersHoldWrites : Prop :=
  ∀ (s : State) (v : Word) (ts : List Turn), s.jobState ≠ .busy →
    (s.turns = hostWrites s 0x08 v :: ts → step s = .next { s with turns := ts, encWidth := v }) ∧
      (s.turns = hostWrites s 0x0C v :: ts → step s = .next { s with turns := ts, encHeight := v }) ∧
      (s.turns = hostWrites s 0x10 v :: ts →
        step s = .next { s with turns := ts, encChannels := v.extractLsb' 0 8 }) ∧
      (s.turns = hostWrites s 0x14 v :: ts → step s = .next { s with turns := ts, inLen := v }) ∧
      (s.turns = hostWrites s 0x00 v :: ts → v.getLsbD 0 = false →
        step s = .next { s with turns := ts, mode := if v.getLsbD 1 then .decode else .encode })

/-- R31: a STATUS read gives STATE in [1:0], ABSENT_IDX in [2], ERR in [7:4], and 0 in every other bit. -/
def Obligations.StatusReadShowsItsFields : Prop :=
  ∀ (s : State) (ts : List Turn), s.turns = hostReads s 0x04 :: ts →
    ∃ (t : State) (v : Word), step s = .next t ∧ t.response = some (.csr (s.cfg.csrBase + 0x04) v) ∧
      v.extractLsb' 0 2 = s.jobState.code ∧ v.getLsbD 2 = s.absIdx ∧ v.getLsbD 3 = false ∧
      v.extractLsb' 4 4 = s.err.code ∧ v.extractLsb' 8 24 = 0

/-- R29, R30, R32–R41: a read of any CSR is permitted, in every STATE, and has no side effect: only the model's own record
of it changes (R58's observation by a STATUS read alone). CTRL, ENC_WIDTH, ENC_HEIGHT, ENC_CHANNELS, IN_LEN and unmapped
offsets return the register in every STATE; OUT_LEN, HDR_* and PIX_COUNT while no job runs and its end has been
observed. Reserved fields and unmapped offsets give 0. At ERROR, R37–R39 and U4 leave HDR_* unspecified: that a read there
returns the held field (the free value drawn at the raise) is the model's choice, log 6; so is the reading of HDR_INFO's
reserved half as 0 while BUSY. -/
def Obligations.CsrReadReturnsTheRegister : Prop :=
  ∀ (s : State) (off : Nat) (ts : List Turn), off % 4 = 0 → s.turns = hostReads s off :: ts →
    ∃ (v : Word) (ob : Bool),
      step s =
        .next { s with turns := ts, response := some (.csr (s.cfg.csrBase + off) v), draws := s.draws + 1,
                       observed := ob } ∧
      (off ≠ 0x04 → ob = s.observed) ∧ (off = 0x00 → v.toNat = if s.mode = .decode then 2 else 0) ∧
      (off = 0x08 → v = s.encWidth) ∧ (off = 0x0C → v = s.encHeight) ∧
      (off = 0x10 → v.toNat = s.encChannels.toNat) ∧ (off = 0x14 → v = s.inLen) ∧ (0x2C ≤ off → v = 0) ∧
      (off = 0x24 → v.toNat < 2 ^ 16) ∧
      (s.jobState ≠ .busy → s.observed = true →
        (off = 0x18 → v = s.outLen) ∧ (off = 0x1C → v = s.hdrWidth) ∧ (off = 0x20 → v = s.hdrHeight) ∧
          (off = 0x24 → v.toNat = s.hdrColorspace.toNat * 256 + s.hdrChannels.toNat) ∧
          (off = 0x28 → v = s.pixCount))

/-- R54: a CSR access that is not a naturally aligned 32-bit word is refused, read or write. -/
def Obligations.NarrowOrMisalignedCsrAccessIsRefused : Prop :=
  ∀ (s : State) (off : Nat) (width : AccessWidth) (v : Word) (ts : List Turn), width ≠ .word ∨ off % 4 ≠ 0 →
    (s.turns = .host (.csrWrite (s.cfg.csrBase + off) width v) :: ts →
        step s = .refused .csrAccessNotAlignedWord) ∧
      (s.turns = .host (.csrRead (s.cfg.csrBase + off) width) :: ts → step s = .refused .csrAccessNotAlignedWord)

/-- R57, R60: the host's writes to the buffers: refused while BUSY below L (IN) and anywhere in OUT, and otherwise one
byte of that buffer is replaced and no other; a byte of IN so written is what the core reads, and a byte of OUT is the one
written once the end of the last job has been observed (R58). The model counts a draw at a write to OUT (log 7). -/
def Obligations.HostBufferWrites : Prop :=
  ∀ (s : State) (off : Nat) (b : Byte) (ts : List Turn),
    (s.turns = .host (.inWrite off b) :: ts → off < s.cfg.inCap.toNat →
        (s.jobState = .busy → off < s.len.toNat → step s = .refused .hostWroteInWhileBusy) ∧
          (s.jobState ≠ .busy ∨ s.len.toNat ≤ off →
            ∃ t m, step s = .next t ∧ t = { s with turns := ts, inBuf := m } ∧
              ∀ a, inByte t a = if a = off then b else inByte s a)) ∧
      (s.turns = .host (.outWrite off b) :: ts → off < s.cfg.outCap.toNat →
        (s.jobState = .busy → step s = .refused .hostWroteOutWhileBusy) ∧
          (s.jobState ≠ .busy →
            ∃ t m x, step s = .next t ∧ t = { s with turns := ts, outBuf := m, draws := s.draws + 1 } ∧
              (∀ a, t.outBuf.byteAt a = if a = off then some x else s.outBuf.byteAt a) ∧
              (s.observed = true → x = b)))

/-- R36, R48, R58: at DONE every byte of OUT below OUT_LEN is there, and once the host has read STATUS as DONE a read of any
byte of OUT, below OUT_LEN or not, returns the byte OUT holds, which the read leaves as it is. That a byte no one has
written reads the same each time is R48 and the model's form of it (log 5). -/
def Obligations.ResultBytesAreReadAtDone : Prop :=
  ∀ (s : State) (off : Nat) (ts : List Turn), s.Inv → s.jobState = .done →
    (off < s.outLen.toNat → s.outBuf.byteAt off = some (outByte s off)) ∧
      (off < s.cfg.outCap.toNat →
        (s.observed = true → s.turns = .host (.outRead off) :: ts →
          ∃ t, step s = .next t ∧ t.response = some (.out off (outByte s off)) ∧ ∀ a, OutKeeps s t a) ∧
          (s.turns = hostReads s 0x04 :: .host (.outRead off) :: ts →
            ∃ t, Host.Core.run Sys2Proof.core 2 s = .next t ∧ t.response = some (.out off (outByte s off)) ∧
              ∀ a, OutKeeps s t a))

/-- R58, R59: the STATUS read that returns DONE or ERROR is the acquire of the job's result, the START is where the next
job's begins, and nothing else changes what is ordered: the host has observed the end of a job after such a read, from
then on until a START is taken, and (there being no job) after power-on reset. -/
def Obligations.OnlyAStatusReadObservesTheEnd : Prop :=
  (∀ (s : State) (ts : List Turn), s.jobState = .done ∨ s.jobState = .error → s.turns = hostReads s 0x04 :: ts →
      ∃ t v, step s = .next t ∧ t.observed = true ∧ t.response = some (.csr (s.cfg.csrBase + 0x04) v) ∧
        v.extractLsb' 0 2 = s.jobState.code) ∧
    (∀ s t : State, step s = .next t → s.observed = false → t.observed = true →
      ((s.jobState = .done ∨ s.jobState = .error) ∧ ∃ ts, s.turns = hostReads s 0x04 :: ts) ∨
        ∃ ts, s.turns = .host .powerOnReset :: ts) ∧
    ∀ s t : State, step s = .next t → s.observed = true → t.observed = false → ∃ v ts, Starts s v ts

/-- The model's choice (logs 5, 6, 25): until the host has observed the end of the job, no host read shows anything of the
result: what a read of OUT or of any CSR returns is the same on two machines that differ only in OUT and the result
registers. R57(c), R182(b), U3 and U4 say only that such a read may return any value, so a block that shows the real bytes
conforms; that the value does not depend on the result is the form of the free values, and that the registers are treated
like OUT is read from R58. -/
def Obligations.UnobservedResultsAreNotShown : Prop :=
  ∀ (s t s' : State) (off : Nat) (ts : List Turn), s.jobState = .busy ∨ s.observed = false → SameButResults s t →
    s.turns = .host (.outRead off) :: ts ∨ s.turns = hostReads s off :: ts → step s = .next s' →
    ∃ t', step t = .next t' ∧ t'.response = s'.response ∧ SameButResults s' t'

/-- R44, R172, R173: power-on reset, at any time: every register and every cache slot at its power-on value; IN is
unchanged where a job was running; the core takes no step after it. State.reset holds the same values. -/
def Obligations.PowerOnResetRestoresPowerOnValues : Prop :=
  (∀ (s : State) (ts : List Turn), s.turns = .host .powerOnReset :: ts →
      ∃ t, step s = .next t ∧ PowerOn t ∧ t.cfg = s.cfg ∧ (s.jobState = .busy → ∀ a, inByte t a = inByte s a) ∧
        coreStep t = .next t) ∧
    PowerOn State.reset

/-! ### The whole machine -/

/-- The invariant holds at reset. -/
def Obligations.ResetMeetsTheInvariant : Prop := State.reset.Inv

/-- Every step, of the core or of the host, keeps the invariant (R17–R49, R90, R137, R147, R152, R158). -/
def Obligations.EveryStepKeepsTheInvariant : Prop :=
  ∀ s t : State, s.Inv → step s = .next t → t.Inv

/-- R46, R185: from a state of the invariant the core's turn always answers a next state: it never reads IN out of range,
never meets bytes that do not decode, and a BUSY job always has a step. -/
def Obligations.CoreTurnNeverStops : Prop := ∀ s : State, s.Inv → CoreTurn s → ∃ t, step s = .next t

/-- R171: while not BUSY the core's turn changes nothing but the turn itself. -/
def Obligations.IdleCoreChangesNothing : Prop :=
  ∀ s : State, s.jobState ≠ .busy →
    (s.turns = [] → step s = .next s) ∧ ∀ ts, s.turns = .core :: ts → step s = .next { s with turns := ts }

/-- R17: the encoding of STATE, and its transitions: to BUSY only by a START, to DONE only by the core's step of a
running job, to ERROR only by the core's step of a running job or by a START, to IDLE only by reset. -/
def Obligations.StateChangesOnlyAsListed : Prop :=
  (JobState.code .idle = 0 ∧ JobState.code .busy = 1 ∧ JobState.code .done = 2 ∧ JobState.code .error = 3) ∧
    ∀ s t : State, step s = .next t → t.jobState ≠ s.jobState →
      (t.jobState = .busy ∧ s.jobState ≠ .busy ∧
          ∃ v ts, s.turns = hostWrites s 0x00 v :: ts ∧ v.getLsbD 0 = true) ∨
        (t.jobState = .done ∧ s.jobState = .busy ∧ CoreTurn s) ∨
        (t.jobState = .error ∧ s.jobState = .busy ∧ CoreTurn s) ∨
        (t.jobState = .error ∧ s.jobState ≠ .busy ∧
          ∃ v ts, s.turns = hostWrites s 0x00 v :: ts ∧ v.getLsbD 0 = true) ∨
        (t.jobState = .idle ∧ ∃ ts, s.turns = .host .powerOnReset :: ts)

/-- R19, R28, R45, R60: no step of the core writes IN, the host's registers, the latched parameters or the machine's
parameters. -/
def Obligations.CoreNeverWritesItsInputs : Prop :=
  ∀ s t : State, coreStep s = .next t → SameInputs s t

/-- R48: while a job runs OUT is written in ascending order: a step that does not end in ERROR leaves o where it was or
further, every byte below the old o and from the new o on as it was, and every byte between written. And the job as a
whole, however many steps it takes: at DONE every byte of OUT from OUT_LEN on is as it was. (What a START leaves of OUT is
said by the two start statements.) -/
def Obligations.OutIsWrittenInOrder : Prop :=
  (∀ s t : State, s.Inv → s.jobState = .busy → coreStep s = .next t → t.jobState ≠ .error →
      s.o.toNat ≤ t.o.toNat ∧ (∀ a, a < s.o.toNat ∨ t.o.toNat ≤ a → OutKeeps s t a) ∧
        ∀ a, s.o.toNat ≤ a → a < t.o.toNat → t.outBuf.byteAt a ≠ none) ∧
    ∀ (s t : State) (k : Nat), s.Inv → s.jobState = .busy → s.turns = [] →
      Host.Core.run Sys2Proof.core k s = .next t → t.jobState = .done →
      ∀ a, t.outLen.toNat ≤ a → OutKeeps s t a

/-- R46: no job depends on a byte of IN at an offset ≥ L: two machines that differ only in such bytes take the same
step, in a running job, and in the start step of either mode, where L is IN_LEN. -/
def Obligations.NoByteBeyondLIsRead : Prop :=
  ∀ s t s' : State,
    (s.jobState = .busy → SameInputBelow s.len s t → coreStep s = .next s' →
        ∃ t', coreStep t = .next t' ∧ SameInputBelow s'.len s' t') ∧
      ∀ v ts, Starts s v ts → SameInputBelow s.inLen s t → step s = .next s' →
        ∃ t', step t = .next t' ∧ SameInputBelow s'.len s' t'
end

