-- ==== Sys2Proof/Laws/Cache.lean ====
section
/-! SUPPORT. The pixel-history cache: a slot read after a slot write (40_pixel_cache.md R88, R89, R91). -/

namespace Sys2Proof.Machine

theorem slotRead_slotSet (c : Cache) (k j : BitVec 6) (v : Slot) :
    slotRead (slotSet c k v) j = if j = k then v else slotRead c j := by
  simp only [slotRead, slotSet, Vector.get_eq_getElem, Vector.getElem_set]
  by_cases h : j = k
  · subst h; simp
  · have h2 : k.toNat ≠ j.toNat := fun e => h (BitVec.eq_of_toNat_eq e.symm)
    simp [h, h2]

@[simp] theorem slotRead_slotSet_same (c : Cache) (k : BitVec 6) (v : Slot) : slotRead (slotSet c k v) k = v := by
  simp [slotRead_slotSet]

@[simp] theorem slotRead_absent (fill : Pixel) (k : BitVec 6) : slotRead (Cache.absent fill) k = ⟨false, fill⟩ := by
  simp [slotRead, Cache.absent, Vector.get_eq_getElem]

/-- R87: an absent slot never hits. -/
theorem hit_false_of_absent {c : Cache} {p : Pixel} (h : (slotRead c (pixelHash p)).valid = false) : hit c p = false := by
  simp [hit, h]

theorem hit_iff (c : Cache) (p : Pixel) : hit c p = true ↔ slotRead c (pixelHash p) = ⟨true, p⟩ := by
  cases h : slotRead c (pixelHash p) with
  | mk v q => simp [hit, h]

end Sys2Proof.Machine
end

