-- ==== Sys2Proof/Laws/Memory.lean ====
section
/-! SUPPORT. The byte buffers: read after write, other offsets alone, and the canonical form kept. -/

namespace Sys2Proof.Machine

@[simp] theorem Memory.byteAt_nil (a : Nat) : Memory.byteAt [] a = none := rfl

theorem Memory.byteAt_put (m : Memory) (a : Nat) (b : Byte) (c : Nat) :
    (m.put a b).byteAt c = if c = a then some b else m.byteAt c := by
  induction m with
  | nil => simp [Memory.put, Memory.byteAt]
  | cons kv rest ih =>
    obtain ⟨k, v⟩ := kv
    by_cases h1 : a < k
    · simp [Memory.put, Memory.byteAt, h1]
    · by_cases h2 : a = k
      · subst h2
        by_cases hc : c = a <;> simp [Memory.put, Memory.byteAt, hc]
      · by_cases hc : c = k
        · have : c ≠ a := by omega
          simp [Memory.put, Memory.byteAt, h1, h2, hc, Ne.symm h2]
        · simp [Memory.put, Memory.byteAt, h1, h2, hc, ih]

@[simp] theorem Memory.byteAt_put_same (m : Memory) (a : Nat) (b : Byte) : (m.put a b).byteAt a = some b := by
  simp [Memory.byteAt_put]

theorem Memory.byteAt_put_other (m : Memory) {a c : Nat} (b : Byte) (h : c ≠ a) :
    (m.put a b).byteAt c = m.byteAt c := by
  simp [Memory.byteAt_put, h]

/-- The bytes stored read back in order; every other offset is as before. -/
theorem Memory.byteAt_putBytes (m : Memory) (a : Nat) (bs : List Byte) (c : Nat) :
    (m.putBytes a bs).byteAt c = if a ≤ c ∧ c < a + bs.length then bs[c - a]? else m.byteAt c := by
  induction bs generalizing m a with
  | nil =>
    have h : ¬(a ≤ c ∧ c < a + List.length ([] : List Byte)) := by simp
    rw [if_neg h, Memory.putBytes]
  | cons b bs ih =>
    rw [Memory.putBytes, ih, Memory.byteAt_put]
    by_cases h1 : a + 1 ≤ c ∧ c < a + 1 + bs.length
    · have h2 : a ≤ c ∧ c < a + (b :: bs).length := by simp; omega
      have h3 : c - a = (c - (a + 1)) + 1 := by omega
      rw [if_pos h1, if_pos h2, h3, List.getElem?_cons_succ]
    · rw [if_neg h1]
      by_cases h3 : c = a
      · have h2 : a ≤ c ∧ c < a + (b :: bs).length := by simp; omega
        rw [if_pos h3, if_pos h2]
        simp [h3]
      · have h2 : ¬(a ≤ c ∧ c < a + (b :: bs).length) := by simp; omega
        rw [if_neg h3, if_neg h2]

theorem Memory.putBytes_append (m : Memory) (a : Nat) (xs ys : List Byte) :
    m.putBytes a (xs ++ ys) = (m.putBytes a xs).putBytes (a + xs.length) ys := by
  induction xs generalizing m a with
  | nil => rfl
  | cons x xs ih =>
    have : a + (x :: xs).length = a + 1 + xs.length := by simp; omega
    rw [List.cons_append, Memory.putBytes, Memory.putBytes, ih, this]

theorem Memory.above_put {k a : Nat} {m : Memory} (b : Byte) (hk : k < a) (h : Memory.above k m = true) :
    Memory.above k (m.put a b) = true := by
  cases m with
  | nil => simpa [Memory.put, Memory.above] using hk
  | cons kv rest =>
    obtain ⟨j, v⟩ := kv
    by_cases h1 : a < j
    · simpa [Memory.put, Memory.above, h1] using hk
    · by_cases h2 : a = j
      · simpa [Memory.put, Memory.above, h2] using h2 ▸ hk
      · simpa [Memory.put, Memory.above, h1, h2] using h

/-- A write keeps the canonical form. -/
theorem Memory.wf_put {m : Memory} (a : Nat) (b : Byte) (h : m.wf = true) : (m.put a b).wf = true := by
  induction m with
  | nil => simp [Memory.put, Memory.wf, Memory.above]
  | cons kv rest ih =>
    obtain ⟨k, v⟩ := kv
    simp only [Memory.wf, Bool.and_eq_true] at h
    by_cases h1 : a < k
    · have h3 : Memory.above a ((k, v) :: rest) = true := by simpa [Memory.above] using h1
      simp only [Memory.put, if_pos h1, Memory.wf, h3, h.1, h.2, Bool.and_self]
    · by_cases h2 : a = k
      · simp [Memory.put, Memory.wf, h2, h.1, h.2]
      · have hk : k < a := by omega
        simp [Memory.put, Memory.wf, h1, h2, Memory.above_put b hk h.1, ih h.2]

theorem Memory.wf_putBytes {m : Memory} (a : Nat) (bs : List Byte) (h : m.wf = true) :
    (m.putBytes a bs).wf = true := by
  induction bs generalizing m a with
  | nil => exact h
  | cons b bs ih => exact ih (a + 1) (Memory.wf_put a b h)

@[simp] theorem Memory.wf_nil : Memory.wf [] = true := rfl

/-- Where every offset listed is below `c`, only offsets below `c` are listed. -/
theorem Memory.byteAt_listed {m : Memory} {c : Nat} (h : m.all (fun kv => decide (kv.1 < c)) = true) (a : Nat)
    (ha : m.byteAt a ≠ none) : a < c := by
  induction m with
  | nil => exact absurd rfl ha
  | cons kv rest ih =>
    obtain ⟨k, v⟩ := kv
    simp only [List.all_cons, Bool.and_eq_true, decide_eq_true_eq] at h
    by_cases hk : a = k
    · exact hk ▸ h.1
    · exact ih h.2 (by simpa only [Memory.byteAt, if_neg hk] using ha)

/-- In canonical form no offset up to the first one's bound is listed below it. -/
theorem Memory.byteAt_of_above {k a : Nat} {m : Memory} (hw : m.wf = true) (h : Memory.above k m = true) (ha : a ≤ k) :
    m.byteAt a = none := by
  induction m with
  | nil => rfl
  | cons jv rest ih =>
    obtain ⟨j, v⟩ := jv
    simp only [Memory.wf, Bool.and_eq_true] at hw
    simp only [Memory.above, decide_eq_true_eq] at h
    have hrest : Memory.above k rest = true := by
      cases rest with
      | nil => rfl
      | cons lv rest' =>
        have := hw.1
        simp only [Memory.above, decide_eq_true_eq] at this ⊢
        omega
    have hne : a ≠ j := by omega
    simp [Memory.byteAt, hne, ih hw.2 hrest]

/-- Equal memories are equal data: two buffers in canonical form that read alike everywhere are the same list. -/
theorem Memory.ext_of_byteAt {m m' : Memory} (h : m.wf = true) (h' : m'.wf = true)
    (e : ∀ a, m.byteAt a = m'.byteAt a) : m = m' := by
  induction m generalizing m' with
  | nil =>
    cases m' with
    | nil => rfl
    | cons kv rest =>
      obtain ⟨k, v⟩ := kv
      simpa [Memory.byteAt] using e k
  | cons kv rest ih =>
    obtain ⟨k, v⟩ := kv
    cases m' with
    | nil => simpa [Memory.byteAt] using e k
    | cons jw rest' =>
      obtain ⟨j, w⟩ := jw
      simp only [Memory.wf, Bool.and_eq_true] at h h'
      have hkj : k = j := by
        rcases Nat.lt_trichotomy k j with hlt | heq | hgt
        · have h1 := e k
          have h2 : Memory.above k rest' = true := by
            have := h'.1
            cases rest' with
            | nil => rfl
            | cons lv r => simp only [Memory.above, decide_eq_true_eq] at this ⊢; omega
          simp [Memory.byteAt, Nat.ne_of_lt hlt, Memory.byteAt_of_above h'.2 h2 (Nat.le_refl k)] at h1
        · exact heq
        · have h1 := e j
          have h2 : Memory.above j rest = true := by
            have := h.1
            cases rest with
            | nil => rfl
            | cons lv r => simp only [Memory.above, decide_eq_true_eq] at this ⊢; omega
          simp [Memory.byteAt, Nat.ne_of_lt hgt, Memory.byteAt_of_above h.2 h2 (Nat.le_refl j)] at h1
      subst hkj
      have hv : v = w := by simpa [Memory.byteAt] using e k
      subst hv
      have htail : rest = rest' := by
        refine ih h.2 h'.2 fun a => ?_
        by_cases hak : a = k
        · subst hak
          rw [Memory.byteAt_of_above h.2 h.1 (Nat.le_refl a), Memory.byteAt_of_above h'.2 h'.1 (Nat.le_refl a)]
        · simpa [Memory.byteAt, hak] using e a
      rw [htail]

end Sys2Proof.Machine
end

