-- ==== Sys2Proof/Laws/State.lean ====
section
/-! SUPPORT. What each shared update of the state leaves in each field: one lemma per field per update, by rfl. -/

namespace Sys2Proof.Machine

/-- The state with the bytes `bs` appended to OUT (20_memory.md R49, when they fit). -/
def pushBytes (bs : List Byte) (s : State) : State :=
  { s with outBuf := s.outBuf.putBytes s.o.toNat bs, o := s.o + BitVec.ofNat 32 bs.length }

/-! ### raise -/

@[simp] theorem raise_cfg (e : ErrCode) (s : State) : (raise e s).cfg = s.cfg := rfl
@[simp] theorem raise_mode (e : ErrCode) (s : State) : (raise e s).mode = s.mode := rfl
@[simp] theorem raise_encWidth (e : ErrCode) (s : State) : (raise e s).encWidth = s.encWidth := rfl
@[simp] theorem raise_encHeight (e : ErrCode) (s : State) : (raise e s).encHeight = s.encHeight := rfl
@[simp] theorem raise_encChannels (e : ErrCode) (s : State) : (raise e s).encChannels = s.encChannels := rfl
@[simp] theorem raise_inLen (e : ErrCode) (s : State) : (raise e s).inLen = s.inLen := rfl
@[simp] theorem raise_jobState (e : ErrCode) (s : State) : (raise e s).jobState = .error := rfl
@[simp] theorem raise_err (e : ErrCode) (s : State) : (raise e s).err = e := rfl
@[simp] theorem raise_absIdx (e : ErrCode) (s : State) : (raise e s).absIdx = s.absIdx := rfl
@[simp] theorem raise_outLen (e : ErrCode) (s : State) : (raise e s).outLen = 0 := rfl
@[simp] theorem raise_pixCount (e : ErrCode) (s : State) : (raise e s).pixCount = 0 := rfl
@[simp] theorem raise_hdrWidth (e : ErrCode) (s : State) : (raise e s).hdrWidth = Config.unspecifiedWord s.draws := rfl
@[simp] theorem raise_hdrHeight (e : ErrCode) (s : State) : (raise e s).hdrHeight = Config.unspecifiedWord (s.draws + 1) := rfl
@[simp] theorem raise_hdrChannels (e : ErrCode) (s : State) : (raise e s).hdrChannels = (Config.unspecifiedWord (s.draws + 2)).extractLsb' 0 8 := rfl
@[simp] theorem raise_hdrColorspace (e : ErrCode) (s : State) : (raise e s).hdrColorspace = (Config.unspecifiedWord (s.draws + 2)).extractLsb' 8 8 := rfl
@[simp] theorem raise_phase (e : ErrCode) (s : State) : (raise e s).phase = s.phase := rfl
@[simp] theorem raise_jobMode (e : ErrCode) (s : State) : (raise e s).jobMode = s.jobMode := rfl
@[simp] theorem raise_len (e : ErrCode) (s : State) : (raise e s).len = s.len := rfl
@[simp] theorem raise_wid (e : ErrCode) (s : State) : (raise e s).wid = s.wid := rfl
@[simp] theorem raise_hgt (e : ErrCode) (s : State) : (raise e s).hgt = s.hgt := rfl
@[simp] theorem raise_ch (e : ErrCode) (s : State) : (raise e s).ch = s.ch := rfl
@[simp] theorem raise_n (e : ErrCode) (s : State) : (raise e s).n = s.n := rfl
@[simp] theorem raise_ptr (e : ErrCode) (s : State) : (raise e s).ptr = s.ptr := rfl
@[simp] theorem raise_i (e : ErrCode) (s : State) : (raise e s).i = s.i := rfl
@[simp] theorem raise_o (e : ErrCode) (s : State) : (raise e s).o = s.o := rfl
@[simp] theorem raise_px (e : ErrCode) (s : State) : (raise e s).px = s.px := rfl
@[simp] theorem raise_run (e : ErrCode) (s : State) : (raise e s).run = s.run := rfl
@[simp] theorem raise_cache (e : ErrCode) (s : State) : (raise e s).cache = s.cache := rfl
@[simp] theorem raise_inBuf (e : ErrCode) (s : State) : (raise e s).inBuf = s.inBuf := rfl
@[simp] theorem raise_outBuf (e : ErrCode) (s : State) : (raise e s).outBuf = [] := rfl
@[simp] theorem raise_observed (e : ErrCode) (s : State) : (raise e s).observed = s.observed := rfl
@[simp] theorem raise_draws (e : ErrCode) (s : State) : (raise e s).draws = s.draws + 3 := rfl
@[simp] theorem raise_inEpoch (e : ErrCode) (s : State) : (raise e s).inEpoch = s.inEpoch := rfl
@[simp] theorem raise_outEpoch (e : ErrCode) (s : State) : (raise e s).outEpoch = s.outEpoch + 1 := rfl
@[simp] theorem raise_turns (e : ErrCode) (s : State) : (raise e s).turns = s.turns := rfl
@[simp] theorem raise_response (e : ErrCode) (s : State) : (raise e s).response = s.response := rfl

/-! ### beginJob -/

@[simp] theorem beginJob_cfg (s : State) : (beginJob s).cfg = s.cfg := rfl
@[simp] theorem beginJob_mode (s : State) : (beginJob s).mode = s.mode := rfl
@[simp] theorem beginJob_encWidth (s : State) : (beginJob s).encWidth = s.encWidth := rfl
@[simp] theorem beginJob_encHeight (s : State) : (beginJob s).encHeight = s.encHeight := rfl
@[simp] theorem beginJob_encChannels (s : State) : (beginJob s).encChannels = s.encChannels := rfl
@[simp] theorem beginJob_inLen (s : State) : (beginJob s).inLen = s.inLen := rfl
@[simp] theorem beginJob_jobState (s : State) : (beginJob s).jobState = .busy := rfl
@[simp] theorem beginJob_err (s : State) : (beginJob s).err = .none := rfl
@[simp] theorem beginJob_absIdx (s : State) : (beginJob s).absIdx = false := rfl
@[simp] theorem beginJob_outLen (s : State) : (beginJob s).outLen = s.outLen := rfl
@[simp] theorem beginJob_pixCount (s : State) : (beginJob s).pixCount = s.pixCount := rfl
@[simp] theorem beginJob_hdrWidth (s : State) : (beginJob s).hdrWidth = s.hdrWidth := rfl
@[simp] theorem beginJob_hdrHeight (s : State) : (beginJob s).hdrHeight = s.hdrHeight := rfl
@[simp] theorem beginJob_hdrChannels (s : State) : (beginJob s).hdrChannels = s.hdrChannels := rfl
@[simp] theorem beginJob_hdrColorspace (s : State) : (beginJob s).hdrColorspace = s.hdrColorspace := rfl
@[simp] theorem beginJob_phase (s : State) : (beginJob s).phase = s.phase := rfl
@[simp] theorem beginJob_jobMode (s : State) : (beginJob s).jobMode = s.mode := rfl
@[simp] theorem beginJob_len (s : State) : (beginJob s).len = s.len := rfl
@[simp] theorem beginJob_wid (s : State) : (beginJob s).wid = s.wid := rfl
@[simp] theorem beginJob_hgt (s : State) : (beginJob s).hgt = s.hgt := rfl
@[simp] theorem beginJob_ch (s : State) : (beginJob s).ch = s.ch := rfl
@[simp] theorem beginJob_n (s : State) : (beginJob s).n = s.n := rfl
@[simp] theorem beginJob_ptr (s : State) : (beginJob s).ptr = s.ptr := rfl
@[simp] theorem beginJob_i (s : State) : (beginJob s).i = s.i := rfl
@[simp] theorem beginJob_o (s : State) : (beginJob s).o = s.o := rfl
@[simp] theorem beginJob_px (s : State) : (beginJob s).px = s.px := rfl
@[simp] theorem beginJob_run (s : State) : (beginJob s).run = s.run := rfl
@[simp] theorem beginJob_cache (s : State) : (beginJob s).cache = s.cache := rfl
@[simp] theorem beginJob_inBuf (s : State) : (beginJob s).inBuf = s.inBuf := rfl
@[simp] theorem beginJob_outBuf (s : State) : (beginJob s).outBuf = s.outBuf := rfl
@[simp] theorem beginJob_observed (s : State) : (beginJob s).observed = false := rfl
@[simp] theorem beginJob_draws (s : State) : (beginJob s).draws = s.draws := rfl
@[simp] theorem beginJob_inEpoch (s : State) : (beginJob s).inEpoch = s.inEpoch := rfl
@[simp] theorem beginJob_outEpoch (s : State) : (beginJob s).outEpoch = s.outEpoch := rfl
@[simp] theorem beginJob_turns (s : State) : (beginJob s).turns = s.turns := rfl
@[simp] theorem beginJob_response (s : State) : (beginJob s).response = s.response := rfl

/-! ### pushByte -/

@[simp] theorem pushByte_cfg (b : Byte) (s : State) : (pushByte b s).cfg = s.cfg := rfl
@[simp] theorem pushByte_mode (b : Byte) (s : State) : (pushByte b s).mode = s.mode := rfl
@[simp] theorem pushByte_encWidth (b : Byte) (s : State) : (pushByte b s).encWidth = s.encWidth := rfl
@[simp] theorem pushByte_encHeight (b : Byte) (s : State) : (pushByte b s).encHeight = s.encHeight := rfl
@[simp] theorem pushByte_encChannels (b : Byte) (s : State) : (pushByte b s).encChannels = s.encChannels := rfl
@[simp] theorem pushByte_inLen (b : Byte) (s : State) : (pushByte b s).inLen = s.inLen := rfl
@[simp] theorem pushByte_jobState (b : Byte) (s : State) : (pushByte b s).jobState = s.jobState := rfl
@[simp] theorem pushByte_err (b : Byte) (s : State) : (pushByte b s).err = s.err := rfl
@[simp] theorem pushByte_absIdx (b : Byte) (s : State) : (pushByte b s).absIdx = s.absIdx := rfl
@[simp] theorem pushByte_outLen (b : Byte) (s : State) : (pushByte b s).outLen = s.outLen := rfl
@[simp] theorem pushByte_pixCount (b : Byte) (s : State) : (pushByte b s).pixCount = s.pixCount := rfl
@[simp] theorem pushByte_hdrWidth (b : Byte) (s : State) : (pushByte b s).hdrWidth = s.hdrWidth := rfl
@[simp] theorem pushByte_hdrHeight (b : Byte) (s : State) : (pushByte b s).hdrHeight = s.hdrHeight := rfl
@[simp] theorem pushByte_hdrChannels (b : Byte) (s : State) : (pushByte b s).hdrChannels = s.hdrChannels := rfl
@[simp] theorem pushByte_hdrColorspace (b : Byte) (s : State) : (pushByte b s).hdrColorspace = s.hdrColorspace := rfl
@[simp] theorem pushByte_phase (b : Byte) (s : State) : (pushByte b s).phase = s.phase := rfl
@[simp] theorem pushByte_jobMode (b : Byte) (s : State) : (pushByte b s).jobMode = s.jobMode := rfl
@[simp] theorem pushByte_len (b : Byte) (s : State) : (pushByte b s).len = s.len := rfl
@[simp] theorem pushByte_wid (b : Byte) (s : State) : (pushByte b s).wid = s.wid := rfl
@[simp] theorem pushByte_hgt (b : Byte) (s : State) : (pushByte b s).hgt = s.hgt := rfl
@[simp] theorem pushByte_ch (b : Byte) (s : State) : (pushByte b s).ch = s.ch := rfl
@[simp] theorem pushByte_n (b : Byte) (s : State) : (pushByte b s).n = s.n := rfl
@[simp] theorem pushByte_ptr (b : Byte) (s : State) : (pushByte b s).ptr = s.ptr := rfl
@[simp] theorem pushByte_i (b : Byte) (s : State) : (pushByte b s).i = s.i := rfl
@[simp] theorem pushByte_o (b : Byte) (s : State) : (pushByte b s).o = s.o + 1 := rfl
@[simp] theorem pushByte_px (b : Byte) (s : State) : (pushByte b s).px = s.px := rfl
@[simp] theorem pushByte_run (b : Byte) (s : State) : (pushByte b s).run = s.run := rfl
@[simp] theorem pushByte_cache (b : Byte) (s : State) : (pushByte b s).cache = s.cache := rfl
@[simp] theorem pushByte_inBuf (b : Byte) (s : State) : (pushByte b s).inBuf = s.inBuf := rfl
@[simp] theorem pushByte_outBuf (b : Byte) (s : State) : (pushByte b s).outBuf = s.outBuf.put s.o.toNat b := rfl
@[simp] theorem pushByte_observed (b : Byte) (s : State) : (pushByte b s).observed = s.observed := rfl
@[simp] theorem pushByte_draws (b : Byte) (s : State) : (pushByte b s).draws = s.draws := rfl
@[simp] theorem pushByte_inEpoch (b : Byte) (s : State) : (pushByte b s).inEpoch = s.inEpoch := rfl
@[simp] theorem pushByte_outEpoch (b : Byte) (s : State) : (pushByte b s).outEpoch = s.outEpoch := rfl
@[simp] theorem pushByte_turns (b : Byte) (s : State) : (pushByte b s).turns = s.turns := rfl
@[simp] theorem pushByte_response (b : Byte) (s : State) : (pushByte b s).response = s.response := rfl

/-! ### slotWrite -/

@[simp] theorem slotWrite_cfg (p : Pixel) (s : State) : (slotWrite p s).cfg = s.cfg := rfl
@[simp] theorem slotWrite_mode (p : Pixel) (s : State) : (slotWrite p s).mode = s.mode := rfl
@[simp] theorem slotWrite_encWidth (p : Pixel) (s : State) : (slotWrite p s).encWidth = s.encWidth := rfl
@[simp] theorem slotWrite_encHeight (p : Pixel) (s : State) : (slotWrite p s).encHeight = s.encHeight := rfl
@[simp] theorem slotWrite_encChannels (p : Pixel) (s : State) : (slotWrite p s).encChannels = s.encChannels := rfl
@[simp] theorem slotWrite_inLen (p : Pixel) (s : State) : (slotWrite p s).inLen = s.inLen := rfl
@[simp] theorem slotWrite_jobState (p : Pixel) (s : State) : (slotWrite p s).jobState = s.jobState := rfl
@[simp] theorem slotWrite_err (p : Pixel) (s : State) : (slotWrite p s).err = s.err := rfl
@[simp] theorem slotWrite_absIdx (p : Pixel) (s : State) : (slotWrite p s).absIdx = s.absIdx := rfl
@[simp] theorem slotWrite_outLen (p : Pixel) (s : State) : (slotWrite p s).outLen = s.outLen := rfl
@[simp] theorem slotWrite_pixCount (p : Pixel) (s : State) : (slotWrite p s).pixCount = s.pixCount := rfl
@[simp] theorem slotWrite_hdrWidth (p : Pixel) (s : State) : (slotWrite p s).hdrWidth = s.hdrWidth := rfl
@[simp] theorem slotWrite_hdrHeight (p : Pixel) (s : State) : (slotWrite p s).hdrHeight = s.hdrHeight := rfl
@[simp] theorem slotWrite_hdrChannels (p : Pixel) (s : State) : (slotWrite p s).hdrChannels = s.hdrChannels := rfl
@[simp] theorem slotWrite_hdrColorspace (p : Pixel) (s : State) : (slotWrite p s).hdrColorspace = s.hdrColorspace := rfl
@[simp] theorem slotWrite_phase (p : Pixel) (s : State) : (slotWrite p s).phase = s.phase := rfl
@[simp] theorem slotWrite_jobMode (p : Pixel) (s : State) : (slotWrite p s).jobMode = s.jobMode := rfl
@[simp] theorem slotWrite_len (p : Pixel) (s : State) : (slotWrite p s).len = s.len := rfl
@[simp] theorem slotWrite_wid (p : Pixel) (s : State) : (slotWrite p s).wid = s.wid := rfl
@[simp] theorem slotWrite_hgt (p : Pixel) (s : State) : (slotWrite p s).hgt = s.hgt := rfl
@[simp] theorem slotWrite_ch (p : Pixel) (s : State) : (slotWrite p s).ch = s.ch := rfl
@[simp] theorem slotWrite_n (p : Pixel) (s : State) : (slotWrite p s).n = s.n := rfl
@[simp] theorem slotWrite_ptr (p : Pixel) (s : State) : (slotWrite p s).ptr = s.ptr := rfl
@[simp] theorem slotWrite_i (p : Pixel) (s : State) : (slotWrite p s).i = s.i := rfl
@[simp] theorem slotWrite_o (p : Pixel) (s : State) : (slotWrite p s).o = s.o := rfl
@[simp] theorem slotWrite_px (p : Pixel) (s : State) : (slotWrite p s).px = s.px := rfl
@[simp] theorem slotWrite_run (p : Pixel) (s : State) : (slotWrite p s).run = s.run := rfl
@[simp] theorem slotWrite_cache (p : Pixel) (s : State) : (slotWrite p s).cache = slotSet s.cache (pixelHash p) ⟨true, p⟩ := rfl
@[simp] theorem slotWrite_inBuf (p : Pixel) (s : State) : (slotWrite p s).inBuf = s.inBuf := rfl
@[simp] theorem slotWrite_outBuf (p : Pixel) (s : State) : (slotWrite p s).outBuf = s.outBuf := rfl
@[simp] theorem slotWrite_observed (p : Pixel) (s : State) : (slotWrite p s).observed = s.observed := rfl
@[simp] theorem slotWrite_draws (p : Pixel) (s : State) : (slotWrite p s).draws = s.draws := rfl
@[simp] theorem slotWrite_inEpoch (p : Pixel) (s : State) : (slotWrite p s).inEpoch = s.inEpoch := rfl
@[simp] theorem slotWrite_outEpoch (p : Pixel) (s : State) : (slotWrite p s).outEpoch = s.outEpoch := rfl
@[simp] theorem slotWrite_turns (p : Pixel) (s : State) : (slotWrite p s).turns = s.turns := rfl
@[simp] theorem slotWrite_response (p : Pixel) (s : State) : (slotWrite p s).response = s.response := rfl

/-! ### invalidate -/

@[simp] theorem invalidate_cfg (s : State) : (invalidate s).cfg = s.cfg := rfl
@[simp] theorem invalidate_mode (s : State) : (invalidate s).mode = s.mode := rfl
@[simp] theorem invalidate_encWidth (s : State) : (invalidate s).encWidth = s.encWidth := rfl
@[simp] theorem invalidate_encHeight (s : State) : (invalidate s).encHeight = s.encHeight := rfl
@[simp] theorem invalidate_encChannels (s : State) : (invalidate s).encChannels = s.encChannels := rfl
@[simp] theorem invalidate_inLen (s : State) : (invalidate s).inLen = s.inLen := rfl
@[simp] theorem invalidate_jobState (s : State) : (invalidate s).jobState = s.jobState := rfl
@[simp] theorem invalidate_err (s : State) : (invalidate s).err = s.err := rfl
@[simp] theorem invalidate_absIdx (s : State) : (invalidate s).absIdx = s.absIdx := rfl
@[simp] theorem invalidate_outLen (s : State) : (invalidate s).outLen = s.outLen := rfl
@[simp] theorem invalidate_pixCount (s : State) : (invalidate s).pixCount = s.pixCount := rfl
@[simp] theorem invalidate_hdrWidth (s : State) : (invalidate s).hdrWidth = s.hdrWidth := rfl
@[simp] theorem invalidate_hdrHeight (s : State) : (invalidate s).hdrHeight = s.hdrHeight := rfl
@[simp] theorem invalidate_hdrChannels (s : State) : (invalidate s).hdrChannels = s.hdrChannels := rfl
@[simp] theorem invalidate_hdrColorspace (s : State) : (invalidate s).hdrColorspace = s.hdrColorspace := rfl
@[simp] theorem invalidate_phase (s : State) : (invalidate s).phase = s.phase := rfl
@[simp] theorem invalidate_jobMode (s : State) : (invalidate s).jobMode = s.jobMode := rfl
@[simp] theorem invalidate_len (s : State) : (invalidate s).len = s.len := rfl
@[simp] theorem invalidate_wid (s : State) : (invalidate s).wid = s.wid := rfl
@[simp] theorem invalidate_hgt (s : State) : (invalidate s).hgt = s.hgt := rfl
@[simp] theorem invalidate_ch (s : State) : (invalidate s).ch = s.ch := rfl
@[simp] theorem invalidate_n (s : State) : (invalidate s).n = s.n := rfl
@[simp] theorem invalidate_ptr (s : State) : (invalidate s).ptr = s.ptr := rfl
@[simp] theorem invalidate_i (s : State) : (invalidate s).i = s.i := rfl
@[simp] theorem invalidate_o (s : State) : (invalidate s).o = s.o := rfl
@[simp] theorem invalidate_px (s : State) : (invalidate s).px = s.px := rfl
@[simp] theorem invalidate_run (s : State) : (invalidate s).run = s.run := rfl
@[simp] theorem invalidate_cache (s : State) : (invalidate s).cache = Cache.absent s.cfg.cacheFill := rfl
@[simp] theorem invalidate_inBuf (s : State) : (invalidate s).inBuf = s.inBuf := rfl
@[simp] theorem invalidate_outBuf (s : State) : (invalidate s).outBuf = s.outBuf := rfl
@[simp] theorem invalidate_observed (s : State) : (invalidate s).observed = s.observed := rfl
@[simp] theorem invalidate_draws (s : State) : (invalidate s).draws = s.draws := rfl
@[simp] theorem invalidate_inEpoch (s : State) : (invalidate s).inEpoch = s.inEpoch := rfl
@[simp] theorem invalidate_outEpoch (s : State) : (invalidate s).outEpoch = s.outEpoch := rfl
@[simp] theorem invalidate_turns (s : State) : (invalidate s).turns = s.turns := rfl
@[simp] theorem invalidate_response (s : State) : (invalidate s).response = s.response := rfl

/-! ### pushBytes -/

@[simp] theorem pushBytes_cfg (bs : List Byte) (s : State) : (pushBytes bs s).cfg = s.cfg := rfl
@[simp] theorem pushBytes_mode (bs : List Byte) (s : State) : (pushBytes bs s).mode = s.mode := rfl
@[simp] theorem pushBytes_encWidth (bs : List Byte) (s : State) : (pushBytes bs s).encWidth = s.encWidth := rfl
@[simp] theorem pushBytes_encHeight (bs : List Byte) (s : State) : (pushBytes bs s).encHeight = s.encHeight := rfl
@[simp] theorem pushBytes_encChannels (bs : List Byte) (s : State) : (pushBytes bs s).encChannels = s.encChannels := rfl
@[simp] theorem pushBytes_inLen (bs : List Byte) (s : State) : (pushBytes bs s).inLen = s.inLen := rfl
@[simp] theorem pushBytes_jobState (bs : List Byte) (s : State) : (pushBytes bs s).jobState = s.jobState := rfl
@[simp] theorem pushBytes_err (bs : List Byte) (s : State) : (pushBytes bs s).err = s.err := rfl
@[simp] theorem pushBytes_absIdx (bs : List Byte) (s : State) : (pushBytes bs s).absIdx = s.absIdx := rfl
@[simp] theorem pushBytes_outLen (bs : List Byte) (s : State) : (pushBytes bs s).outLen = s.outLen := rfl
@[simp] theorem pushBytes_pixCount (bs : List Byte) (s : State) : (pushBytes bs s).pixCount = s.pixCount := rfl
@[simp] theorem pushBytes_hdrWidth (bs : List Byte) (s : State) : (pushBytes bs s).hdrWidth = s.hdrWidth := rfl
@[simp] theorem pushBytes_hdrHeight (bs : List Byte) (s : State) : (pushBytes bs s).hdrHeight = s.hdrHeight := rfl
@[simp] theorem pushBytes_hdrChannels (bs : List Byte) (s : State) : (pushBytes bs s).hdrChannels = s.hdrChannels := rfl
@[simp] theorem pushBytes_hdrColorspace (bs : List Byte) (s : State) : (pushBytes bs s).hdrColorspace = s.hdrColorspace := rfl
@[simp] theorem pushBytes_phase (bs : List Byte) (s : State) : (pushBytes bs s).phase = s.phase := rfl
@[simp] theorem pushBytes_jobMode (bs : List Byte) (s : State) : (pushBytes bs s).jobMode = s.jobMode := rfl
@[simp] theorem pushBytes_len (bs : List Byte) (s : State) : (pushBytes bs s).len = s.len := rfl
@[simp] theorem pushBytes_wid (bs : List Byte) (s : State) : (pushBytes bs s).wid = s.wid := rfl
@[simp] theorem pushBytes_hgt (bs : List Byte) (s : State) : (pushBytes bs s).hgt = s.hgt := rfl
@[simp] theorem pushBytes_ch (bs : List Byte) (s : State) : (pushBytes bs s).ch = s.ch := rfl
@[simp] theorem pushBytes_n (bs : List Byte) (s : State) : (pushBytes bs s).n = s.n := rfl
@[simp] theorem pushBytes_ptr (bs : List Byte) (s : State) : (pushBytes bs s).ptr = s.ptr := rfl
@[simp] theorem pushBytes_i (bs : List Byte) (s : State) : (pushBytes bs s).i = s.i := rfl
@[simp] theorem pushBytes_o (bs : List Byte) (s : State) : (pushBytes bs s).o = s.o + BitVec.ofNat 32 bs.length := rfl
@[simp] theorem pushBytes_px (bs : List Byte) (s : State) : (pushBytes bs s).px = s.px := rfl
@[simp] theorem pushBytes_run (bs : List Byte) (s : State) : (pushBytes bs s).run = s.run := rfl
@[simp] theorem pushBytes_cache (bs : List Byte) (s : State) : (pushBytes bs s).cache = s.cache := rfl
@[simp] theorem pushBytes_inBuf (bs : List Byte) (s : State) : (pushBytes bs s).inBuf = s.inBuf := rfl
@[simp] theorem pushBytes_outBuf (bs : List Byte) (s : State) : (pushBytes bs s).outBuf = s.outBuf.putBytes s.o.toNat bs := rfl
@[simp] theorem pushBytes_observed (bs : List Byte) (s : State) : (pushBytes bs s).observed = s.observed := rfl
@[simp] theorem pushBytes_draws (bs : List Byte) (s : State) : (pushBytes bs s).draws = s.draws := rfl
@[simp] theorem pushBytes_inEpoch (bs : List Byte) (s : State) : (pushBytes bs s).inEpoch = s.inEpoch := rfl
@[simp] theorem pushBytes_outEpoch (bs : List Byte) (s : State) : (pushBytes bs s).outEpoch = s.outEpoch := rfl
@[simp] theorem pushBytes_turns (bs : List Byte) (s : State) : (pushBytes bs s).turns = s.turns := rfl
@[simp] theorem pushBytes_response (bs : List Byte) (s : State) : (pushBytes bs s).response = s.response := rfl

/-! ### flagAbsent -/

@[simp] theorem flagAbsent_cfg (s : State) : (flagAbsent s).cfg = s.cfg := rfl
@[simp] theorem flagAbsent_mode (s : State) : (flagAbsent s).mode = s.mode := rfl
@[simp] theorem flagAbsent_encWidth (s : State) : (flagAbsent s).encWidth = s.encWidth := rfl
@[simp] theorem flagAbsent_encHeight (s : State) : (flagAbsent s).encHeight = s.encHeight := rfl
@[simp] theorem flagAbsent_encChannels (s : State) : (flagAbsent s).encChannels = s.encChannels := rfl
@[simp] theorem flagAbsent_inLen (s : State) : (flagAbsent s).inLen = s.inLen := rfl
@[simp] theorem flagAbsent_jobState (s : State) : (flagAbsent s).jobState = s.jobState := rfl
@[simp] theorem flagAbsent_err (s : State) : (flagAbsent s).err = s.err := rfl
@[simp] theorem flagAbsent_absIdx (s : State) : (flagAbsent s).absIdx = true := rfl
@[simp] theorem flagAbsent_outLen (s : State) : (flagAbsent s).outLen = s.outLen := rfl
@[simp] theorem flagAbsent_pixCount (s : State) : (flagAbsent s).pixCount = s.pixCount := rfl
@[simp] theorem flagAbsent_hdrWidth (s : State) : (flagAbsent s).hdrWidth = s.hdrWidth := rfl
@[simp] theorem flagAbsent_hdrHeight (s : State) : (flagAbsent s).hdrHeight = s.hdrHeight := rfl
@[simp] theorem flagAbsent_hdrChannels (s : State) : (flagAbsent s).hdrChannels = s.hdrChannels := rfl
@[simp] theorem flagAbsent_hdrColorspace (s : State) : (flagAbsent s).hdrColorspace = s.hdrColorspace := rfl
@[simp] theorem flagAbsent_phase (s : State) : (flagAbsent s).phase = s.phase := rfl
@[simp] theorem flagAbsent_jobMode (s : State) : (flagAbsent s).jobMode = s.jobMode := rfl
@[simp] theorem flagAbsent_len (s : State) : (flagAbsent s).len = s.len := rfl
@[simp] theorem flagAbsent_wid (s : State) : (flagAbsent s).wid = s.wid := rfl
@[simp] theorem flagAbsent_hgt (s : State) : (flagAbsent s).hgt = s.hgt := rfl
@[simp] theorem flagAbsent_ch (s : State) : (flagAbsent s).ch = s.ch := rfl
@[simp] theorem flagAbsent_n (s : State) : (flagAbsent s).n = s.n := rfl
@[simp] theorem flagAbsent_ptr (s : State) : (flagAbsent s).ptr = s.ptr := rfl
@[simp] theorem flagAbsent_i (s : State) : (flagAbsent s).i = s.i := rfl
@[simp] theorem flagAbsent_o (s : State) : (flagAbsent s).o = s.o := rfl
@[simp] theorem flagAbsent_px (s : State) : (flagAbsent s).px = s.px := rfl
@[simp] theorem flagAbsent_run (s : State) : (flagAbsent s).run = s.run := rfl
@[simp] theorem flagAbsent_cache (s : State) : (flagAbsent s).cache = s.cache := rfl
@[simp] theorem flagAbsent_inBuf (s : State) : (flagAbsent s).inBuf = s.inBuf := rfl
@[simp] theorem flagAbsent_outBuf (s : State) : (flagAbsent s).outBuf = s.outBuf := rfl
@[simp] theorem flagAbsent_observed (s : State) : (flagAbsent s).observed = s.observed := rfl
@[simp] theorem flagAbsent_draws (s : State) : (flagAbsent s).draws = s.draws := rfl
@[simp] theorem flagAbsent_inEpoch (s : State) : (flagAbsent s).inEpoch = s.inEpoch := rfl
@[simp] theorem flagAbsent_outEpoch (s : State) : (flagAbsent s).outEpoch = s.outEpoch := rfl
@[simp] theorem flagAbsent_turns (s : State) : (flagAbsent s).turns = s.turns := rfl
@[simp] theorem flagAbsent_response (s : State) : (flagAbsent s).response = s.response := rfl

end Sys2Proof.Machine
end

