-- ==== Sys2Proof/Laws/Emit.lean ====
section
/-! SUPPORT. Emit (20_memory.md R49): what appending bytes does when they fit, and when they do not. -/

namespace Sys2Proof.Machine

/-! ### Flow -/

@[simp] theorem Flow.more_andThen (s : State) (g : State → Flow) : (Flow.more s).andThen g = g s := rfl
@[simp] theorem Flow.aborted_andThen (s : State) (g : State → Flow) : (Flow.aborted s).andThen g = .aborted s := rfl
@[simp] theorem Flow.faulted_andThen (f : Fault) (g : State → Flow) : (Flow.faulted f).andThen g = .faulted f := rfl
@[simp] theorem Flow.more_outcome (s : State) : (Flow.more s).outcome = .next s := rfl
@[simp] theorem Flow.aborted_outcome (s : State) : (Flow.aborted s).outcome = .next s := rfl
@[simp] theorem Flow.faulted_outcome (f : Fault) : (Flow.faulted f).outcome = .fault f := rfl

theorem Flow.andThen_assoc (f : Flow) (g h : State → Flow) :
    (f.andThen g).andThen h = f.andThen fun s => (g s).andThen h := by
  cases f <;> rfl

/-- A flow goes on after `g` only from a state `f` went on to. -/
theorem Flow.andThen_eq_more {f : Flow} {g : State → Flow} {t : State} (h : f.andThen g = .more t) :
    ∃ s, f = .more s ∧ g s = .more t := by
  cases f with
  | more s => exact ⟨s, rfl, h⟩
  | aborted s => cases h
  | faulted r => cases h

/-- A flow is aborted by its first part, or by the second from where the first went on to. -/
theorem Flow.andThen_eq_aborted {f : Flow} {g : State → Flow} {t : State} (h : f.andThen g = .aborted t) :
    f = .aborted t ∨ ∃ s, f = .more s ∧ g s = .aborted t := by
  cases f with
  | more s => exact .inr ⟨s, rfl, h⟩
  | aborted s => exact .inl h
  | faulted r => cases h

/-- An outcome is a next state exactly where the flow went on or was aborted. -/
theorem Flow.outcome_eq_next {f : Flow} {t : State} (h : f.outcome = .next t) : f = .more t ∨ f = .aborted t := by
  cases f with
  | more s => cases h; exact .inl rfl
  | aborted s => cases h; exact .inr rfl
  | faulted r => cases h

/-! ### Appending bytes -/

@[simp] theorem pushBytes_nil (s : State) : pushBytes [] s = s := by
  simp [pushBytes, Memory.putBytes]

theorem toNat_add_of_le {x c : Word} {k : Nat} (h : x.toNat + k ≤ c.toNat) :
    (x + BitVec.ofNat 32 k).toNat = x.toNat + k := by
  have := c.isLt
  simp only [BitVec.toNat_add, BitVec.toNat_ofNat]
  omega

theorem pushBytes_o_toNat {bs : List Byte} {s : State} (h : s.o.toNat + bs.length ≤ s.cfg.outCap.toNat) :
    (pushBytes bs s).o.toNat = s.o.toNat + bs.length := toNat_add_of_le h

theorem pushBytes_append {xs ys : List Byte} {s : State} (h : s.o.toNat + xs.length ≤ s.cfg.outCap.toNat) :
    pushBytes (xs ++ ys) s = pushBytes ys (pushBytes xs s) := by
  have ho := pushBytes_o_toNat h
  simp only [pushBytes] at ho
  simp only [pushBytes, Memory.putBytes_append, List.length_append, State.mk.injEq, true_and, and_true, ho]
  rw [BitVec.add_assoc, BitVec.ofNat_add]

theorem emit_fits {b : Byte} {s : State} (h : s.o.toNat < s.cfg.outCap.toNat) : emit b s = .more (pushByte b s) := by
  have : ¬(s.cfg.outCap ≤ s.o) := by simp only [BitVec.le_def]; omega
  simp [emit, this]

theorem emit_overflows {b : Byte} {s : State} (h : s.cfg.outCap.toNat ≤ s.o.toNat) :
    emit b s = .aborted (raise .outOverflow s) := by
  have : s.cfg.outCap ≤ s.o := by simpa only [BitVec.le_def] using h
  simp [emit, this]

theorem pushBytes_cons {b : Byte} {bs : List Byte} {s : State} (h : s.o.toNat < s.cfg.outCap.toNat) :
    pushBytes (b :: bs) s = pushBytes bs (pushByte b s) :=
  pushBytes_append (xs := [b]) (by simpa using h)

/-- Bytes that fit are appended, and nothing else happens. -/
theorem emits_fits {bs : List Byte} {s : State} (h : s.o.toNat + bs.length ≤ s.cfg.outCap.toNat) :
    emits bs s = .more (pushBytes bs s) := by
  induction bs generalizing s with
  | nil => simp [emits]
  | cons b bs ih =>
    simp only [List.length_cons] at h
    have h1 : s.o.toNat < s.cfg.outCap.toNat := by omega
    have h2 : (pushByte b s).o.toNat = s.o.toNat + 1 :=
      toNat_add_of_le (k := 1) (c := s.cfg.outCap) (by omega)
    rw [emits, emit_fits h1, Flow.more_andThen, ih (by simp only [pushByte_cfg, h2]; omega), pushBytes_cons h1]

/-- Bytes that do not fit: those that do are written, and then ERR_OUT_OVERFLOW is raised. -/
theorem emits_overflows {bs : List Byte} {s : State} (hne : bs ≠ [])
    (h : s.cfg.outCap.toNat < s.o.toNat + bs.length) :
    emits bs s = .aborted (raise .outOverflow (pushBytes (bs.take (s.cfg.outCap.toNat - s.o.toNat)) s)) := by
  induction bs generalizing s with
  | nil => exact absurd rfl hne
  | cons b bs ih =>
    simp only [List.length_cons] at h
    by_cases h1 : s.o.toNat < s.cfg.outCap.toNat
    · have h2 : (pushByte b s).o.toNat = s.o.toNat + 1 :=
        toNat_add_of_le (k := 1) (c := s.cfg.outCap) (by omega)
      have hne' : bs ≠ [] := by rintro rfl; simp at h; omega
      have h3 : s.cfg.outCap.toNat - s.o.toNat = (s.cfg.outCap.toNat - (s.o.toNat + 1)) + 1 := by omega
      rw [emits, emit_fits h1, Flow.more_andThen, ih hne' (by simp only [pushByte_cfg, h2]; omega), pushByte_cfg, h2, h3,
        List.take_succ_cons, pushBytes_cons h1]
    · have h2 : s.cfg.outCap.toNat - s.o.toNat = 0 := by omega
      rw [emits, emit_overflows (by omega), Flow.aborted_andThen, h2, List.take_zero, pushBytes_nil]

theorem emits_append (xs ys : List Byte) (s : State) : emits (xs ++ ys) s = (emits xs s).andThen (emits ys) := by
  induction xs generalizing s with
  | nil => rfl
  | cons x xs ih =>
    rw [List.cons_append, emits, emits, Flow.andThen_assoc]
    congr 1
    funext t
    exact ih t

/-- R111: the copies of a pixel are its four bytes, over and over. -/
theorem emitCopies_eq (p : Pixel) (k : Nat) (s : State) :
    emitCopies p k s = emits (List.replicate k (pixelBytes p)).flatten s := by
  induction k generalizing s with
  | zero => rfl
  | succ k ih =>
    rw [List.replicate_succ, List.flatten_cons, emits_append, emitCopies]
    congr 1
    funext t
    exact ih t

@[simp] theorem length_copies (p : Pixel) (k : Nat) : (List.replicate k (pixelBytes p)).flatten.length = 4 * k := by
  simp [pixelBytes, Nat.mul_comm]

/-- Everything emits can do: the bytes are appended, or some of them and then the overflow error. -/
theorem emits_cases (bs : List Byte) (s : State) :
    (emits bs s = .more (pushBytes bs s) ∧ (bs = [] ∨ s.o.toNat + bs.length ≤ s.cfg.outCap.toNat)) ∨
      (emits bs s = .aborted (raise .outOverflow (pushBytes (bs.take (s.cfg.outCap.toNat - s.o.toNat)) s)) ∧
        bs ≠ [] ∧ s.cfg.outCap.toNat < s.o.toNat + bs.length) := by
  by_cases hne : bs = []
  · subst hne; exact .inl ⟨by simp [emits], .inl rfl⟩
  · by_cases h : s.o.toNat + bs.length ≤ s.cfg.outCap.toNat
    · exact .inl ⟨emits_fits h, .inr h⟩
    · exact .inr ⟨emits_overflows hne (by omega), hne, by omega⟩

end Sys2Proof.Machine
end

