-- ==== Sys2Proof/Laws/Chunk.lean ====
section
/-! SUPPORT. The chunk step (42_decoder.md R110): what the common tail does, and that every chunk is one tail. -/

namespace Sys2Proof.Machine

/-- The state after a tail whose bytes fit. -/
def tailDone (p : Pixel) (count length : Nat) (s : State) : State :=
  { slotWrite p (pushBytes (List.replicate count (pixelBytes p)).flatten { s with px := p }) with
    ptr := s.ptr + BitVec.ofNat 32 length }

/-- The state after a tail whose bytes do not fit. -/
def tailRaised (p : Pixel) (count : Nat) (s : State) : State :=
  raise .outOverflow
    (pushBytes ((List.replicate count (pixelBytes p)).flatten.take (s.cfg.outCap.toNat - s.o.toNat)) { s with px := p })

theorem chunkTail_fits {p : Pixel} {count length : Nat} {s : State}
    (h : s.o.toNat + 4 * count ≤ s.cfg.outCap.toNat) :
    chunkTail p count length s = .more (tailDone p count length s) := by
  rw [chunkTail, emitCopies_eq, emits_fits (by rw [length_copies]; exact h)]
  rfl

theorem chunkTail_overflows {p : Pixel} {count length : Nat} {s : State} (hc : count ≠ 0)
    (h : s.cfg.outCap.toNat < s.o.toNat + 4 * count) :
    chunkTail p count length s = .aborted (tailRaised p count s) := by
  have hne : (List.replicate count (pixelBytes p)).flatten ≠ [] := by
    intro he
    have := congrArg List.length he
    rw [length_copies] at this
    exact hc (by simpa using this)
  rw [chunkTail, emitCopies_eq, emits_overflows hne (by rw [length_copies]; exact h)]
  rfl

theorem chunkTail_none {p : Pixel} {length : Nat} {s : State} :
    chunkTail p 0 length s = .more (tailDone p 0 length s) := by
  simp [chunkTail, emitCopies, tailDone]

/-- Everything a tail can do. -/
theorem chunkTail_cases (p : Pixel) (count length : Nat) (s : State) :
    (chunkTail p count length s = .more (tailDone p count length s) ∧
        (count = 0 ∨ s.o.toNat + 4 * count ≤ s.cfg.outCap.toNat)) ∨
      (chunkTail p count length s = .aborted (tailRaised p count s) ∧ count ≠ 0 ∧
        s.cfg.outCap.toNat < s.o.toNat + 4 * count) := by
  by_cases hc : count = 0
  · subst hc; exact .inl ⟨chunkTail_none, .inl rfl⟩
  · by_cases h : s.o.toNat + 4 * count ≤ s.cfg.outCap.toNat
    · exact .inl ⟨chunkTail_fits h, .inr h⟩
    · exact .inr ⟨chunkTail_overflows hc (by omega), hc, by omega⟩

/-! ### Every chunk is one tail -/

/-- The pixel a chunk gives in a state. -/
def execPixel (i : Instr) (s : State) : Pixel :=
  match i with
  | .index idx => (indexRead idx s).1
  | .diff dR dG dB => applyDiff dR dG dB s.px
  | .luma dG dRG dBG => applyLuma dG dRG dBG s.px
  | .run _ => s.px
  | .rgb r g b => applyRgb r g b s.px
  | .rgba r g b a => applyRgba r g b a

/-- The state after a chunk has read the cache (INDEX only). -/
def execRead (i : Instr) (s : State) : State :=
  match i with
  | .index idx => (indexRead idx s).2
  | .diff _ _ _ | .luma _ _ _ | .run _ | .rgb _ _ _ | .rgba _ _ _ _ => s

/-- How often a chunk's pixel is appended (R111). -/
def execCount (i : Instr) : Nat :=
  match i with
  | .run count => count
  | .index _ | .diff _ _ _ | .luma _ _ _ | .rgb _ _ _ | .rgba _ _ _ _ => 1

/-- How far a chunk moves ptr (R64, R119). -/
def execLength (i : Instr) : Nat :=
  match i with
  | .index _ | .diff _ _ _ | .run _ => 1
  | .luma _ _ _ => 2
  | .rgb _ _ _ => 4
  | .rgba _ _ _ _ => 5

theorem exec_eq_tail (i : Instr) (s : State) :
    exec i s = (chunkTail (execPixel i s) (execCount i) (execLength i) (execRead i s)).outcome := by
  cases i <;> rfl

/-- INDEX of a valid slot reads it and changes nothing else; INDEX of an absent slot draws a pixel and sets ABS. -/
theorem indexRead_cases (idx : BitVec 6) (s : State) :
    ((slotRead s.cache idx).valid = true ∧ indexRead idx s = ((slotRead s.cache idx).px, s)) ∨
      ((slotRead s.cache idx).valid = false ∧
        indexRead idx s =
          (Config.absentPixel s.draws (slotRead s.cache idx).px, { flagAbsent s with draws := s.draws + 1 })) := by
  cases h : (slotRead s.cache idx).valid with
  | true => exact .inl ⟨rfl, by simp [indexRead, h]⟩
  | false => exact .inr ⟨rfl, by simp [indexRead, h, absentRead]⟩

/-- What reading the cache leaves: the state, or the state with ABS set and one more draw. -/
theorem execRead_cases (i : Instr) (s : State) :
    execRead i s = s ∨ execRead i s = { flagAbsent s with draws := s.draws + 1 } := by
  cases i with
  | index idx =>
    rcases indexRead_cases idx s with ⟨_, h⟩ | ⟨_, h⟩
    · exact .inl (by simp [execRead, h])
    · exact .inr (by simp [execRead, h])
  | diff dR dG dB => exact .inl rfl
  | luma dG dRG dBG => exact .inl rfl
  | run count => exact .inl rfl
  | rgb r g b => exact .inl rfl
  | rgba r g b a => exact .inl rfl

/-- Everything a chunk can do, once: it is done, or OUT overflows. No chunk stops the machine. -/
theorem exec_cases (i : Instr) (s : State) :
    (exec i s = .next (tailDone (execPixel i s) (execCount i) (execLength i) (execRead i s)) ∧
        (execCount i = 0 ∨ s.o.toNat + 4 * execCount i ≤ s.cfg.outCap.toNat)) ∨
      (exec i s = .next (tailRaised (execPixel i s) (execCount i) (execRead i s)) ∧ execCount i ≠ 0 ∧
        s.cfg.outCap.toNat < s.o.toNat + 4 * execCount i) := by
  have ho : (execRead i s).o = s.o ∧ (execRead i s).cfg = s.cfg := by
    rcases execRead_cases i s with h | h <;> rw [h] <;> exact ⟨rfl, rfl⟩
  rw [exec_eq_tail]
  rcases chunkTail_cases (execPixel i s) (execCount i) (execLength i) (execRead i s) with ⟨h, hc⟩ | ⟨h, h0, hc⟩
  · rw [ho.1, ho.2] at hc
    exact .inl ⟨by rw [h, Flow.more_outcome], hc⟩
  · rw [ho.1, ho.2] at hc
    exact .inr ⟨by rw [h, Flow.aborted_outcome], h0, hc⟩

end Sys2Proof.Machine
end

