-- ==== Sys2Proof/Laws/Decode.lean ====
section
/-! SUPPORT. The recognizer and the decoder: the six ranges of tags, and what decoding a whole chunk gives. -/

namespace Sys2Proof

/-- Everything the recognizer can answer, by the tag's range (R76). -/
theorem classify_cases (b : Byte) :
    (classify b = (.index, 1) ∧ b.toNat < 0x40) ∨ (classify b = (.diff, 1) ∧ 0x40 ≤ b.toNat ∧ b.toNat < 0x80) ∨
      (classify b = (.luma, 2) ∧ 0x80 ≤ b.toNat ∧ b.toNat < 0xC0) ∨
        (classify b = (.run, 1) ∧ 0xC0 ≤ b.toNat ∧ b.toNat < 0xFE) ∨ (classify b = (.rgb, 4) ∧ b.toNat = 0xFE) ∨
          (classify b = (.rgba, 5) ∧ b.toNat = 0xFF) := by
  revert b; decide +kernel

/-- The low six bits of a RUN tag are at most 61 (R69). -/
theorem run_field_le (b : Byte) (h : 0xC0 ≤ b.toNat) (h' : b.toNat < 0xFE) : (b.extractLsb' 0 6).toNat ≤ 61 := by
  revert b; decide +kernel

@[simp] theorem inRange_iff (lo hi v : Int) : inRange lo hi v = true ↔ lo ≤ v ∧ v ≤ hi := by
  simp only [inRange, Bool.and_eq_true, decide_eq_true_eq]

/-- A biased field lies in the range its width and bias give. -/
theorem biased_inRange {w : Nat} (f : BitVec w) (bias : Int) : inRange (-bias) (2 ^ w - 1 - bias) (biased f bias) = true := by
  have h : (f.toNat : Int) < (2 : Int) ^ w := by exact_mod_cast f.isLt
  generalize (2 : Int) ^ w = m at h ⊢
  rw [inRange_iff, biased]
  omega

theorem diffOperands_wellFormed (tag : Byte) : (diffOperands tag).wellFormed = true := by
  have h := fun f : BitVec 2 => biased_inRange f 2
  simp only [diffOperands, Instr.wellFormed, Bool.and_eq_true]
  exact ⟨⟨h _, h _⟩, h _⟩

theorem lumaOperands_wellFormed (tag b2 : Byte) : (lumaOperands tag b2).wellFormed = true := by
  have h6 := fun f : BitVec 6 => biased_inRange f 32
  have h4 := fun f : BitVec 4 => biased_inRange f 8
  simp only [lumaOperands, Instr.wellFormed, Bool.and_eq_true]
  exact ⟨⟨h6 _, h4 _⟩, h4 _⟩

theorem runOperands_wellFormed (tag : Byte) (h : 0xC0 ≤ tag.toNat) (h' : tag.toNat < 0xFE) :
    (runOperands tag).wellFormed = true := by
  have := run_field_le tag h h'
  simp only [runOperands, Instr.wellFormed, Bool.and_eq_true, decide_eq_true_eq]
  omega

end Sys2Proof
end

