-- ==== Sys2Proof/Laws/Job.lean ====
section
/-! SUPPORT. Reading IN, what OUT holds, fetching a chunk or a pixel, the parameter check, the CSR decoder, and whose turn
a step is. -/

namespace Sys2Proof.Machine

/-! ### Reading IN -/

/-- Reset memory is in canonical form. -/
theorem reset_memory_wf : State.reset.inBuf.wf = true ∧ State.reset.outBuf.wf = true := ⟨rfl, rfl⟩

@[simp] theorem inBytes_length (s : State) (off k : Nat) : (inBytes s off k).length = k := by
  induction k generalizing off with
  | zero => rfl
  | succ k ih => simp [inBytes, ih]

/-- R47: a read inside L and IN_CAP gives the bytes there; any other gives none. -/
theorem memRead_eq (s : State) (off k : Nat) :
    memRead s off k = if off + k ≤ s.len.toNat ∧ off + k ≤ s.cfg.inCap.toNat then some (inBytes s off k) else none := rfl

/-- R60: a byte the host puts into IN is what is read there; every other byte is as before. -/
theorem inByte_put (s : State) (off : Nat) (b : Byte) (a : Nat) :
    inByte { s with inBuf := s.inBuf.put off b } a = if a = off then b else inByte s a := by
  simp only [inByte, Memory.byteAt_put]
  split <;> rfl

/-! ### What OUT holds (R48) -/

/-- A byte listed is the one OUT holds. -/
theorem outByte_listed {s : State} {off : Nat} {b : Byte} (h : s.outBuf.byteAt off = some b) : outByte s off = b := by
  rw [outByte, h, Option.getD_some]

/-- Bytes appended to OUT are what it holds there; every other byte is as before. -/
theorem outByte_pushBytes (bs : List Byte) (s : State) (a : Nat) :
    outByte (pushBytes bs s) a =
      if s.o.toNat ≤ a ∧ a < s.o.toNat + bs.length then bs[a - s.o.toNat]?.getD (outByte s a) else outByte s a := by
  simp only [outByte, pushBytes_outBuf, pushBytes_outEpoch, Memory.byteAt_putBytes]
  split
  · rename_i h
    have : a - s.o.toNat < bs.length := by omega
    simp only [List.getElem?_eq_getElem this, Option.getD_some]
  · rfl

/-- Where OUT's epoch is kept, an offset that lists what it did holds what it did. -/
theorem outKeeps_of_byteAt {s t : State} {a : Nat} (he : t.outEpoch = s.outEpoch)
    (h : t.outBuf.byteAt a = s.outBuf.byteAt a) : OutKeeps s t a := ⟨h, by rw [outByte, outByte, h, he]⟩

theorem OutKeeps.trans {s t u : State} {a : Nat} (h : OutKeeps s t a) (h' : OutKeeps t u a) : OutKeeps s u a :=
  ⟨h'.1.trans h.1, h'.2.trans h.2⟩

/-! ### Fetching -/

/-- R46, R77: with 5 bytes left below L a chunk is fetched, and it is well-formed. -/
theorem fetchChunk_ok {s : State} (h : s.ptr.toNat + 5 ≤ s.len.toNat) (h' : s.len.toNat ≤ s.cfg.inCap.toNat) :
    ∃ i, fetchChunk s = .ok i ∧ i.wellFormed = true := by
  have hd := classify_cases (inByte s s.ptr.toNat)
  unfold fetchChunk memRead
  generalize hg : inByte s s.ptr.toNat = b at hd ⊢
  rcases hd with ⟨e, hb⟩ | ⟨e, hb, hb2⟩ | ⟨e, hb, hb2⟩ | ⟨e, hb, hb2⟩ | ⟨e, hb⟩ | ⟨e, hb⟩ <;> rw [e] <;>
    rw [if_pos (by simp only; omega)] <;> simp only [inBytes, hg, decode, e, List.take, Nat.reduceSub, assembleOperands]
  · exact ⟨_, rfl, rfl⟩
  · exact ⟨_, rfl, diffOperands_wellFormed _⟩
  · exact ⟨_, rfl, lumaOperands_wellFormed _ _⟩
  · exact ⟨_, rfl, runOperands_wellFormed _ hb hb2⟩
  · exact ⟨_, rfl, rfl⟩
  · exact ⟨_, rfl, rfl⟩

/-- R132: a pixel that exists in IN, in a legal channel mode, is the one the pixel step fetches. -/
theorem fetchPixel_of_fetched {s : State} {cur : Pixel} (h : Fetched s cur) : fetchPixel s = .ok cur := by
  obtain ⟨hc, h, h', rfl⟩ := h
  rcases hc with e | e
  · have h3 : s.ch.toNat = 3 := by rw [e]; rfl
    rw [h3] at h
    rw [fetchPixel, if_neg (by simp [e]), h3, memRead, if_pos (by omega), Nat.mul_comm]
    simp only [inBytes, inputPixel, e, if_true]
  · have h4 : s.ch.toNat = 4 := by rw [e]; rfl
    have h3 : s.ch ≠ 3 := by rw [e]; decide
    rw [h4] at h
    rw [fetchPixel, if_neg (by simp [e]), h4, memRead, if_pos (by omega), Nat.mul_comm]
    simp only [inBytes, inputPixel, h3, if_false]

/-! ### Parameters and the CSR decoder -/

/-- R130: what the three checks ask for. -/
theorem paramsOk_iff (s : State) :
    paramsOk s = true ↔
      s.len.toNat ≤ s.cfg.inCap.toNat ∧ (s.ch = 3 ∨ s.ch = 4) ∧ s.len.toNat % s.ch.toNat = 0 := by
  unfold paramsOk
  rw [Bool.and_eq_true, Bool.and_eq_true, Bool.or_eq_true, decide_eq_true_eq, decide_eq_true_eq, decide_eq_true_eq,
    decide_eq_true_eq, BitVec.le_def, and_assoc]

/-- An aligned word access inside the block reaches the register of its offset. -/
theorem csrSelect_word (s : State) {off : Nat} (h : off % 4 = 0) :
    csrSelect s (s.cfg.csrBase + off) .word = .ok (csrAt off) := by
  have h1 : ¬(s.cfg.csrBase + off < s.cfg.csrBase) := by omega
  have h2 : s.cfg.csrBase + off - s.cfg.csrBase = off := by omega
  simp only [csrSelect, h1, h2, h, if_false, and_self, if_true]

/-- R41: every offset from 0x2C on holds no register. -/
theorem csrAt_unmapped {off : Nat} (h : 0x2C ≤ off) : csrAt off = .unmapped := by
  have n : ∀ k, k < 0x2C → off ≠ k := fun k hk e => by omega
  simp only [csrAt, n 0x00 (by decide), n 0x04 (by decide), n 0x08 (by decide), n 0x0C (by decide), n 0x10 (by decide),
    n 0x14 (by decide), n 0x18 (by decide), n 0x1C (by decide), n 0x20 (by decide), n 0x24 (by decide),
    n 0x28 (by decide), if_false]

/-! ### What the host sees (R58) -/

theorem resultsVisible_iff (s : State) : resultsVisible s = true ↔ s.jobState ≠ .busy ∧ s.observed = true := by
  simp only [resultsVisible, Bool.and_eq_true, decide_eq_true_eq]

/-- Once the end of the job has been observed a register shows what it holds. -/
theorem csrShown_visible {s : State} (h : s.jobState ≠ .busy) (ho : s.observed = true) (r : Csr) :
    csrShown s r = csrHeld s r := by
  rw [csrShown, if_pos ((resultsVisible_iff s).mpr ⟨h, ho⟩)]

/-- STATUS shows its fields in every state (R31). -/
@[simp] theorem csrShown_status (s : State) : csrShown s .status = statusWord s := by
  simp only [csrShown, csrShownUnordered, csrHeld, ite_self]

/-- R48, R58: outside ERROR, once the end of the job has been observed, a read of OUT shows the byte OUT holds. -/
theorem outShown_visible {s : State} (h : s.jobState ≠ .busy) (he : s.jobState ≠ .error) (ho : s.observed = true)
    (off : Nat) : outShown s off = outByte s off := by
  have hv := (resultsVisible_iff s).mpr ⟨h, ho⟩
  simp only [outShown, hv, he, Bool.true_eq_false, or_self, if_false]

/-! ### Whose turn a step is -/

theorem step_core {s : State} (h : s.turns = []) : step s = coreStep s := by
  simp only [step, takeTurn, h]

theorem step_core_listed {s : State} {ts : List Turn} (h : s.turns = .core :: ts) :
    step s = coreStep { s with turns := ts } := by
  simp only [step, takeTurn, h]

theorem step_host {s : State} {op : HostOp} {ts : List Turn} (h : s.turns = .host op :: ts) :
    step s = hostStep op { s with turns := ts } := by
  simp only [step, takeTurn, h]

/-- R15, R171: the core's turn changes nothing unless a job runs. -/
theorem coreStep_idle {s : State} (h : s.jobState ≠ .busy) : coreStep s = .next s := by
  unfold coreStep
  split
  · rename_i hb; exact absurd hb h
  · rfl
  · rfl
  · rfl

end Sys2Proof.Machine
end

