-- ==== Sys2Proof/Laws/PerInstr.lean ====
section
/-! SUPPORT. What holds of every chunk type as syntax, one lemma for each (30_encoding.md R81): the tag byte of a packed
chunk is classified as that chunk's type, with that chunk's length. -/

namespace Sys2Proof

/-- R81: "`classify(first byte of pack_T(...))` returns type T and the length of the packed sequence". -/
def Laws.TagOfPacked.Statement (i : Instr) : Prop :=
  i.wellFormed = true → (encode i).head?.map classify = some (i.chunkType, (encode i).length)

theorem Laws.TagOfPacked.index (idx : BitVec 6) : Laws.TagOfPacked.Statement (.index idx) := by
  intro _
  revert idx
  decide +kernel

theorem Laws.TagOfPacked.diff (dR dG dB : Int) : Laws.TagOfPacked.Statement (.diff dR dG dB) := by
  intro h
  simp only [Instr.wellFormed, Bool.and_eq_true, inRange_iff] at h
  obtain ⟨⟨⟨_, _⟩, _, _⟩, _, _⟩ := h
  interval_cases dR <;> interval_cases dG <;> interval_cases dB <;> rfl

/-- The tag byte of a LUMA chunk, for each green delta. -/
theorem luma_tag_classified (dG : Int) (h : -32 ≤ dG) (h' : dG ≤ 31) :
    classify (0x80#8 ||| BitVec.ofInt 8 (dG + 32)) = (.luma, 2) := by
  interval_cases dG <;> rfl

theorem Laws.TagOfPacked.luma (dG dRG dBG : Int) : Laws.TagOfPacked.Statement (.luma dG dRG dBG) := by
  intro h
  simp only [Instr.wellFormed, Bool.and_eq_true, inRange_iff] at h
  simp [encode, packLuma, Instr.chunkType, luma_tag_classified dG h.1.1.1 h.1.1.2]

theorem Laws.TagOfPacked.run (count : Nat) : Laws.TagOfPacked.Statement (.run count) := by
  intro h
  simp only [Instr.wellFormed, Bool.and_eq_true, decide_eq_true_eq] at h
  obtain ⟨_, _⟩ := h
  interval_cases count <;> rfl

theorem Laws.TagOfPacked.rgb (r g b : Byte) : Laws.TagOfPacked.Statement (.rgb r g b) := fun _ => rfl

theorem Laws.TagOfPacked.rgba (r g b a : Byte) : Laws.TagOfPacked.Statement (.rgba r g b a) := fun _ => rfl

end Sys2Proof
end

