-- ==== Sys2Proof/Tests/Slice0.lean ====
section
/-! SUPPORT. Tests from the spec's own words, examples and vectors (95_test_vectors.md), and for every statement with
hypotheses a state that meets them. -/

set_option Elab.async false

namespace Sys2Proof.Tests

open Sys2Proof.Machine

/-! ### Well-formedness (R82): each check refuses an operand on either side of its range -/

theorem test_diff_ranges :
    assemble (.diff (-3) 0 0) = none ∧ assemble (.diff 2 0 0) = none ∧ assemble (.diff 0 (-3) 0) = none ∧
      assemble (.diff 0 2 0) = none ∧ assemble (.diff 0 0 (-3)) = none ∧ assemble (.diff 0 0 2) = none ∧
      assemble (.diff (-2) 1 (-2)) = some [0b01_00_11_00] := by decide

theorem test_luma_ranges :
    assemble (.luma (-33) 0 0) = none ∧ assemble (.luma 32 0 0) = none ∧ assemble (.luma 0 (-9) 0) = none ∧
      assemble (.luma 0 8 0) = none ∧ assemble (.luma 0 0 (-9)) = none ∧ assemble (.luma 0 0 8) = none ∧
      assemble (.luma (-32) 7 (-8)) = some [0x80, 0xF0] := by decide

theorem test_run_range :
    assemble (.run 0) = none ∧ assemble (.run 63) = none ∧ assemble (.run 1) = some [0xC0] ∧
      assemble (.run 62) = some [0xFD] := by decide

theorem test_stream_with_bad_line_refused : assembleStream 1 1 4 0 [.run 1, .run 63] = none := by decide

/-- Program P2's stream is P1's 37 bytes. -/
theorem test_stream :
    assembleStream 8 1 4 0
        [.run 1, .diff 1 0 0, .rgb 10 20 30, .luma 2 0 (-1), .rgba 12 22 31 128, .index 9, .run 2] =
      some [0x71, 0x6F, 0x69, 0x66, 0, 0, 0, 8, 0, 0, 0, 1, 4, 0, 0xC0, 0x7A, 0xFE, 0x0A, 0x14, 0x1E, 0xA2, 0x87, 0xFF,
        0x0C, 0x16, 0x1F, 0x80, 0x09, 0xC1, 0, 0, 0, 0, 0, 0, 0, 1] := by decide

/-! ### Decoding: words written out from the encodings of R64–R75 -/

theorem test_decode_index : decodeTableWord 8 0b00_001001 = some (.index 9) := by decide
theorem test_decode_diff : decodeTableWord 8 0b01_11_10_00 = some (.diff 1 0 (-2)) := by decide
theorem test_decode_luma : decodeTableWord 16 0b1111_0000_10_000000 = some (.luma (-32) 7 (-8)) := by decide
theorem test_decode_run : decodeTableWord 8 0b11_000001 = some (.run 2) := by decide
theorem test_decode_rgb : decodeTableWord 32 0x1E_14_0A_FE = some (.rgb 0x0A 0x14 0x1E) := by decide
theorem test_decode_rgba : decodeTableWord 40 0x04_03_02_01_FF = some (.rgba 1 2 3 4) := by decide
theorem test_decode_missing_operand : decode [0xFE, 1, 2] = .rejected (.operandsMissing .rgb) := by decide

/-! ### Small machines -/

/-- The next state of an outcome, or else `s`. -/
def nextOr (s : State) : Host.Outcome State Fault Refusal → State
  | .next t => t
  | .fault _ => s
  | .refused _ => s

/-- Whether an outcome is a next state. -/
def isNext : Host.Outcome State Fault Refusal → Bool
  | .next _ => true
  | .fault _ => false
  | .refused _ => false

theorem eq_next {o : Host.Outcome State Fault Refusal} (s : State) (h : isNext o = true) : o = .next (nextOr s o) := by
  cases o with
  | next t => rfl
  | fault f => cases h
  | refused r => cases h

/-- The state after one step. -/
def after (s : State) : State := nextOr s (step s)

/-- The state after `k` steps. -/
def afterSteps (k : Nat) (s : State) : State := nextOr s (Host.Core.run Sys2Proof.core k s)

/-- The machine after reset, with other capacities. -/
def small (inCap outCap : Word) : State := State.resetWith ⟨inCap, outCap, ⟨0, 0, 0, 0⟩, 0⟩

/-- A DECODE job about to run the chunk of `nbits` bits `w`, with PX = `px` and `px` cached. -/
def decoding (px : Pixel) (nbits w : Nat) : State := slotWrite px { State.reset.withFetchWord nbits w with px := px }

/-- An ENCODE job of CH-channel pixels `bytes`, after its header step, with IN as given, at pixel `i`, previous pixel
`px`, and OUT_CAP = 64. -/
def encoding (ch : Byte) (bytes : List Byte) (i : Word) (px : Pixel) : State :=
  { small 0xFFFF 64 with
    jobState := .busy, observed := false, phase := .body, encChannels := ch, ch := ch, inLen := BitVec.ofNat 32 bytes.length
    len := BitVec.ofNat 32 bytes.length, n := BitVec.ofNat 32 (bytes.length / ch.toNat), i := i, px := px, o := 14
    inBuf := Memory.putBytes [] 0 bytes, outBuf := Memory.putBytes [] 0 (headerBytes 0 0 ch 0) }

/-- What a pixel step has appended after the header. -/
def appended (s : State) : List (Option Byte) := (List.range (s.o.toNat - 14)).map fun k => s.outBuf.byteAt (14 + k)

/-- A machine with one host access listed. -/
def asked (op : HostOp) (s : State) : State := { s with turns := [.host op] }

/-- STATUS, as the host reads it at CSR_BASE + 4. -/
def status (s : State) : Option Response := (after (asked (.csrRead 4 .word) s)).response

/-! ### The chunks, decoded (R113–R118, vectors V20–V42) -/

/-- V37: INDEX 9 over a cached (10,20,30,255). -/
theorem test_index :
    let t := after (slotWrite ⟨10, 20, 30, 255⟩ (decoding ⟨11, 20, 30, 255⟩ 8 0x09))
    t.px = ⟨10, 20, 30, 255⟩ ∧ t.outBuf.byteAt 0 = some 10 ∧ t.outBuf.byteAt 3 = some 255 ∧ t.ptr = 15 ∧
      t.absIdx = false := by decide

/-- V38: INDEX of an absent slot sets ABSENT_IDX and the job goes on. -/
theorem test_index_absent :
    let t := after (State.reset.withFetchWord 8 0x05)
    t.absIdx = true ∧ t.jobState = .busy ∧ t.o = 4 ∧ t.ptr = 15 := by decide

/-- V28: DIFF +1,0,0 wraps red and keeps the rest. -/
theorem test_diff_wraps :
    let t := after (decoding ⟨255, 255, 255, 255⟩ 8 0x7A)
    t.px = ⟨0, 255, 255, 255⟩ ∧ t.ptr = 15 ∧ t.o = 4 := by decide

/-- V29: DIFF -1,-1,-1 keeps alpha 4. -/
theorem test_diff_keeps_alpha : (after (decoding ⟨1, 2, 3, 4⟩ 8 0x55)).px = ⟨0, 1, 2, 4⟩ := by decide

/-- V30: LUMA -32,-8,-8 from the initial pixel; slot 5 is written. -/
theorem test_luma :
    let t := after (State.reset.withFetchWord 16 0x0080)
    t.px = ⟨216, 224, 216, 255⟩ ∧ t.ptr = 16 ∧ slotRead t.cache 5 = ⟨true, ⟨216, 224, 216, 255⟩⟩ := by decide

/-- V36: RUN 2 appends two copies and keeps PX; slot 9 holds it. -/
theorem test_run :
    let t := after { decoding ⟨10, 20, 30, 255⟩ 8 0xC1 with cache := Cache.absent ⟨0, 0, 0, 0⟩ }
    t.px = ⟨10, 20, 30, 255⟩ ∧ t.o = 8 ∧ t.outBuf.byteAt 4 = some 10 ∧ t.outBuf.byteAt 7 = some 255 ∧ t.ptr = 15 ∧
      slotRead t.cache 9 = ⟨true, ⟨10, 20, 30, 255⟩⟩ := by decide

/-- V94: RUN 2 with OUT_CAP = 4 overflows at the fifth byte. -/
theorem test_run_overflows :
    let t := after ((small 0xFFFF 4).withFetchWord 8 0xC1)
    t.jobState = .error ∧ t.err = .outOverflow ∧ t.outLen = 0 ∧ t.pixCount = 0 := by decide

/-- V21: RGB keeps alpha 4. -/
theorem test_rgb :
    let t := after (decoding ⟨1, 2, 3, 4⟩ 32 0x070605FE)
    t.px = ⟨5, 6, 7, 4⟩ ∧ t.ptr = 18 ∧ t.outBuf.byteAt 3 = some 4 := by decide

/-- V20: RGBA; slot 14 is written. -/
theorem test_rgba :
    let t := after (State.reset.withFetchWord 40 0x04030201FF)
    t.px = ⟨1, 2, 3, 4⟩ ∧ t.ptr = 19 ∧ slotRead t.cache 14 = ⟨true, ⟨1, 2, 3, 4⟩⟩ := by decide

/-- V40: an RGBA tag whose operands are end-marker bytes; ptr passes L - 8. -/
theorem test_operands_in_end_marker :
    let s := { State.reset.withFetchWord 8 0xFF with len := 23, inLen := 23 }
    (after s).px = ⟨0, 0, 0, 0⟩ ∧ (after s).ptr = 19 ∧ (after (after s)).jobState = .done ∧
      (after (after s)).outLen = 4 ∧ (after (after s)).pixCount = 1 := by decide

/-! ### The chunks, encoded (R133–R146, vectors V44–V73) -/

/-- V56: a cached pixel is emitted as INDEX 9. -/
theorem test_encode_index :
    appended (after (slotWrite ⟨10, 20, 30, 255⟩ (encoding 4 [0, 0, 0, 0, 10, 20, 30, 255] 1 ⟨50, 60, 70, 255⟩))) =
      [some 0x09] := by decide

/-- V44 and V59a: DIFF +1,0,0, across the wrap too. -/
theorem test_encode_diff :
    appended (after (encoding 4 [1, 0, 0, 255] 0 ⟨0, 0, 0, 255⟩)) = [some 0x7A] ∧
      appended (after (encoding 4 [0, 0, 0, 255] 0 ⟨255, 0, 0, 255⟩)) = [some 0x7A] := by decide

/-- V46 and V59d: LUMA just outside DIFF, and with every field at its minimum. -/
theorem test_encode_luma :
    appended (after (encoding 4 [2, 0, 0, 255] 0 ⟨0, 0, 0, 255⟩)) = [some 0xA0, some 0xA8] ∧
      appended (after (encoding 4 [216, 224, 216, 255] 0 ⟨0, 0, 0, 255⟩)) = [some 0x80, some 0x00] := by
  decide

/-- V53: RGB just outside LUMA. V70: an RGB-mode pixel has alpha 255, so LUMA here. -/
theorem test_encode_rgb :
    appended (after (encoding 4 [8, 0, 0, 255] 0 ⟨0, 0, 0, 255⟩)) = [some 0xFE, some 8, some 0, some 0] ∧
      appended (after (encoding 3 [1, 2, 3] 0 ⟨0, 0, 0, 255⟩)) = [some 0xA2, some 0x79] := by decide

/-- V59: RGBA for (0,0,0,0); slot 0 is absent, so no INDEX. -/
theorem test_encode_rgba :
    appended (after (encoding 4 [0, 0, 0, 0] 0 ⟨0, 0, 0, 255⟩)) = [some 0xFF, some 0, some 0, some 0, some 0] := by
  decide

/-- V60: one repeat, the last pixel. V62: the 62nd repeat. V59f: a pending run goes first. -/
theorem test_encode_run :
    appended (after (encoding 4 [0, 0, 0, 255] 0 ⟨0, 0, 0, 255⟩)) = [some 0xC0] ∧
      appended (after { encoding 4 [0, 0, 0, 255, 0, 0, 0, 0] 0 ⟨0, 0, 0, 255⟩ with run := 61 }) = [some 0xFD] ∧
      appended (after { encoding 4 [5, 5, 5, 6] 0 ⟨5, 5, 5, 5⟩ with run := 1 }) =
        [some 0xC0, some 0xFF, some 5, some 5, some 5, some 6] := by decide

/-! ### Jobs, errors and the host (vectors V16, V80–V95, program P5) -/

/-- V16: the header. -/
theorem test_header :
    let t := after { encoding 3 [] 0 Pixel.initial with phase := .hdr, o := 0, wid := 0x01020304, hgt := 0xA0B0C0D0 }
    (List.range 14).map t.outBuf.byteAt =
      [0x71, 0x6F, 0x69, 0x66, 1, 2, 3, 4, 0xA0, 0xB0, 0xC0, 0xD0, 3, 0].map some := by decide

/-- The start of a job: CTRL written with `v`, over IN_LEN = `len`, ENC_CHANNELS = `ch` and the bytes `bytes` in IN. -/
def starting (v len : Word) (ch : Byte) (bytes : List Byte) (s : State) : State :=
  asked (.csrWrite 0 .word v) { s with inLen := len, encChannels := ch, inBuf := Memory.putBytes [] 0 bytes }

/-- V80 to V89: STATUS after a START that fails. -/
theorem test_start_errors :
    status (after (starting 3 21 0 [] State.reset)) = some (.csr 4 0x33) ∧
      status (after (starting 3 22 0 [0x71, 0x6F, 0x69, 0x67] State.reset)) = some (.csr 4 0x13) ∧
      status (after (starting 3 17 0 [] (small 16 16))) = some (.csr 4 0x43) ∧
      status (after (starting 1 10 5 [] State.reset)) = some (.csr 4 0x43) ∧
      status (after (starting 1 7 3 [] State.reset)) = some (.csr 4 0x43) := by decide

/-- V85: a stream of 22 bytes decodes to no pixels: BUSY (0x01), then DONE (0x02). -/
theorem test_empty_decode :
    let s := after (starting 3 22 0 (headerBytes 0 0 4 0 ++ endMarker) State.reset)
    status s = some (.csr 4 0x01) ∧ status (after s) = some (.csr 4 0x02) ∧ (after s).outLen = 0 ∧
      (after s).hdrChannels = 4 := by decide

/-- R58: the STATUS read that returns DONE makes the results visible: HDR_INFO is then the 0x04 of V85. -/
theorem test_status_read_acquires :
    let d := after (after (starting 3 22 0 (headerBytes 0 0 4 0 ++ endMarker) State.reset))
    let p := after (asked (.csrRead 4 .word) d)
    d.jobState = .done ∧ d.observed = false ∧ p.observed = true ∧
      (after (asked (.csrRead 0x24 .word) p)).response = some (.csr 0x24 4) := by decide

/-- R106, R158: a START that fails has cleared ABS and stored MODE. -/
theorem test_failed_start_clears_abs :
    let t := after (starting 3 21 0 [] { State.reset with jobState := .done, absIdx := true })
    t.jobState = .error ∧ t.absIdx = false ∧ t.mode = .decode := by decide

/-- V92, V93: one pixel needs 23 bytes of OUT. -/
theorem test_out_cap :
    status (afterSteps 4 (starting 1 4 4 [1, 0, 0, 255] (small 64 22))) = some (.csr 4 0x53) ∧
      status (afterSteps 4 (starting 1 4 4 [1, 0, 0, 255] (small 64 23))) = some (.csr 4 0x02) ∧
      (afterSteps 4 (starting 1 4 4 [1, 0, 0, 255] (small 64 23))).outLen = 23 := by decide

/-- P6: a START while BUSY is ignored. -/
theorem test_start_while_busy :
    let s := State.reset.withFetchWord 8 0xC0
    (after (asked (.csrWrite 0 .word 1) s)).mode = .decode ∧ (after (asked (.csrWrite 0 .word 1) s)).ptr = 14 ∧
      (after (asked (.csrWrite 0x14 .word 4) s)).inLen = 27 := by decide

/-- R34, P5: ENC_CHANNELS holds its low byte. -/
theorem test_enc_channels :
    (after (asked (.csrRead 0x10 .word) (after (asked (.csrWrite 0x10 .word 0xABCD05) State.reset)))).response =
      some (.csr 0x10 5) := by decide

/-- V1, V2, V5, V12: hashes. -/
theorem test_hash :
    pixelHash ⟨0, 0, 0, 255⟩ = 53 ∧ pixelHash ⟨10, 20, 30, 255⟩ = 9 ∧ pixelHash ⟨255, 255, 255, 255⟩ = 38 ∧
      pixelHash ⟨12, 22, 31, 128⟩ = 43 := by decide

/-! ### Witnesses: for every statement with hypotheses a state and operands that meet them, at the boundaries of each clause -/

theorem witness_DecodeOfEncodeIsTheChunk : (Instr.diff (-2) 1 (-2)).wellFormed = true ∧ (Instr.run 62).wellFormed = true := by
  decide

theorem witness_EncodeOfDecodeIsTheBytes : decode [0xFE, 1, 2, 3, 4] = .chunk (.rgb 1 2 3) [4] := by decide

theorem witness_TagRangesSelectTheType :
    (0x00#8).toNat ≤ 0x3F ∧ (0x3F#8).toNat ≤ 0x3F ∧ (0x40 ≤ (0x40#8).toNat ∧ (0x7F#8).toNat ≤ 0x7F) ∧
      (0x80 ≤ (0x80#8).toNat ∧ (0xBF#8).toNat ≤ 0xBF) ∧ (0xC0 ≤ (0xC0#8).toNat ∧ (0xFD#8).toNat ≤ 0xFD) := by decide

theorem witness_DecodingTakesTheLengthOfTheTag :
    (classify 0xFF).2 ≤ [1#8, 2, 3, 4].length + 1 ∧ [1#8, 2, 3].length + 1 < (classify 0xFF).2 := by decide

theorem witness_HitNeedsValidAndEqual :
    (slotRead (Cache.absent ⟨0, 0, 0, 0⟩) (pixelHash ⟨0, 0, 0, 0⟩)).valid = false := by decide

/-- A chunk of one pixel, and a RUN of 62, with just enough room, and with one byte too little. -/
theorem witness_room :
    Room (small 64 4) 4 ∧ ¬Room (small 64 3) 4 ∧ Room (small 64 248) (4 * 62) ∧ ¬Room (small 64 247) (4 * 62) := by
  unfold Room; decide

/-- Tags at the ends of each range. -/
theorem witness_tags :
    (0x3F#8).extractLsb' 6 2 = 0b00#2 ∧ (0x40#8).extractLsb' 6 2 = 0b01#2 ∧ (0x7F#8).extractLsb' 6 2 = 0b01#2 ∧
      (0x80#8).extractLsb' 6 2 = 0b10#2 ∧ (0xBF#8).extractLsb' 6 2 = 0b10#2 ∧
      ((0xC0#8).extractLsb' 6 2 = 0b11#2 ∧ (0xC0 : Byte) ≠ 0xFE ∧ (0xC0 : Byte) ≠ 0xFF) ∧
      ((0xFD#8).extractLsb' 6 2 = 0b11#2 ∧ (0xFD : Byte) ≠ 0xFE ∧ (0xFD : Byte) ≠ 0xFF) := by decide

theorem witness_IndexChunkCopiesAValidSlot :
    (slotRead (slotWrite ⟨0, 0, 0, 255⟩ (small 64 4)).cache 53).valid = true ∧ Room (slotWrite ⟨0, 0, 0, 255⟩ (small 64 4)) 4 ∧
      ¬Room (slotWrite ⟨0, 0, 0, 255⟩ (small 64 3)) 4 := by
  unfold Room; decide

theorem witness_IndexChunkOfAnAbsentSlotSetsAbs : (slotRead (small 64 4).cache 63).valid = false := by decide

theorem witness_RunChunkRepeatsThePixel : (1 ≤ 1 ∧ 1 ≤ 62) ∧ (1 ≤ 62 ∧ 62 ≤ 62) := by decide

theorem witness_ChunkFrame :
    (Instr.run 2).wellFormed = true ∧ Room (small 64 8) (4 * pixelCount (.run 2)) ∧
      exec (.run 2) (small 64 8) = .next (nextOr (small 64 8) (exec (.run 2) (small 64 8))) := by
  refine ⟨by decide, by unfold Room; decide, eq_next _ (by decide)⟩

/-- The last chunk that can start: ptr + 9 = L. -/
def lastChunk : State := { State.reset.withFetchWord 8 0xFF with len := 23, inLen := 23 }

theorem witness_StepRunsTheChunkAtPtr :
    AtChunk lastChunk ∧ decode (inBytes lastChunk lastChunk.ptr.toNat 5) = .chunk (.rgba 0 0 0 0) [] := by
  unfold AtChunk; decide

theorem witness_EveryTagIsRunAsAChunk : AtChunk lastChunk := by
  unfold AtChunk; decide

theorem witness_DecodeFinishPublishesTheResult :
    let s := { lastChunk with ptr := 15 }
    s.turns = [] ∧ s.jobState = .busy ∧ s.jobMode = .decode ∧ s.phase = .body ∧ s.len.toNat ≤ s.ptr.toNat + 8 := by
  decide

theorem witness_DecodeStartInitializesTheJob :
    let s := starting 3 22 0 (headerBytes 0 0 4 0) (small 22 4)
    s.jobState ≠ .busy ∧ (3#32).getLsbD 0 = true ∧ (3#32).getLsbD 1 = true ∧ s.turns = [hostWrites s 0x00 3] ∧
      22 ≤ s.inLen.toNat ∧ s.inLen.toNat ≤ s.cfg.inCap.toNat ∧ inBytes s 0 4 = [0x71, 0x6F, 0x69, 0x66] := by decide

theorem witness_DecodeStartErrorsInPriority :
    let a := starting 3 17 0 [] (small 16 4)
    let b := starting 3 21 0 [] (small 21 4)
    let c := starting 3 22 0 [0x71, 0x6F, 0x69, 0x67] (small 22 4)
    (Starts a 3 [] ∧ a.cfg.inCap.toNat < a.inLen.toNat) ∧
      (Starts b 3 [] ∧ b.inLen.toNat ≤ b.cfg.inCap.toNat ∧ b.inLen.toNat < 22) ∧
      (Starts c 3 [] ∧ c.inLen.toNat ≤ c.cfg.inCap.toNat ∧ 22 ≤ c.inLen.toNat ∧
        inBytes c 0 4 ≠ [0x71, 0x6F, 0x69, 0x66]) ∧ (3#32).getLsbD 1 = true := by
  unfold Starts; decide

/-- A DECODE job at its first chunk meets the invariant. -/
theorem witness_inv_decode : (State.reset.withFetchWord 40 0x04030201FF).Inv where
  cfg := by decide
  buffers := ⟨by decide, by decide, Memory.byteAt_listed (by decide), Memory.byteAt_listed (by decide)⟩
  cache := ⟨by decide, by decide⟩
  err := by decide
  observed := by decide
  error := by decide
  done := fun h => absurd h (by decide)
  busy := fun _ => ⟨by decide, by decide, by decide, by decide, by decide, .inr (by decide)⟩
  decode := fun _ _ => ⟨by decide, by decide, by decide, by decide, by decide⟩
  encode := fun _ h => absurd h (by decide)

theorem witness_DecodeJobEnds :
    let s := State.reset.withFetchWord 40 0x04030201FF
    s.Inv ∧ s.turns = [] ∧ s.jobState = .busy ∧ s.jobMode = .decode := ⟨witness_inv_decode, by decide⟩

theorem witness_EncodeStartInitializesTheJob :
    let s := starting 1 8 4 [] (small 8 4)
    let z := starting 1 0 3 [] (small 8 4)
    (s.jobState ≠ .busy ∧ (1#32).getLsbD 0 = true ∧ (1#32).getLsbD 1 = false ∧ s.turns = [hostWrites s 0x00 1] ∧
        s.inLen.toNat ≤ s.cfg.inCap.toNat ∧ (s.encChannels = 3 ∨ s.encChannels = 4) ∧
        s.inLen.toNat % s.encChannels.toNat = 0) ∧
      (z.jobState ≠ .busy ∧ z.turns = [hostWrites z 0x00 1] ∧ z.inLen.toNat ≤ z.cfg.inCap.toNat ∧
        (z.encChannels = 3 ∨ z.encChannels = 4) ∧ z.inLen.toNat % z.encChannels.toNat = 0) := by decide

theorem witness_EncodeStartRefusesBadParameters :
    let a := starting 1 9 3 [] (small 8 4)
    let b := starting 1 8 5 [] (small 8 4)
    let c := starting 1 7 4 [] (small 8 4)
    (Starts a 1 [] ∧ a.cfg.inCap.toNat < a.inLen.toNat) ∧
      (Starts b 1 [] ∧ b.encChannels ≠ 3 ∧ b.encChannels ≠ 4) ∧
      (Starts c 1 [] ∧ c.inLen.toNat % c.encChannels.toNat ≠ 0) ∧ (1#32).getLsbD 1 = false := by
  unfold Starts; decide

/-- An ENCODE job of one pixel before its header step. -/
def atHeader : State :=
  { encoding 4 [1, 0, 0, 255] 0 Pixel.initial with phase := .hdr, o := 0, outBuf := [] }

theorem witness_HeaderStepWritesFourteenBytes :
    let s := { atHeader with cfg := (small 64 14).cfg }
    let z := { atHeader with cfg := (small 64 13).cfg }
    (s.turns = [] ∧ s.jobState = .busy ∧ s.jobMode = .encode ∧ s.phase = .hdr ∧ s.o = 0 ∧ 14 ≤ s.cfg.outCap.toNat) ∧
      (z.turns = [] ∧ z.jobState = .busy ∧ z.jobMode = .encode ∧ z.phase = .hdr ∧ z.o = 0 ∧ z.cfg.outCap.toNat < 14) := by
  decide

theorem witness_RepeatedPixelIsOnlyCounted :
    let s := { encoding 4 [1, 2, 3, 4, 5, 6, 7, 8] 0 ⟨1, 2, 3, 4⟩ with run := 60 }
    AtPixel s ∧ Fetched s ⟨1, 2, 3, 4⟩ ∧ (⟨1, 2, 3, 4⟩ : Pixel) = s.px ∧ s.run.toNat < 61 ∧
      s.i.toNat + 1 ≠ s.n.toNat := by
  unfold AtPixel Fetched; decide

theorem witness_RunIsFlushedAtTheCapOrTheEnd :
    let s := { encoding 4 [1, 2, 3, 4, 5, 6, 7, 8] 0 ⟨1, 2, 3, 4⟩ with run := 61 }
    let e := encoding 3 [1, 2, 3] 0 ⟨1, 2, 3, 255⟩
    (AtPixel s ∧ Fetched s ⟨1, 2, 3, 4⟩ ∧ (⟨1, 2, 3, 4⟩ : Pixel) = s.px ∧ s.run.toNat = 61 ∧ Room s 1) ∧
      (AtPixel e ∧ Fetched e ⟨1, 2, 3, 255⟩ ∧ (⟨1, 2, 3, 255⟩ : Pixel) = e.px ∧ e.run.toNat ≤ 61 ∧
        e.i.toNat + 1 = e.n.toNat ∧ Room { e with o := 63 } 1 ∧ ¬Room { e with o := 64 } 1) := by
  unfold AtPixel Fetched Room; decide

theorem witness_CachedPixelIsEmittedAsIndex :
    let s := slotWrite ⟨5, 6, 7, 8⟩ { encoding 4 [1, 2, 3, 4, 5, 6, 7, 8] 1 ⟨1, 2, 3, 4⟩ with run := 1 }
    AtPixel s ∧ Fetched s ⟨5, 6, 7, 8⟩ ∧ (⟨5, 6, 7, 8⟩ : Pixel) ≠ s.px ∧ hit s.cache ⟨5, 6, 7, 8⟩ = true ∧
      Room { s with o := 62 } ((pendingRun s).length + 1) ∧ ¬Room { s with o := 63 } ((pendingRun s).length + 1) := by
  unfold AtPixel Fetched Room; decide

theorem witness_MissedPixelIsCachedAndEncoded :
    let s := { encoding 4 [1, 2, 3, 4, 5, 6, 7, 8] 1 ⟨1, 2, 3, 4⟩ with run := 1 }
    AtPixel s ∧ Fetched s ⟨5, 6, 7, 8⟩ ∧ (⟨5, 6, 7, 8⟩ : Pixel) ≠ s.px ∧ hit s.cache ⟨5, 6, 7, 8⟩ = false ∧
      Room { s with o := 58 } ((pendingRun s).length + (encode (selectChunk ⟨5, 6, 7, 8⟩ s.px)).length) ∧
      ¬Room { s with o := 59 } ((pendingRun s).length + (encode (selectChunk ⟨5, 6, 7, 8⟩ s.px)).length) := by
  unfold AtPixel Fetched Room; decide

/-- The wrapped deltas of V45, at DIFF's lower bound, and a change of alpha of -128. -/
theorem witness_SelectionFollowsThePriorityOrder :
    (∀ d ∈ [(-2 : Int), -2, -2, 0], -128 ≤ d ∧ d ≤ 127) ∧ (((254#8).toNat : Int) - (0#8).toNat - -2) % 256 = 0 ∧
      (((255#8).toNat : Int) - (255#8).toNat - 0) % 256 = 0 ∧ (((128#8).toNat : Int) - (0#8).toNat - -128) % 256 = 0 := by
  decide

theorem witness_SelectedChunkRebuildsThePixelAndIsTheShortest :
    (Instr.rgb 1 0 0).wellFormed = true ∧ (Instr.rgb 1 0 0).chunkType ≠ .index ∧ (Instr.rgb 1 0 0).chunkType ≠ .run ∧
      chunkPixel (.rgb 1 0 0) ⟨0, 0, 0, 0⟩ ⟨0, 0, 0, 255⟩ = ⟨1, 0, 0, 255⟩ := by decide

/-- A job of two RGB pixels at its first pixel. -/
def rgbJob : State := encoding 3 [1, 2, 3, 4, 5, 6] 0 Pixel.initial

/-- An ENCODE job between pixel steps meets the invariant. -/
theorem witness_inv_encode : rgbJob.Inv where
  cfg := by decide
  buffers := ⟨by decide, by decide, Memory.byteAt_listed (by decide), Memory.byteAt_listed (by decide)⟩
  cache := ⟨by decide, by decide⟩
  err := by decide
  observed := by decide
  error := by decide
  done := fun h => absurd h (by decide)
  busy := fun _ => ⟨by decide, by decide, by decide, by decide, by decide, .inr (by decide)⟩
  decode := fun _ h => absurd h (by decide)
  encode := fun _ _ => ⟨by decide, by decide, by decide, by decide, by decide, by decide, by decide, by decide, by decide,
    by decide⟩

theorem witness_RgbModeNeverSelectsRgba : rgbJob.Inv ∧ AtPixel rgbJob ∧ rgbJob.ch = 3 ∧ Fetched rgbJob ⟨1, 2, 3, 255⟩ :=
  ⟨witness_inv_encode, by unfold AtPixel Fetched; decide⟩

theorem witness_TrailStepPublishesTheStream :
    let s := { encoding 4 [1, 0, 0, 255] 1 ⟨1, 0, 0, 255⟩ with cfg := (small 64 22).cfg }
    s.turns = [] ∧ s.jobState = .busy ∧ s.jobMode = .encode ∧ s.phase = .body ∧ s.i = s.n ∧ Room s 8 ∧
      ¬Room { s with o := 15 } 8 := by
  unfold Room; decide

theorem witness_inv_header : atHeader.Inv where
  cfg := by decide
  buffers := ⟨by decide, by decide, Memory.byteAt_listed (by decide), Memory.byteAt_listed (by decide)⟩
  cache := ⟨by decide, by decide⟩
  err := by decide
  observed := by decide
  error := by decide
  done := fun h => absurd h (by decide)
  busy := fun _ => ⟨by decide, by decide, by decide, by decide, by decide, .inr (by decide)⟩
  decode := fun _ h => absurd h (by decide)
  encode := fun _ _ => ⟨by decide, by decide, by decide, by decide, by decide, by decide, by decide, by decide, by decide,
    by decide⟩

theorem witness_EncodeJobTakesNPlusTwoSteps :
    atHeader.Inv ∧ atHeader.turns = [] ∧ atHeader.jobState = .busy ∧ atHeader.jobMode = .encode ∧
      atHeader.phase = .hdr ∧ 22 + 5 * atHeader.n.toNat ≤ atHeader.cfg.outCap.toNat := ⟨witness_inv_header, by decide⟩

/-- A START that encodes two pixels. -/
def encodeRun : State := starting 1 8 4 [0, 0, 0, 255, 10, 20, 30, 255] (small 64 64)

/-- The same with another CACHE_FILL. -/
def refilledRun : State :=
  { encodeRun with cfg := { encodeRun.cfg with cacheFill := ⟨9, 9, 9, 9⟩ }, cache := Cache.absent ⟨9, 9, 9, 9⟩ }

/-- Another CACHE_FILL. -/
def refilled : State :=
  { rgbJob with cfg := { rgbJob.cfg with cacheFill := ⟨9, 9, 9, 9⟩ }, cache := Cache.absent ⟨9, 9, 9, 9⟩ }

theorem witness_EncoderIgnoresCacheFill :
    (rgbJob.jobState = .busy ∧ rgbJob.jobMode = .encode ∧ SameButFill rgbJob refilled ∧
        coreStep rgbJob = .next (nextOr rgbJob (coreStep rgbJob))) ∧
      (Starts encodeRun 1 [] ∧ (1#32).getLsbD 1 = false ∧ SameButFill encodeRun refilledRun ∧
        step encodeRun = .next (after encodeRun)) :=
  ⟨⟨by decide, by decide, ⟨⟨_, _, rfl⟩, by decide⟩, eq_next _ (by decide)⟩,
    ⟨by unfold Starts; decide, by decide, ⟨⟨_, _, rfl⟩, by decide⟩, eq_next _ (by decide)⟩⟩

theorem witness_DecoderMirrorsThePixelStep :
    rgbJob.Inv ∧ AtPixel rgbJob ∧ Fetched rgbJob ⟨1, 2, 3, 255⟩ ∧ Lockstep rgbJob State.reset ∧
      step rgbJob = .next (after rgbJob) ∧ (after rgbJob).jobState = .busy ∧
      Room State.reset (4 * (rgbJob.run.toNat + 1)) :=
  ⟨witness_inv_encode, by unfold AtPixel; decide, by unfold Fetched; decide, ⟨by decide, by decide, by decide⟩,
    eq_next _ (by decide), by decide, by unfold Room; decide⟩

/-- The machine that has run that job to its end: start, header, two pixels, trailer. -/
def encoded : State := afterSteps 5 encodeRun

/-- The machine about to decode the bytes that job left. -/
def decodeRun : State :=
  starting 3 encoded.outLen 0 ((List.range encoded.outLen.toNat).map fun k => (encoded.outBuf.byteAt k).getD 0) (small 64 8)

theorem witness_DecodeOfEncodeIsTheImage :
    encodeRun.jobState ≠ .busy ∧ (1#32).getLsbD 0 = true ∧ (1#32).getLsbD 1 = false ∧
      encodeRun.turns = [hostWrites encodeRun 0x00 1] ∧
      Host.Core.run Sys2Proof.core (4 + 1) encodeRun = .next encoded ∧ encoded.jobState = .done ∧
      decodeRun.jobState ≠ .busy ∧ (3#32).getLsbD 0 = true ∧ (3#32).getLsbD 1 = true ∧
      decodeRun.turns = [hostWrites decodeRun 0x00 3] ∧ decodeRun.inLen = encoded.outLen ∧
      decodeRun.inLen.toNat ≤ decodeRun.cfg.inCap.toNat ∧ 4 * encoded.pixCount.toNat ≤ decodeRun.cfg.outCap.toNat ∧
      ∀ a, a < encoded.outLen.toNat → encoded.outBuf.byteAt a = some (inByte decodeRun a) :=
  ⟨by decide, by decide, by decide, by decide, eq_next encodeRun (by decide), by decide, by decide, by decide, by decide,
    by decide, by decide, by decide, by decide, by decide⟩

theorem witness_EveryErrorEntryReportsACode :
    let s := (small 64 4).withFetchWord 8 0xC1
    s.jobState ≠ .error ∧ step s = .next (after s) ∧ (after s).jobState = .error ∧ CoreTurn s :=
  ⟨by decide, eq_next _ (by decide), by decide, .inl rfl⟩

/-- The host's write of `v` at CSR offset `off`. -/
def writing (off : Nat) (v : Word) (s : State) : State := asked (.csrWrite off .word v) s

theorem witness_IgnoredCsrWrites :
    let b := State.reset.withFetchWord 8 0xC0
    (0x00 % 4 = 0 ∧ (writing 0x00 1 b).turns = [hostWrites (writing 0x00 1 b) 0x00 1] ∧
        (writing 0x00 1 b).jobState = .busy) ∧
      (0x04 % 4 = 0 ∧ (writing 0x04 1 State.reset).turns = [hostWrites (writing 0x04 1 State.reset) 0x04 1]) ∧
      (0x18 % 4 = 0 ∧ 0x18 ≤ 0x18 ∧
        (writing 0x18 1 State.reset).turns = [hostWrites (writing 0x18 1 State.reset) 0x18 1]) := by decide

theorem witness_ParameterRegistersHoldWrites :
    State.reset.jobState ≠ .busy ∧ (2#32).getLsbD 0 = false ∧
      ∀ off ∈ [0x00, 0x08, 0x0C, 0x10, 0x14],
        (writing off 2 State.reset).turns = [hostWrites (writing off 2 State.reset) off 2] := by decide

/-- The host's read at CSR offset `off`. -/
def reading (off : Nat) (s : State) : State := asked (.csrRead off .word) s

theorem witness_StatusReadShowsItsFields :
    (reading 0x04 State.reset).turns = [hostReads (reading 0x04 State.reset) 0x04] := by decide

theorem witness_CsrReadReturnsTheRegister :
    let b := State.reset.withFetchWord 8 0xC0
    State.reset.jobState ≠ .busy ∧ State.reset.observed = true ∧ 0x2C ≤ 0x2C ∧ b.jobState = .busy ∧
      ∀ off ∈ [0x00, 0x08, 0x0C, 0x10, 0x14, 0x18, 0x1C, 0x20, 0x24, 0x28, 0x2C],
        off % 4 = 0 ∧ (reading off State.reset).turns = [hostReads (reading off State.reset) off] ∧
          (reading off b).turns = [hostReads (reading off b) off] := by decide

theorem witness_NarrowOrMisalignedCsrAccessIsRefused :
    (AccessWidth.half ≠ .word ∨ 0 % 4 ≠ 0) ∧ (AccessWidth.word ≠ .word ∨ 1 % 4 ≠ 0) ∧
      (asked (.csrWrite 0 .half 1) State.reset).turns = [.host (.csrWrite (State.reset.cfg.csrBase + 0) .half 1)] ∧
      (asked (.csrRead 1 .word) State.reset).turns = [.host (.csrRead (State.reset.cfg.csrBase + 1) .word)] := by decide

theorem witness_HostBufferWrites :
    let b := State.reset.withFetchWord 8 0xC0
    (asked (.inWrite 26 1) b).turns = [.host (.inWrite 26 1)] ∧ 26 < b.cfg.inCap.toNat ∧ b.jobState = .busy ∧
      26 < b.len.toNat ∧ b.len.toNat ≤ 27 ∧ (asked (.outWrite 3 1) (small 4 4)).turns = [.host (.outWrite 3 1)] ∧
      3 < (small 4 4).cfg.outCap.toNat ∧ (small 4 4).jobState ≠ .busy ∧ (small 4 4).observed = true := by decide

/-- A finished DECODE job of one pixel. -/
def finished : State :=
  { small 64 8 with
    jobState := .done, mode := .decode, jobMode := .decode, phase := .body, len := 23, inLen := 23, ptr := 15, o := 4
    outLen := 4, pixCount := 1, outBuf := Memory.putBytes [] 0 [1, 2, 3, 255] }

theorem witness_inv_done : (asked (.outRead 3) finished).Inv where
  cfg := by decide
  buffers := ⟨by decide, by decide, Memory.byteAt_listed (by decide), Memory.byteAt_listed (by decide)⟩
  cache := ⟨by decide, by decide⟩
  err := by decide
  observed := by decide
  error := by decide
  done := fun _ => ⟨by decide, by decide⟩
  busy := fun h => absurd h (by decide)
  decode := fun h => absurd h (by decide)
  encode := fun h => absurd h (by decide)

/-- That job, its end not yet observed, with a STATUS read and a read of OUT to come. -/
def polled : State :=
  { finished with observed := false, turns := [.host (.csrRead 4 .word), .host (.outRead 3)] }

theorem witness_inv_polled : polled.Inv where
  cfg := by decide
  buffers := ⟨by decide, by decide, Memory.byteAt_listed (by decide), Memory.byteAt_listed (by decide)⟩
  cache := ⟨by decide, by decide⟩
  err := by decide
  observed := by decide
  error := by decide
  done := fun _ => ⟨by decide, by decide⟩
  busy := fun h => absurd h (by decide)
  decode := fun h => absurd h (by decide)
  encode := fun h => absurd h (by decide)

theorem witness_ResultBytesAreReadAtDone :
    let s := asked (.outRead 3) finished
    (s.Inv ∧ s.jobState = .done ∧ 3 < s.outLen.toNat ∧ s.outLen.toNat ≤ 4 ∧ 4 < s.cfg.outCap.toNat ∧ s.observed = true ∧
        s.turns = [.host (.outRead 3)]) ∧
      (polled.Inv ∧ polled.jobState = .done ∧ 3 < polled.cfg.outCap.toNat ∧
        polled.turns = [hostReads polled 0x04, .host (.outRead 3)]) :=
  ⟨⟨witness_inv_done, by decide⟩, ⟨witness_inv_polled, by decide⟩⟩

/-- R48: a byte beyond OUT_LEN that no one has written reads the same before the job of `encodeRun` and after it. -/
theorem test_out_beyond_the_result_is_unchanged :
    let s := { encodeRun with
      turns := .host (.outRead 63) :: encodeRun.turns ++ [.core, .core, .core, .core] ++
        [hostReads encodeRun 0x04, .host (.outRead 63)] }
    (afterSteps 6 s).jobState = .done ∧ (afterSteps 8 s).response = (after s).response := ⟨by decide, rfl⟩

theorem witness_OnlyAStatusReadObservesTheEnd :
    (polled.jobState = .done ∧ polled.turns = hostReads polled 0x04 :: [.host (.outRead 3)]) ∧
      (step polled = .next (after polled) ∧ polled.observed = false ∧ (after polled).observed = true) ∧
      (step encodeRun = .next (after encodeRun) ∧ encodeRun.observed = true ∧ (after encodeRun).observed = false) :=
  ⟨by decide, ⟨eq_next _ (by decide), by decide, by decide⟩, ⟨eq_next _ (by decide), by decide, by decide⟩⟩

theorem witness_UnobservedResultsAreNotShown :
    let s := asked (.outRead 3) polled
    let t := { s with outBuf := [], outEpoch := 7, outLen := 0 }
    s.observed = false ∧ SameButResults s t ∧ s.turns = [.host (.outRead 3)] ∧ step s = .next (after s) :=
  ⟨by decide, ⟨_, _, _, _, _, _, _, _, rfl⟩, by decide, eq_next _ (by decide)⟩

theorem witness_PowerOnResetRestoresPowerOnValues :
    (asked .powerOnReset lastChunk).turns = [.host .powerOnReset] ∧ (asked .powerOnReset lastChunk).jobState = .busy := by
  decide

theorem witness_EveryStepKeepsTheInvariant : rgbJob.Inv ∧ step rgbJob = .next (after rgbJob) :=
  ⟨witness_inv_encode, eq_next _ (by decide)⟩

theorem witness_CoreTurnNeverStops : rgbJob.Inv ∧ CoreTurn rgbJob := ⟨witness_inv_encode, .inl rfl⟩

theorem witness_IdleCoreChangesNothing : finished.jobState ≠ .busy ∧ finished.turns = [] := by decide

/-- A START, a finish and a reset each change STATE. -/
theorem witness_StateChangesOnlyAsListed :
    (step encodeRun = .next (after encodeRun) ∧ (after encodeRun).jobState ≠ encodeRun.jobState) ∧
      (step { lastChunk with ptr := 15 } = .next (after { lastChunk with ptr := 15 }) ∧
        (after { lastChunk with ptr := 15 }).jobState ≠ JobState.busy) ∧
      (step (asked .powerOnReset finished) = .next (after (asked .powerOnReset finished)) ∧
        (after (asked .powerOnReset finished)).jobState ≠ finished.jobState) :=
  ⟨⟨eq_next _ (by decide), by decide⟩, ⟨eq_next _ (by decide), by decide⟩, ⟨eq_next _ (by decide), by decide⟩⟩

theorem witness_CoreNeverWritesItsInputs : coreStep rgbJob = .next (nextOr rgbJob (coreStep rgbJob)) :=
  eq_next _ (by decide)

theorem witness_OutIsWrittenInOrder :
    rgbJob.Inv ∧ rgbJob.jobState = .busy ∧ coreStep rgbJob = .next (nextOr rgbJob (coreStep rgbJob)) ∧
      (nextOr rgbJob (coreStep rgbJob)).jobState ≠ .error ∧ rgbJob.turns = [] ∧
      Host.Core.run Sys2Proof.core 3 rgbJob = .next (afterSteps 3 rgbJob) ∧ (afterSteps 3 rgbJob).jobState = .done :=
  ⟨witness_inv_encode, by decide, eq_next _ (by decide), by decide, by decide, eq_next rgbJob (by decide), by decide⟩

/-- A byte of IN at L differs. -/
theorem witness_NoByteBeyondLIsRead :
    (lastChunk.jobState = .busy ∧
        SameInputBelow lastChunk.len lastChunk { lastChunk with inBuf := lastChunk.inBuf.put 23 7 } ∧
        coreStep lastChunk = .next (nextOr lastChunk (coreStep lastChunk))) ∧
      (Starts encodeRun 1 [] ∧
        SameInputBelow encodeRun.inLen encodeRun { encodeRun with inBuf := encodeRun.inBuf.put 8 7 } ∧
        step encodeRun = .next (after encodeRun)) := by
  refine ⟨⟨by decide, ⟨⟨lastChunk.inBuf.put 23 7, lastChunk.inEpoch, rfl⟩, fun a ha => ?_⟩, eq_next lastChunk (by decide)⟩,
    ⟨by unfold Starts; decide, ⟨⟨encodeRun.inBuf.put 8 7, encodeRun.inEpoch, rfl⟩, fun a ha => ?_⟩,
      eq_next encodeRun (by decide)⟩⟩
  · have h : a ≠ 23 := by
      have : lastChunk.len.toNat = 23 := by decide
      omega
    simp only [inByte, Memory.byteAt_put, h, if_false]
  · have h : a ≠ 8 := by
      have : encodeRun.inLen.toNat = 8 := by decide
      omega
    simp only [inByte, Memory.byteAt_put, h, if_false]

end Sys2Proof.Tests
end

section
/-! SUPPORT. What every turn keeps. A turn of the core (10_state.md R15, R17, R19, R45, R60) and a host access (R29-R41)
are each described once; the statements of 10_state.md follow from these descriptions. -/

namespace Sys2Proof.Machine

/-! ### The inputs of a job (R19, R28, R45, R60) -/

theorem SameInputs.refl (s : State) : SameInputs s s := by
  simp [SameInputs]

theorem SameInputs.trans {s t u : State} (h : SameInputs s t) (h' : SameInputs t u) : SameInputs s u := by
  unfold SameInputs at *
  simp only [h', h, and_self]

theorem sameInputs_pushBytes (bs : List Byte) (s : State) : SameInputs s (pushBytes bs s) := by
  simp [SameInputs]

theorem sameInputs_slotWrite (p : Pixel) (s : State) : SameInputs s (slotWrite p s) := by
  simp [SameInputs]

theorem sameInputs_raise (e : ErrCode) (s : State) : SameInputs s (raise e s) := by
  simp [SameInputs]

/-! ### The three ways a part of a core step can leave the job -/

/-- The job runs on: STATE and ERR are as they were, and no input is written. -/
structure JobRunsOn (s t : State) : Prop where
  inputs : SameInputs s t
  turns : t.turns = s.turns
  jobState : t.jobState = s.jobState
  err : t.err = s.err

/-- The job is complete (R124, R151). -/
structure JobCompletes (s t : State) : Prop where
  inputs : SameInputs s t
  turns : t.turns = s.turns
  jobState : t.jobState = .done
  err : t.err = s.err

/-- OUT has overflowed, which is the one error a running job can end with (R158, R159). -/
structure JobOverflows (s t : State) : Prop where
  inputs : SameInputs s t
  turns : t.turns = s.turns
  jobState : t.jobState = .error
  err : t.err = .outOverflow
  outLen : t.outLen = 0
  pixCount : t.pixCount = 0

theorem JobRunsOn.refl (s : State) : JobRunsOn s s := ⟨.refl s, rfl, rfl, rfl⟩

theorem JobRunsOn.trans {s t u : State} (h : JobRunsOn s t) (h' : JobRunsOn t u) : JobRunsOn s u :=
  ⟨h.inputs.trans h'.inputs, h'.turns.trans h.turns, h'.jobState.trans h.jobState, h'.err.trans h.err⟩

theorem JobRunsOn.completes {s t u : State} (h : JobRunsOn s t) (h' : JobCompletes t u) : JobCompletes s u :=
  ⟨h.inputs.trans h'.inputs, h'.turns.trans h.turns, h'.jobState, h'.err.trans h.err⟩

theorem JobRunsOn.overflows {s t u : State} (h : JobRunsOn s t) (h' : JobOverflows t u) : JobOverflows s u :=
  ⟨h.inputs.trans h'.inputs, h'.turns.trans h.turns, h'.jobState, h'.err, h'.outLen, h'.pixCount⟩

theorem jobRunsOn_pushBytes (bs : List Byte) (s : State) : JobRunsOn s (pushBytes bs s) :=
  ⟨sameInputs_pushBytes bs s, rfl, rfl, rfl⟩

theorem jobRunsOn_slotWrite (p : Pixel) (s : State) : JobRunsOn s (slotWrite p s) :=
  ⟨sameInputs_slotWrite p s, rfl, rfl, rfl⟩

theorem jobOverflows_raise (s : State) : JobOverflows s (raise .outOverflow s) :=
  ⟨sameInputs_raise _ s, rfl, rfl, rfl, rfl, rfl⟩

/-! ### Parts of a step -/

/-- A part of a core step begun in `s` runs on, or overflows OUT, or stops the machine; nothing else. -/
def Flow.RunsOnOrOverflows (s : State) : Flow → Prop
  | .more t => JobRunsOn s t
  | .aborted t => JobOverflows s t
  | .faulted _ => True

theorem JobRunsOn.more {s t : State} (h : JobRunsOn s t) : (Flow.more t).RunsOnOrOverflows s := h

theorem Flow.RunsOnOrOverflows.of_runsOn {s t : State} {f : Flow} (h : JobRunsOn s t) (h' : f.RunsOnOrOverflows t) :
    f.RunsOnOrOverflows s := by
  cases f with
  | more u => exact JobRunsOn.trans h h'
  | aborted u => exact JobRunsOn.overflows h h'
  | faulted r => trivial

theorem Flow.RunsOnOrOverflows.andThen {s : State} {f : Flow} {g : State → Flow} (h : f.RunsOnOrOverflows s)
    (h' : ∀ t, (g t).RunsOnOrOverflows t) : (f.andThen g).RunsOnOrOverflows s := by
  cases f with
  | more t => exact (h' t).of_runsOn h
  | aborted t => exact h
  | faulted r => trivial

theorem Flow.RunsOnOrOverflows.outcome {s t : State} {f : Flow} (h : f.RunsOnOrOverflows s) (h' : f.outcome = .next t) :
    JobRunsOn s t ∨ JobOverflows s t := by
  rcases Flow.outcome_eq_next h' with rfl | rfl
  · exact .inl h
  · exact .inr h

theorem emits_runsOnOrOverflows (bs : List Byte) (s : State) : (emits bs s).RunsOnOrOverflows s := by
  rcases emits_cases bs s with ⟨h, -⟩ | ⟨h, -, -⟩ <;> rw [h]
  · exact jobRunsOn_pushBytes bs s
  · exact (jobRunsOn_pushBytes _ s).overflows (jobOverflows_raise _)

/-! ### The steps of a DECODE job -/

theorem execRead_runsOn (i : Instr) (s : State) : JobRunsOn s (execRead i s) := by
  rcases execRead_cases i s with h | h <;> rw [h]
  · exact .refl s
  · exact ⟨.refl s, rfl, rfl, rfl⟩

theorem tailDone_runsOn (p : Pixel) (count length : Nat) (s : State) : JobRunsOn s (tailDone p count length s) := by
  constructor <;> simp [SameInputs, tailDone]

theorem tailRaised_overflows (p : Pixel) (count : Nat) (s : State) : JobOverflows s (tailRaised p count s) := by
  constructor <;> simp [SameInputs, tailRaised]

/-- A chunk leaves the job running, or overflows OUT. -/
theorem exec_runsOn_or_overflows {i : Instr} {s t : State} (h : exec i s = .next t) :
    JobRunsOn s t ∨ JobOverflows s t := by
  rcases exec_cases i s with ⟨hx, -⟩ | ⟨hx, -, -⟩ <;> obtain rfl := Host.Outcome.next.inj (hx.symm.trans h)
  · exact .inl ((execRead_runsOn i s).trans (tailDone_runsOn _ _ _ _))
  · exact .inr ((execRead_runsOn i s).overflows (tailRaised_overflows _ _ _))

theorem chunkStep_runsOn_or_overflows {s t : State} (h : chunkStep s = .next t) : JobRunsOn s t ∨ JobOverflows s t := by
  unfold chunkStep at h
  split at h
  · exact exec_runsOn_or_overflows h
  · cases h

theorem finishDecode_completes (s : State) : JobCompletes s (finishDecode s) := ⟨.refl s, rfl, rfl, rfl⟩

theorem decodeStep_cases {s t : State} (h : decodeStep s = .next t) :
    JobRunsOn s t ∨ JobCompletes s t ∨ JobOverflows s t := by
  unfold decodeStep at h
  split at h
  · split at h
    · rcases chunkStep_runsOn_or_overflows h with hr | ho
      · exact .inl hr
      · exact .inr (.inr ho)
    · cases h
      exact .inr (.inl (finishDecode_completes s))
  · cases h
  · cases h

/-! ### The steps of an ENCODE job -/

theorem headerStep_runsOnOrOverflows (s : State) : (headerStep s).RunsOnOrOverflows s :=
  (emits_runsOnOrOverflows _ s).andThen fun t => JobRunsOn.more ⟨.refl t, rfl, rfl, rfl⟩

theorem flushRun_runsOnOrOverflows (s : State) : (flushRun s).RunsOnOrOverflows s :=
  (emits_runsOnOrOverflows _ s).andThen fun t => JobRunsOn.more ⟨.refl t, rfl, rfl, rfl⟩

theorem repeatBranch_runsOnOrOverflows (last : Bool) (s : State) : (repeatBranch last s).RunsOnOrOverflows s := by
  have hcount : JobRunsOn s { s with run := s.run + 1 } := ⟨.refl s, rfl, rfl, rfl⟩
  unfold repeatBranch
  dsimp only
  split
  · exact (flushRun_runsOnOrOverflows _).of_runsOn hcount
  · exact hcount

/-- Whatever chunk is chosen, its bytes are what is emitted. -/
theorem emitSelected_runsOnOrOverflows (cur prev : Pixel) (s : State) :
    (emitSelected cur prev s).RunsOnOrOverflows s := by
  unfold emitSelected
  split <;> exact emits_runsOnOrOverflows _ s

theorem lookupBranch_runsOnOrOverflows (cur : Pixel) (s : State) : (lookupBranch cur s).RunsOnOrOverflows s := by
  unfold lookupBranch
  split
  · exact emits_runsOnOrOverflows _ s
  · exact (emitSelected_runsOnOrOverflows _ _ _).of_runsOn (jobRunsOn_slotWrite cur s)

theorem differBranch_runsOnOrOverflows (cur : Pixel) (s : State) : (differBranch cur s).RunsOnOrOverflows s := by
  refine Flow.RunsOnOrOverflows.andThen ?_ (lookupBranch_runsOnOrOverflows cur)
  split
  · exact JobRunsOn.refl s
  · exact flushRun_runsOnOrOverflows s

theorem encodePixel_runsOnOrOverflows (cur : Pixel) (s : State) : (encodePixel cur s).RunsOnOrOverflows s := by
  refine Flow.RunsOnOrOverflows.andThen ?_ fun t => JobRunsOn.more ⟨.refl t, rfl, rfl, rfl⟩
  split
  · exact repeatBranch_runsOnOrOverflows _ s
  · exact differBranch_runsOnOrOverflows cur s

theorem pixelStep_runsOnOrOverflows (s : State) : (pixelStep s).RunsOnOrOverflows s := by
  unfold pixelStep
  split
  · exact encodePixel_runsOnOrOverflows _ s
  · trivial

theorem finishEncode_completes (s : State) : JobCompletes s (finishEncode s) := ⟨.refl s, rfl, rfl, rfl⟩

theorem trailStep_cases {s t : State} (h : (trailStep s).outcome = .next t) : JobCompletes s t ∨ JobOverflows s t := by
  have hphase : JobRunsOn s { s with phase := .trail } := ⟨.refl s, rfl, rfl, rfl⟩
  have hend := (emits_runsOnOrOverflows endMarker { s with phase := .trail }).of_runsOn hphase
  unfold trailStep writeEnd at h
  cases he : emits endMarker { s with phase := .trail } with
  | more u =>
    rw [he] at h hend
    obtain rfl := Host.Outcome.next.inj h
    exact .inl (JobRunsOn.completes hend (finishEncode_completes u))
  | aborted u =>
    rw [he] at h hend
    obtain rfl := Host.Outcome.next.inj h
    exact .inr hend
  | faulted r =>
    rw [he] at h
    cases h

theorem encodeStep_cases {s t : State} (h : encodeStep s = .next t) :
    JobRunsOn s t ∨ JobCompletes s t ∨ JobOverflows s t := by
  unfold encodeStep at h
  split at h
  · exact ((headerStep_runsOnOrOverflows s).outcome h).imp_right .inr
  · split at h
    · exact .inr (trailStep_cases h)
    · split at h
      · exact ((pixelStep_runsOnOrOverflows s).outcome h).imp_right .inr
      · cases h
  · cases h

/-! ### The core's turn -/

/-- Everything the core's turn can do to a job: none is running and nothing changes; or it runs on, completes, or
overflows OUT. -/
theorem coreStep_cases {s t : State} (h : coreStep s = .next t) :
    (s.jobState ≠ .busy ∧ t = s) ∨
      (s.jobState = .busy ∧ (JobRunsOn s t ∨ JobCompletes s t ∨ JobOverflows s t)) := by
  by_cases hb : s.jobState = .busy
  · refine .inr ⟨hb, ?_⟩
    unfold coreStep at h
    rw [hb] at h
    cases hm : s.jobMode with
    | encode => exact encodeStep_cases (by simpa only [hm] using h)
    | decode => exact decodeStep_cases (by simpa only [hm] using h)
  · rw [coreStep_idle hb] at h
    exact .inl ⟨hb, (Host.Outcome.next.inj h).symm⟩

theorem coreStep_sameInputs {s t : State} (h : coreStep s = .next t) : SameInputs s t := by
  rcases coreStep_cases h with ⟨-, rfl⟩ | ⟨-, hr | hc | ho⟩
  · exact .refl t
  · exact hr.inputs
  · exact hc.inputs
  · exact ho.inputs

/-- Only a running job can change STATE in the core's turn, and only to DONE or ERROR (R17). -/
theorem coreStep_jobState {s t : State} (h : coreStep s = .next t) (hne : t.jobState ≠ s.jobState) :
    s.jobState = .busy ∧ (t.jobState = .done ∨ t.jobState = .error) := by
  rcases coreStep_cases h with ⟨-, rfl⟩ | ⟨hb, hr | hc | ho⟩
  · exact absurd rfl hne
  · exact absurd hr.jobState hne
  · exact ⟨hb, .inl hc.jobState⟩
  · exact ⟨hb, .inr ho.jobState⟩

/-- Settles O58: each way the core's turn can leave the job keeps the inputs. -/
theorem coreNeverWritesItsInputs : Obligations.CoreNeverWritesItsInputs := fun _ _ => coreStep_sameInputs

end Sys2Proof.Machine
end

section
/-! SUPPORT. The host's accesses to the CSR block (10_state.md R29-R41): what a write and a read of an aligned register
do, and the statements of 10_state.md about them. -/

namespace Sys2Proof.Machine

/-! ### Which register an access reaches -/

/-- A host access to the CSR block that is not refused is to an aligned word of it. -/
theorem csrSelect_eq_ok {s : State} {addr : Nat} {width : AccessWidth} {r : Csr} (h : csrSelect s addr width = .ok r) :
    ∃ off, addr = s.cfg.csrBase + off ∧ off % 4 = 0 ∧ width = .word ∧ r = csrAt off := by
  unfold csrSelect at h
  split at h
  · cases h
  · split at h
    · rename_i hbase hword
      obtain ⟨hw, ha⟩ := hword
      exact ⟨addr - s.cfg.csrBase, by omega, ha, hw, (Except.ok.inj h).symm⟩
    · cases h

/-- CTRL is at offset 0 only. -/
theorem csrAt_eq_ctrl {off : Nat} (h : csrAt off = .ctrl) : off = 0x00 := by
  by_contra hne
  simp only [csrAt, hne, if_false] at h
  split_ifs at h

/-- An aligned write by the host is a write to the register of its offset. -/
theorem step_hostWrites {s : State} {off : Nat} {v : Word} {ts : List Turn} (ha : off % 4 = 0)
    (ht : s.turns = hostWrites s off v :: ts) : step s = (csrWrite (csrAt off) v { s with turns := ts }).outcome := by
  rw [step_host ht, hostStep, csrSelect_word { s with turns := ts } ha]

/-- An aligned read by the host is a read of the register of its offset. -/
theorem step_hostReads {s : State} {off : Nat} {ts : List Turn} (ha : off % 4 = 0)
    (ht : s.turns = hostReads s off :: ts) :
    step s = .next (csrRead (s.cfg.csrBase + off) (csrAt off) { s with turns := ts }) := by
  rw [step_host ht, hostStep, csrSelect_word { s with turns := ts } ha]

/-! ### CSR writes -/

/-- R29's access column: the registers a host write can change; the others are read-only, or are no register (R41). -/
def Csr.writable : Csr → Bool
  | .ctrl | .encWidth | .encHeight | .encChannels | .inLen => true
  | .status | .outLen | .hdrWidth | .hdrHeight | .hdrInfo | .pixCount | .unmapped => false

/-- R29: STATUS and every register from OUT_LEN on are read-only. -/
theorem csrAt_not_writable {off : Nat} (h : off = 0x04 ∨ 0x18 ≤ off) : (csrAt off).writable = false := by
  rcases h with rfl | h
  · rfl
  · have below : ∀ k, k < 0x18 → off ≠ k := fun k hk e => by omega
    simp only [csrAt, below 0x00 (by decide), below 0x04 (by decide), below 0x08 (by decide), below 0x0C (by decide),
      below 0x10 (by decide), below 0x14 (by decide), if_false]
    split_ifs <;> rfl

/-- R29, R165: while BUSY a CSR write is ignored. -/
theorem csrWrite_busy {s : State} (h : s.jobState = .busy) (r : Csr) (v : Word) : csrWrite r v s = .more s := by
  rw [csrWrite.eq_def, if_pos h]

/-- R41: a write to a register that is not writable is ignored. -/
theorem csrWrite_not_writable {r : Csr} (h : r.writable = false) (v : Word) (s : State) : csrWrite r v s = .more s := by
  by_cases hb : s.jobState = .busy
  · exact csrWrite_busy hb r v
  · rw [csrWrite.eq_def, if_neg hb]
    cases r with
    | status | outLen | hdrWidth | hdrHeight | hdrInfo | pixCount | unmapped => rfl
    | ctrl | encWidth | encHeight | encChannels | inLen => cases h

/-- Settles O43: such a write is ignored because the core is BUSY, or because of the register it reaches. -/
theorem ignoredCsrWrites : Obligations.IgnoredCsrWrites := by
  intro s off v ts ha ht hign
  rw [step_hostWrites ha ht]
  rcases hign with hb | hro
  · rw [csrWrite_busy (s := { s with turns := ts }) hb, Flow.more_outcome]
  · rw [csrWrite_not_writable (csrAt_not_writable hro), Flow.more_outcome]

/-- R30: a CTRL write without START stores MODE. -/
theorem writeCtrl_noStart {v : Word} (h : v.getLsbD 0 = false) (s : State) :
    writeCtrl v s = .more { s with mode := modeOf v } := by
  simp only [writeCtrl, h, Bool.false_eq_true, if_false]

/-- Settles O44: each offset reaches its register, and the core is not BUSY. -/
theorem parameterRegistersHoldWrites : Obligations.ParameterRegistersHoldWrites := by
  intro s v ts hb
  refine ⟨fun ht => ?_, fun ht => ?_, fun ht => ?_, fun ht => ?_, fun ht hstart => ?_⟩ <;>
    rw [step_hostWrites (by decide) ht, csrWrite.eq_def, if_neg hb]
  · rfl
  · rfl
  · rfl
  · rfl
  · exact congrArg Flow.outcome (writeCtrl_noStart hstart _)

/-! ### CSR reads -/

/-- R36-R40: the registers that hold a job's result. -/
def Csr.isResult : Csr → Bool
  | .outLen | .hdrWidth | .hdrHeight | .hdrInfo | .pixCount => true
  | .ctrl | .status | .encWidth | .encHeight | .encChannels | .inLen | .unmapped => false

/-- A register that holds no result shows what it holds in every STATE. -/
theorem csrShown_of_not_result {r : Csr} (h : r.isResult = false) (s : State) : csrShown s r = csrHeld s r := by
  have hu : csrShownUnordered s r = csrHeld s r := by
    cases r with
    | ctrl | status | encWidth | encHeight | encChannels | inLen | unmapped => rfl
    | outLen | hdrWidth | hdrHeight | hdrInfo | pixCount => cases h
  rw [csrShown, hu, ite_self]

/-- Only a read of STATUS observes the end of a job (R58). -/
theorem observedAfterRead_of_ne_status {r : Csr} (h : r ≠ .status) (s : State) : observedAfterRead s r = s.observed := by
  simp [observedAfterRead, h]

/-- STATUS is at offset 4 only. -/
theorem csrAt_ne_status {off : Nat} (h : off ≠ 0x04) : csrAt off ≠ .status := by
  simp only [csrAt, h, if_false]
  split_ifs <;> decide

/-- R31: STATUS bit by bit. -/
theorem statusWord_getLsbD (s : State) (i : Nat) :
    (statusWord s).getLsbD i =
      if i < 2 then s.jobState.code.getLsbD i
      else if i = 2 then s.absIdx
      else if 4 ≤ i ∧ i < 8 then s.err.code.getLsbD (i - 4)
      else false := by
  simp only [statusWord, BitVec.getLsbD_append]
  grind

/-- R31: the fields of STATUS, each at its bits, and 0 in the reserved ones. -/
theorem statusWord_fields (s : State) :
    (statusWord s).extractLsb' 0 2 = s.jobState.code ∧ (statusWord s).getLsbD 2 = s.absIdx ∧
      (statusWord s).getLsbD 3 = false ∧ (statusWord s).extractLsb' 4 4 = s.err.code ∧
      (statusWord s).extractLsb' 8 24 = 0 := by
  refine ⟨?_, statusWord_getLsbD s 2, statusWord_getLsbD s 3, ?_, ?_⟩ <;> ext i hi <;>
    rw [BitVec.getElem_extractLsb', statusWord_getLsbD]
  · simp [hi]
  · have h2 : ¬4 + i < 2 := by omega
    have h3 : 4 + i ≠ 2 := by omega
    have h8 : 4 + i < 8 := by omega
    simp [h2, h3, h8, hi]
  · have h2 : ¬8 + i < 2 := by omega
    have h3 : 8 + i ≠ 2 := by omega
    simp [h2, h3]

/-- Settles O45: a read of offset 4 shows STATUS in every STATE. -/
theorem statusReadShowsItsFields : Obligations.StatusReadShowsItsFields := by
  intro s ts ht
  refine ⟨_, statusWord s, step_hostReads (by decide) ht, ?_, statusWord_fields s⟩
  exact congrArg (fun v => some (Response.csr _ v)) (csrShown_status { s with turns := ts })

/-- R30: CTRL reads as MODE in bit 1. -/
theorem ctrlWord_toNat (s : State) : (ctrlWord s).toNat = if s.mode = .decode then 2 else 0 := by
  unfold ctrlWord
  cases s.mode <;> rfl

/-- Two fields side by side as a number. -/
theorem toNat_append_eq_add {m n : Nat} (x : BitVec m) (y : BitVec n) : (x ++ y).toNat = x.toNat * 2 ^ n + y.toNat := by
  rw [BitVec.toNat_append, ← Nat.shiftLeft_add_eq_or_of_lt y.isLt, Nat.shiftLeft_eq]

/-- R39: HDR_INFO as a number. -/
theorem hdrInfoWord_toNat (s : State) : (hdrInfoWord s).toNat = s.hdrColorspace.toNat * 256 + s.hdrChannels.toNat := by
  rw [hdrInfoWord, toNat_append_eq_add, toNat_append_eq_add]
  simp

/-- R41: the reserved half of HDR_INFO reads 0 whether or not the results are visible. -/
theorem csrShown_hdrInfo_lt (s : State) : (csrShown s .hdrInfo).toNat < 2 ^ 16 := by
  unfold csrShown
  split
  · have hc := s.hdrColorspace.isLt
    have hn := s.hdrChannels.isLt
    rw [csrHeld, hdrInfoWord_toNat]
    omega
  · have hx := ((Config.unspecifiedWord s.draws).extractLsb' 0 16).isLt
    rw [csrShownUnordered, toNat_append_eq_add]
    simpa using hx

/-- Settles O46: the read is a read of the register of its offset, which shows what it holds where it holds no result or
the end of the job has been observed. -/
theorem csrReadReturnsTheRegister : Obligations.CsrReadReturnsTheRegister := by
  intro s off ts ha ht
  have hheld : ∀ r : Csr, r.isResult = false → csrShown { s with turns := ts } r = csrHeld { s with turns := ts } r :=
    fun r hr => csrShown_of_not_result hr _
  refine ⟨csrShown { s with turns := ts } (csrAt off), observedAfterRead { s with turns := ts } (csrAt off),
    step_hostReads ha ht, fun hne => observedAfterRead_of_ne_status (csrAt_ne_status hne) _, ?_, ?_, ?_, ?_, ?_, ?_, ?_, ?_⟩
  · rintro rfl
    exact (congrArg BitVec.toNat (hheld .ctrl rfl)).trans (ctrlWord_toNat _)
  · rintro rfl
    exact hheld .encWidth rfl
  · rintro rfl
    exact hheld .encHeight rfl
  · rintro rfl
    exact (congrArg BitVec.toNat (hheld .encChannels rfl)).trans (BitVec.toNat_setWidth_of_le (by decide))
  · rintro rfl
    exact hheld .inLen rfl
  · intro h
    rw [csrAt_unmapped h]
    exact hheld .unmapped rfl
  · rintro rfl
    exact csrShown_hdrInfo_lt _
  · intro hb ho
    have hvis : ∀ r : Csr, csrShown { s with turns := ts } r = csrHeld { s with turns := ts } r :=
      fun r => csrShown_visible (s := { s with turns := ts }) hb ho r
    refine ⟨?_, ?_, ?_, ?_, ?_⟩ <;> rintro rfl
    · exact hvis .outLen
    · exact hvis .hdrWidth
    · exact hvis .hdrHeight
    · exact (congrArg BitVec.toNat (hvis .hdrInfo)).trans (hdrInfoWord_toNat _)
    · exact hvis .pixCount

end Sys2Proof.Machine
end

section
/-! SUPPORT. A step as a whole: which turn it is, and what it makes of STATE (10_state.md R15, R17, R30), and the machine
right after power-on (R44). -/

namespace Sys2Proof.Machine

/-! ### A START (R30) -/

/-- R106: a DECODE start step raises an error, or the job runs. -/
theorem startDecode_jobState {s t : State} (h : (startDecode s).outcome = .next t) :
    t.jobState = .busy ∨ t.jobState = .error := by
  unfold startDecode readHeader at h
  dsimp only at h
  split_ifs at h <;> obtain rfl := Host.Outcome.next.inj h
  · exact .inr rfl
  · exact .inr rfl
  · exact .inl rfl
  · exact .inr rfl

/-- R126: an ENCODE start step raises an error, or the job runs. -/
theorem startEncode_jobState {s t : State} (h : (startEncode s).outcome = .next t) :
    t.jobState = .busy ∨ t.jobState = .error := by
  unfold startEncode at h
  dsimp only at h
  split_ifs at h <;> obtain rfl := Host.Outcome.next.inj h
  · exact .inl rfl
  · exact .inr rfl

theorem startJob_jobState {s t : State} (h : (startJob s).outcome = .next t) :
    t.jobState = .busy ∨ t.jobState = .error := by
  unfold startJob at h
  split at h
  · exact startEncode_jobState h
  · exact startDecode_jobState h

/-! ### Changes of STATE (R17) -/

/-- A CSR write changes STATE only as a START while no job runs. -/
theorem csrWrite_jobState {r : Csr} {v : Word} {s t : State} (h : (csrWrite r v s).outcome = .next t)
    (hne : t.jobState ≠ s.jobState) :
    s.jobState ≠ .busy ∧ r = .ctrl ∧ v.getLsbD 0 = true ∧ (t.jobState = .busy ∨ t.jobState = .error) := by
  by_cases hb : s.jobState = .busy
  · rw [csrWrite_busy hb] at h
    obtain rfl := Host.Outcome.next.inj h
    exact absurd rfl hne
  · refine ⟨hb, ?_⟩
    rw [csrWrite.eq_def, if_neg hb] at h
    cases r with
    | ctrl =>
      cases hv : v.getLsbD 0 with
      | true => exact ⟨rfl, rfl, startJob_jobState (by simpa only [writeCtrl, hv, if_true] using h)⟩
      | false =>
        rw [writeCtrl_noStart hv] at h
        obtain rfl := Host.Outcome.next.inj h
        exact absurd rfl hne
    | status | encWidth | encHeight | encChannels | inLen | outLen | hdrWidth | hdrHeight | hdrInfo | pixCount
    | unmapped =>
      obtain rfl := Host.Outcome.next.inj h
      exact absurd rfl hne

theorem hostInWrite_jobState {off : Nat} {b : Byte} {s t : State} (h : hostInWrite off b s = .next t) :
    t.jobState = s.jobState := by
  unfold hostInWrite at h
  split_ifs at h
  obtain rfl := Host.Outcome.next.inj h
  rfl

theorem hostOutWrite_jobState {off : Nat} {b : Byte} {s t : State} (h : hostOutWrite off b s = .next t) :
    t.jobState = s.jobState := by
  unfold hostOutWrite at h
  split_ifs at h
  obtain rfl := Host.Outcome.next.inj h
  rfl

theorem hostOutRead_jobState {off : Nat} {s t : State} (h : hostOutRead off s = .next t) : t.jobState = s.jobState := by
  unfold hostOutRead at h
  split_ifs at h
  obtain rfl := Host.Outcome.next.inj h
  rfl

/-- A host access changes STATE only as a START while no job runs, or as a power-on reset. -/
theorem hostStep_jobState {op : HostOp} {s t : State} (h : hostStep op s = .next t) (hne : t.jobState ≠ s.jobState) :
    (s.jobState ≠ .busy ∧ (t.jobState = .busy ∨ t.jobState = .error) ∧
        ∃ v, Turn.host op = hostWrites s 0x00 v ∧ v.getLsbD 0 = true) ∨
      (t.jobState = .idle ∧ op = .powerOnReset) := by
  unfold hostStep at h
  cases op with
  | csrWrite addr width v =>
    dsimp only at h
    split at h
    · rename_i r hr
      obtain ⟨off, rfl, -, rfl, rfl⟩ := csrSelect_eq_ok hr
      obtain ⟨hb, hctrl, hv, ht⟩ := csrWrite_jobState h hne
      exact .inl ⟨hb, ht, v, by rw [csrAt_eq_ctrl hctrl, hostWrites], hv⟩
    · cases h
  | csrRead addr width =>
    dsimp only at h
    split at h
    · obtain rfl := Host.Outcome.next.inj h
      exact absurd rfl hne
    · cases h
  | inWrite off b => exact absurd (hostInWrite_jobState h) hne
  | outWrite off b => exact absurd (hostOutWrite_jobState h) hne
  | outRead off => exact absurd (hostOutRead_jobState h) hne
  | powerOnReset =>
    obtain rfl := Host.Outcome.next.inj h
    exact .inr ⟨rfl, rfl⟩

/-- Everything a step is: a core's turn, or a host access, on the state with its turn taken off the list. -/
theorem step_cases {s t : State} (h : step s = .next t) :
    (CoreTurn s ∧ coreStep { s with turns := s.turns.tail } = .next t) ∨
      ∃ op ts, s.turns = .host op :: ts ∧ hostStep op { s with turns := ts } = .next t := by
  cases hl : s.turns with
  | nil => exact .inl ⟨.inl hl, by rwa [List.tail_nil, ← hl, ← step_core hl]⟩
  | cons turn ts =>
    cases turn with
    | core => exact .inl ⟨.inr ⟨ts, hl⟩, by rwa [List.tail_cons, ← step_core_listed hl]⟩
    | host op => exact .inr ⟨op, ts, rfl, by rwa [← step_host hl]⟩

/-- Settles O57: a core's turn ends a running job, a host access starts one or resets, and nothing else changes STATE. -/
theorem stateChangesOnlyAsListed : Obligations.StateChangesOnlyAsListed := by
  refine ⟨⟨rfl, rfl, rfl, rfl⟩, fun s t h hne => ?_⟩
  rcases step_cases h with ⟨hturn, hcore⟩ | ⟨op, ts, hl, hhost⟩
  · obtain ⟨hb, hdone | herror⟩ := coreStep_jobState hcore hne
    · exact .inr (.inl ⟨hdone, hb, hturn⟩)
    · exact .inr (.inr (.inl ⟨herror, hb, hturn⟩))
  · rcases hostStep_jobState hhost hne with ⟨hb, ht, v, hop, hv⟩ | ⟨hidle, rfl⟩
    · have hstart : ∃ v ts, s.turns = hostWrites s 0x00 v :: ts ∧ v.getLsbD 0 = true :=
        ⟨v, ts, hl.trans (congrArg (· :: ts) hop), hv⟩
      rcases ht with hbusy | herror
      · exact .inl ⟨hbusy, hb, hstart⟩
      · exact .inr (.inr (.inr (.inl ⟨herror, hb, hstart⟩)))
    · exact .inr (.inr (.inr (.inr ⟨hidle, ts, hl⟩)))

/-- Settles O56: a step with no host access next is the core's, which is idle. -/
theorem idleCoreChangesNothing : Obligations.IdleCoreChangesNothing := by
  refine fun s hb => ⟨fun ht => ?_, fun ts ht => ?_⟩
  · rw [step_core ht, coreStep_idle hb]
  · rw [step_core_listed ht, coreStep_idle (s := { s with turns := ts }) hb]

/-! ### Power-on (R44, R90) -/

/-- With legal parameters the invariant holds right after power-on: no job runs, nothing is buffered, and every cache
slot is absent. -/
theorem resetWith_inv {p : Params} (h : p.legal = true) : (State.resetWith p).Inv where
  cfg := h
  buffers := ⟨rfl, rfl, fun _ ha => absurd rfl ha, fun _ ha => absurd rfl ha⟩
  cache := by
    constructor
    · intro k hk
      simp [State.resetWith] at hk
    · intro k _
      simp [State.resetWith]
  err := ⟨by simp [State.resetWith], by simp [State.resetWith]⟩
  observed := ⟨nofun, fun _ => rfl⟩
  error := nofun
  done := nofun
  busy := nofun
  decode := nofun
  encode := nofun

/-- Settles O53: the default parameters are legal. -/
theorem resetMeetsTheInvariant : Obligations.ResetMeetsTheInvariant := resetWith_inv (by decide)

end Sys2Proof.Machine
end

section
/-! SUPPORT. The host's accesses to the buffers (20_memory.md R45, R57, R58): what each answers, what it shows of a result, and
what it makes of the model's record that the end of the job has been observed. -/

namespace Sys2Proof.Machine

/-! ### Accesses that are refused (R54, R57) -/

/-- R54: an access that is no aligned 32-bit word selects no register. -/
theorem csrSelect_notAlignedWord (s : State) {off : Nat} {width : AccessWidth} (h : width ≠ .word ∨ off % 4 ≠ 0) :
    csrSelect s (s.cfg.csrBase + off) width = .error .csrAccessNotAlignedWord := by
  have hbase : ¬s.cfg.csrBase + off < s.cfg.csrBase := by omega
  have hword : ¬(width = .word ∧ off % 4 = 0) := by rintro ⟨hw, ha⟩; exact h.elim (· hw) (· ha)
  rw [csrSelect, if_neg hbase, Nat.add_sub_cancel_left, if_neg hword]

/-- Settles O47: the access selects no register, and the refusal is the step's. -/
theorem narrowOrMisalignedCsrAccessIsRefused : Obligations.NarrowOrMisalignedCsrAccessIsRefused := by
  intro s off width v ts hbad
  have hsel := csrSelect_notAlignedWord { s with turns := ts } hbad
  constructor <;> intro ht <;> rw [step_host ht, hostStep, hsel]

/-- R57(a): while BUSY the bytes of IN below L are not the host's to write. -/
theorem hostInWrite_refused {s : State} {off : Nat} (hc : off < s.cfg.inCap.toNat) (hb : s.jobState = .busy)
    (hl : off < s.len.toNat) (b : Byte) : hostInWrite off b s = .refused .hostWroteInWhileBusy := by
  rw [hostInWrite, if_neg (by omega), if_pos ⟨hb, hl⟩]

/-- R57(b): while BUSY no byte of OUT is the host's to write. -/
theorem hostOutWrite_refused {s : State} {off : Nat} (hc : off < s.cfg.outCap.toNat) (hb : s.jobState = .busy) (b : Byte) :
    hostOutWrite off b s = .refused .hostWroteOutWhileBusy := by
  rw [hostOutWrite, if_neg (by omega), if_pos hb]

/-! ### Accesses that are carried out -/

theorem hostInWrite_stores {s : State} {off : Nat} (hc : off < s.cfg.inCap.toNat)
    (hfree : s.jobState ≠ .busy ∨ s.len.toNat ≤ off) (b : Byte) :
    hostInWrite off b s = .next { s with inBuf := s.inBuf.put off b } := by
  have hnot : ¬(s.jobState = .busy ∧ off < s.len.toNat) := by
    rintro ⟨hb, hl⟩
    exact hfree.elim (· hb) (by omega)
  rw [hostInWrite, if_neg (by omega), if_neg hnot]

theorem hostOutWrite_stores {s : State} {off : Nat} (hc : off < s.cfg.outCap.toNat) (hb : s.jobState ≠ .busy) (b : Byte) :
    hostOutWrite off b s = .next { s with outBuf := s.outBuf.put off (outStored b s), draws := s.draws + 1 } := by
  rw [hostOutWrite, if_neg (by omega), if_neg hb]

theorem hostOutRead_shows {s : State} {off : Nat} (hc : off < s.cfg.outCap.toNat) :
    hostOutRead off s = .next { s with response := some (.out off (outShown s off)), draws := s.draws + 1 } := by
  rw [hostOutRead, if_neg (by omega)]

/-- The only next state a write to IN has. -/
theorem hostInWrite_eq_next {off : Nat} {b : Byte} {s t : State} (h : hostInWrite off b s = .next t) :
    t = { s with inBuf := s.inBuf.put off b } := by
  unfold hostInWrite at h
  split_ifs at h
  exact (Host.Outcome.next.inj h).symm

/-- The only next state a write to OUT has. -/
theorem hostOutWrite_eq_next {off : Nat} {b : Byte} {s t : State} (h : hostOutWrite off b s = .next t) :
    t = { s with outBuf := s.outBuf.put off (outStored b s), draws := s.draws + 1 } := by
  unfold hostOutWrite at h
  split_ifs at h
  exact (Host.Outcome.next.inj h).symm

/-- A read of OUT has a next state at an offset that exists, and only that one. -/
theorem hostOutRead_eq_next {off : Nat} {s t : State} (h : hostOutRead off s = .next t) :
    off < s.cfg.outCap.toNat ∧ t = { s with response := some (.out off (outShown s off)), draws := s.draws + 1 } := by
  unfold hostOutRead at h
  split_ifs at h with hc
  exact ⟨by omega, (Host.Outcome.next.inj h).symm⟩

/-- R58: a byte written once the end of the job has been observed is the byte OUT holds. -/
theorem outStored_visible {s : State} (hb : s.jobState ≠ .busy) (ho : s.observed = true) (b : Byte) : outStored b s = b := by
  rw [outStored, if_pos ((resultsVisible_iff s).mpr ⟨hb, ho⟩)]

/-- Settles O48: each buffer refuses the write, or replaces one byte. -/
theorem hostBufferWrites : Obligations.HostBufferWrites := by
  intro s off b ts
  refine ⟨fun ht hc => ⟨fun hb hl => ?_, fun hfree => ?_⟩, fun ht hc => ⟨fun hb => ?_, fun hb => ?_⟩⟩ <;>
    rw [step_host ht, hostStep]
  · exact hostInWrite_refused (s := { s with turns := ts }) hc hb hl b
  · exact ⟨_, s.inBuf.put off b, hostInWrite_stores (s := { s with turns := ts }) hc hfree b, rfl,
      inByte_put { s with turns := ts } off b⟩
  · exact hostOutWrite_refused (s := { s with turns := ts }) hc hb b
  · exact ⟨_, _, outStored b { s with turns := ts }, hostOutWrite_stores (s := { s with turns := ts }) hc hb b, rfl,
      Memory.byteAt_put s.outBuf off _, fun ho => outStored_visible (s := { s with turns := ts }) hb ho b⟩

/-! ### Reading the result (R48, R58) -/

/-- A run whose first step has a next state goes on from there. -/
theorem run_succ {s u : State} (h : step s = .next u) (k : Nat) :
    Host.Core.run Sys2Proof.core (k + 1) s = Host.Core.run Sys2Proof.core k u := by
  simp only [Host.Core.run, core, h]

/-- R58: at DONE, once its end has been observed, a read of OUT returns the byte OUT holds and leaves OUT as it is. -/
theorem step_outRead_of_observed {s : State} {off : Nat} {ts : List Turn} (hd : s.jobState = .done)
    (ho : s.observed = true) (hc : off < s.cfg.outCap.toNat) (ht : s.turns = .host (.outRead off) :: ts) :
    ∃ t, step s = .next t ∧ t.response = some (.out off (outByte s off)) ∧ ∀ a, OutKeeps s t a := by
  have hshown : outShown { s with turns := ts } off = outByte { s with turns := ts } off :=
    outShown_visible (s := { s with turns := ts }) (by simp [hd]) (by simp [hd]) ho off
  rw [step_host ht, hostStep]
  exact ⟨_, hostOutRead_shows (s := { s with turns := ts }) hc, congrArg (fun b => some (Response.out off b)) hshown,
    fun a => ⟨rfl, rfl⟩⟩

/-- R58: a STATUS read that returns DONE or ERROR observes the end of the job. -/
theorem observedAfterRead_status {s : State} (h : s.jobState = .done ∨ s.jobState = .error) :
    observedAfterRead s .status = true := by
  rcases h with h | h <;> simp [observedAfterRead, h]

/-- Settles O49: the invariant lists the bytes below OUT_LEN, and a STATUS read observes the end of the job for the read of
OUT after it. -/
theorem resultBytesAreReadAtDone : Obligations.ResultBytesAreReadAtDone := by
  intro s off ts hinv hd
  refine ⟨fun hlen => ?_, fun hc => ⟨fun ho ht => step_outRead_of_observed hd ho hc ht, fun ht => ?_⟩⟩
  · obtain ⟨b, hb⟩ := Option.ne_none_iff_exists'.mp ((hinv.done hd).1 off hlen)
    rw [outByte_listed hb, hb]
  · have hobs : observedAfterRead { s with turns := .host (.outRead off) :: ts } .status = true :=
      observedAfterRead_status (.inl hd)
    obtain ⟨t, hstep, hresp, hkeep⟩ := step_outRead_of_observed (off := off) (ts := ts)
      (s := csrRead (s.cfg.csrBase + 0x04) .status { s with turns := .host (.outRead off) :: ts }) hd hobs hc rfl
    refine ⟨t, ?_, hresp, hkeep⟩
    rw [run_succ (step_hostReads (by decide) ht)]
    exact run_succ hstep 0

/-! ### What makes the end of a job observed, and what makes it unobserved (R58, R59) -/

/-- R58: a START leaves the new job's end unobserved, whether the job runs or the START fails. -/
theorem startJob_observed {s t : State} (h : (startJob s).outcome = .next t) : t.observed = false := by
  unfold startJob startEncode startDecode readHeader at h
  dsimp only at h
  split at h <;> split_ifs at h <;> obtain rfl := Host.Outcome.next.inj h <;> rfl

/-- A CSR write keeps the record of what is observed, but for a START taken while no job runs. -/
theorem csrWrite_observed {r : Csr} {v : Word} {s t : State} (h : (csrWrite r v s).outcome = .next t) :
    t.observed = s.observed ∨ (t.observed = false ∧ s.jobState ≠ .busy ∧ r = .ctrl ∧ v.getLsbD 0 = true) := by
  by_cases hb : s.jobState = .busy
  · rw [csrWrite_busy hb] at h
    obtain rfl := Host.Outcome.next.inj h
    exact .inl rfl
  · rw [csrWrite.eq_def, if_neg hb] at h
    cases r with
    | ctrl =>
      cases hv : v.getLsbD 0 with
      | true =>
        refine .inr ⟨startJob_observed (s := { s with mode := modeOf v }) ?_, hb, rfl, rfl⟩
        simpa only [writeCtrl, hv, if_true] using h
      | false =>
        rw [writeCtrl_noStart hv] at h
        obtain rfl := Host.Outcome.next.inj h
        exact .inl rfl
    | status | encWidth | encHeight | encChannels | inLen | outLen | hdrWidth | hdrHeight | hdrInfo | pixCount
    | unmapped =>
      obtain rfl := Host.Outcome.next.inj h
      exact .inl rfl

/-- STATUS is at offset 4 only. -/
theorem csrAt_eq_status {off : Nat} (h : csrAt off = .status) : off = 0x04 := by
  by_contra hne
  exact csrAt_ne_status hne h

/-- A CSR read keeps that record, but for a STATUS read that returns DONE or ERROR. -/
theorem observedAfterRead_cases (s : State) (r : Csr) :
    observedAfterRead s r = s.observed ∨
      (observedAfterRead s r = true ∧ r = .status ∧ (s.jobState = .done ∨ s.jobState = .error)) := by
  by_cases hr : r = .status ∧ (s.jobState = .done ∨ s.jobState = .error)
  · obtain ⟨rfl, hend⟩ := hr
    exact .inr ⟨observedAfterRead_status hend, rfl, hend⟩
  · refine .inl ?_
    rw [observedAfterRead, ← Bool.decide_or, ← Bool.decide_and, decide_eq_false hr, Bool.or_false]

/-- Everything a host access can do to that record: keep it, clear it by a START, or set it by a STATUS read of DONE or
ERROR or by a power-on reset. -/
theorem hostStep_observed {op : HostOp} {s t : State} (h : hostStep op s = .next t) :
    t.observed = s.observed ∨
      (t.observed = false ∧ s.jobState ≠ .busy ∧ ∃ v, Turn.host op = hostWrites s 0x00 v ∧ v.getLsbD 0 = true) ∨
      (t.observed = true ∧ (s.jobState = .done ∨ s.jobState = .error) ∧ Turn.host op = hostReads s 0x04) ∨
      (t.observed = true ∧ op = .powerOnReset) := by
  unfold hostStep at h
  cases op with
  | csrWrite addr width v =>
    dsimp only at h
    split at h
    · rename_i r hr
      obtain ⟨off, rfl, -, rfl, rfl⟩ := csrSelect_eq_ok hr
      rcases csrWrite_observed h with hkeep | ⟨hclear, hb, hctrl, hv⟩
      · exact .inl hkeep
      · exact .inr (.inl ⟨hclear, hb, v, by rw [csrAt_eq_ctrl hctrl, hostWrites], hv⟩)
    · cases h
  | csrRead addr width =>
    dsimp only at h
    split at h
    · rename_i r hr
      obtain ⟨off, rfl, -, rfl, rfl⟩ := csrSelect_eq_ok hr
      obtain rfl := Host.Outcome.next.inj h
      rcases observedAfterRead_cases s (csrAt off) with hkeep | ⟨hset, hstatus, hend⟩
      · exact .inl hkeep
      · exact .inr (.inr (.inl ⟨hset, hend, by rw [csrAt_eq_status hstatus, hostReads]⟩))
    · cases h
  | inWrite off b => obtain rfl := hostInWrite_eq_next h; exact .inl rfl
  | outWrite off b => obtain rfl := hostOutWrite_eq_next h; exact .inl rfl
  | outRead off => obtain ⟨-, rfl⟩ := hostOutRead_eq_next h; exact .inl rfl
  | powerOnReset =>
    obtain rfl := Host.Outcome.next.inj h
    exact .inr (.inr (.inr ⟨rfl, rfl⟩))

/-- The core's turn keeps that record (R58: nothing else orders the core's writes against the host). -/
theorem coreStep_observed {s t : State} (h : coreStep s = .next t) : t.observed = s.observed := by
  obtain ⟨-, -, -, -, -, -, -, -, -, -, -, -, -, -, -, hobs⟩ := coreStep_sameInputs h
  exact hobs

/-- Everything a step can do to that record. -/
theorem step_observed {s t : State} (h : step s = .next t) :
    t.observed = s.observed ∨
      (t.observed = false ∧ ∃ v ts, Starts s v ts) ∨
      (t.observed = true ∧ (s.jobState = .done ∨ s.jobState = .error) ∧ ∃ ts, s.turns = hostReads s 0x04 :: ts) ∨
      (t.observed = true ∧ ∃ ts, s.turns = .host .powerOnReset :: ts) := by
  rcases step_cases h with ⟨-, hcore⟩ | ⟨op, ts, hl, hhost⟩
  · have hkeep := coreStep_observed hcore
    exact .inl hkeep
  · rcases hostStep_observed hhost with hkeep | ⟨hclear, hb, v, hop, hv⟩ | ⟨hset, hend, hop⟩ | ⟨hset, rfl⟩
    · exact .inl hkeep
    · exact .inr (.inl ⟨hclear, v, ts, hb, hv, hl.trans (congrArg (· :: ts) hop)⟩)
    · exact .inr (.inr (.inl ⟨hset, hend, ts, hl.trans (congrArg (· :: ts) hop)⟩))
    · exact .inr (.inr (.inr ⟨hset, ts, hl⟩))

/-- Settles O50: the STATUS read is the acquire, and each change of the record is one of the three that `step_observed`
lists. -/
theorem onlyAStatusReadObservesTheEnd : Obligations.OnlyAStatusReadObservesTheEnd := by
  refine ⟨fun s ts hend ht => ?_, fun s t h hs ht => ?_, fun s t h hs ht => ?_⟩
  · refine ⟨_, statusWord s, step_hostReads (by decide) ht, observedAfterRead_status hend, ?_, (statusWord_fields s).1⟩
    exact congrArg (fun v => some (Response.csr _ v)) (csrShown_status { s with turns := ts })
  · rcases step_observed h with hkeep | ⟨hclear, -⟩ | ⟨-, hread⟩ | ⟨-, hreset⟩
    · simp [hs, ht] at hkeep
    · simp [ht] at hclear
    · exact .inl hread
    · exact .inr hreset
  · rcases step_observed h with hkeep | ⟨-, hstart⟩ | ⟨hset, -⟩ | ⟨hset, -⟩
    · simp [hs, ht] at hkeep
    · exact hstart
    · simp [ht] at hset
    · simp [ht] at hset

/-! ### What an unobserved result shows (R57, R58, R182) -/

theorem SameButResults.setTurns {s t : State} (h : SameButResults s t) (ts : List Turn) :
    SameButResults { s with turns := ts } { t with turns := ts } := by
  obtain ⟨m, e, ol, pc, hw, hh, hc, hs, rfl⟩ := h
  exact ⟨m, e, ol, pc, hw, hh, hc, hs, rfl⟩

/-- The two machines have the same turns to come and the same parameters. -/
theorem SameButResults.turns_cfg {s t : State} (h : SameButResults s t) : t.turns = s.turns ∧ t.cfg = s.cfg := by
  obtain ⟨m, e, ol, pc, hw, hh, hc, hs, rfl⟩ := h
  exact ⟨rfl, rfl⟩

theorem resultsVisible_eq_false {s : State} (h : s.jobState = .busy ∨ s.observed = false) : resultsVisible s = false := by
  rcases h with h | h <;> simp [resultsVisible, h]

/-- While the results are not visible a register shows a free value, or holds no result (log 6). -/
theorem csrShown_unordered {s : State} (hv : resultsVisible s = false) (r : Csr) : csrShown s r = csrShownUnordered s r := by
  rw [csrShown, if_neg (Bool.eq_false_iff.mp hv)]

/-- A register then shows the same on two machines that differ only in results. -/
theorem SameButResults.csrShown_eq {s t : State} (h : SameButResults s t) (hv : resultsVisible s = false) (r : Csr) :
    csrShown t r = csrShown s r := by
  obtain ⟨m, e, ol, pc, hw, hh, hc, hs, rfl⟩ := h
  rw [csrShown_unordered hv, csrShown_unordered (by exact hv)]
  cases r <;> rfl

/-- A CSR read then shows, and leaves, the same but for the results. -/
theorem SameButResults.after_csrRead {s t : State} (h : SameButResults s t) (hv : resultsVisible s = false) (addr : Nat)
    (r : Csr) :
    (csrRead addr r t).response = (csrRead addr r s).response ∧
      SameButResults (csrRead addr r s) (csrRead addr r t) := by
  have hshown := h.csrShown_eq hv r
  obtain ⟨m, e, ol, pc, hw, hh, hc, hs, rfl⟩ := h
  refine ⟨congrArg (fun v => some (Response.csr addr v)) hshown, m, e, ol, pc, hw, hh, hc, hs, ?_⟩
  simp only [csrRead, hshown]
  rfl

/-- While the results are not visible a read of OUT shows a free value (log 5). -/
theorem outShown_unordered {s : State} (hv : resultsVisible s = false) (off : Nat) :
    outShown s off = Config.unspecifiedByte s.draws := by
  rw [outShown, if_pos (.inl hv)]

/-- A read of OUT then shows, and leaves, the same but for the results. -/
theorem SameButResults.after_hostOutRead {s t s' : State} (h : SameButResults s t) (hv : resultsVisible s = false) {off : Nat}
    (hs : hostOutRead off s = .next s') :
    ∃ t', hostOutRead off t = .next t' ∧ t'.response = s'.response ∧ SameButResults s' t' := by
  obtain ⟨hc, rfl⟩ := hostOutRead_eq_next hs
  obtain ⟨m, e, ol, pc, hw, hh, hch, hcs, rfl⟩ := h
  refine ⟨_, hostOutRead_shows hc, ?_, m, e, ol, pc, hw, hh, hch, hcs, ?_⟩ <;>
    rw [outShown_unordered hv, outShown_unordered (by exact hv)]

/-- Settles O51: the read shows a free value, or a register that holds no result. -/
theorem unobservedResultsAreNotShown : Obligations.UnobservedResultsAreNotShown := by
  intro s t s' off ts hun hst hturn hstep
  have hv : resultsVisible { s with turns := ts } = false := resultsVisible_eq_false hun
  have hrest := hst.setTurns ts
  obtain ⟨hturns, hcfg⟩ := hst.turns_cfg
  rcases hturn with hout | hcsr
  · rw [step_host hout, hostStep] at hstep
    rw [step_host (hturns.trans hout), hostStep]
    exact hrest.after_hostOutRead hv hstep
  · by_cases ha : off % 4 = 0
    · rw [step_hostReads ha hcsr] at hstep
      obtain rfl := Host.Outcome.next.inj hstep
      have hcsr' : t.turns = hostReads t off :: ts := by rw [hturns, hcsr, hostReads, hostReads, hcfg]
      have haddr : t.cfg.csrBase + off = s.cfg.csrBase + off := by rw [hcfg]
      refine ⟨_, step_hostReads ha hcsr', ?_⟩
      rw [haddr]
      exact hrest.after_csrRead hv _ _
    · rw [(narrowOrMisalignedCsrAccessIsRefused s off .word 0 ts (.inr ha)).2 hcsr] at hstep
      cases hstep

end Sys2Proof.Machine
end

section
/-! SUPPORT. The parts a core step is made of. Each writes OUT by Emit alone (20_memory.md R48, R49), and none reads IN: what a
step takes from IN is the chunk or the pixel it fetches (R46). -/

namespace Sys2Proof.Machine

/-! ### Bytes appended to OUT (R48, R49) -/

/-- OUT of `t` is OUT of `s` with some bytes appended at o, and o moved past them. -/
def Appends (s t : State) : Prop :=
  ∃ bs : List Byte, t.outBuf = s.outBuf.putBytes s.o.toNat bs ∧ t.o.toNat = s.o.toNat + bs.length ∧
    t.outEpoch = s.outEpoch

/-- Where OUT and o are kept, nothing is appended. -/
theorem appends_of_same_out {s t : State} (hout : t.outBuf = s.outBuf) (ho : t.o = s.o) (he : t.outEpoch = s.outEpoch) :
    Appends s t := ⟨[], hout, congrArg BitVec.toNat ho, he⟩

theorem Appends.refl (s : State) : Appends s s := appends_of_same_out rfl rfl rfl

theorem Appends.trans {s t u : State} (h : Appends s t) (h' : Appends t u) : Appends s u := by
  obtain ⟨bs, hout, ho, he⟩ := h
  obtain ⟨bs', hout', ho', he'⟩ := h'
  refine ⟨bs ++ bs', ?_, ?_, he'.trans he⟩
  · rw [hout', hout, ho, Memory.putBytes_append]
  · rw [ho', ho, List.length_append, Nat.add_assoc]

/-- R48: o only moves on. -/
theorem Appends.o_le {s t : State} (h : Appends s t) : s.o.toNat ≤ t.o.toNat := by
  obtain ⟨bs, -, ho, -⟩ := h
  omega

/-- R48: below the old o and from the new o on OUT is as it was. -/
theorem Appends.outKeeps {s t : State} (h : Appends s t) {a : Nat} (ha : a < s.o.toNat ∨ t.o.toNat ≤ a) :
    OutKeeps s t a := by
  obtain ⟨bs, hout, ho, he⟩ := h
  refine outKeeps_of_byteAt he ?_
  rw [hout, Memory.byteAt_putBytes, if_neg (by omega)]

/-- R48: every byte between the old o and the new o is written. -/
theorem Appends.listed {s t : State} (h : Appends s t) {a : Nat} (hlo : s.o.toNat ≤ a) (hhi : a < t.o.toNat) :
    t.outBuf.byteAt a ≠ none := by
  obtain ⟨bs, hout, ho, -⟩ := h
  rw [hout, Memory.byteAt_putBytes, if_pos (by omega), List.getElem?_eq_getElem (by omega)]
  exact Option.some_ne_none _

/-- A part of a core step begun in `s` appends to OUT or ends the job in ERROR; it does not stop the machine. -/
def Flow.AppendsOrRaises (s : State) : Flow → Prop
  | .more t => Appends s t
  | .aborted t => t.jobState = .error
  | .faulted _ => False

theorem Flow.AppendsOrRaises.of_appends {s t : State} {f : Flow} (h : Appends s t) (h' : f.AppendsOrRaises t) :
    f.AppendsOrRaises s := by
  cases f with
  | more u => exact Appends.trans h h'
  | aborted u => exact h'
  | faulted r => exact h'

theorem Flow.AppendsOrRaises.andThen {s : State} {f : Flow} {g : State → Flow} (h : f.AppendsOrRaises s)
    (h' : ∀ t, (g t).AppendsOrRaises t) : (f.andThen g).AppendsOrRaises s := by
  cases f with
  | more t => exact (h' t).of_appends h
  | aborted t => exact h
  | faulted r => exact h

/-- Such a part answers a next state. -/
theorem Flow.AppendsOrRaises.exists_next {s : State} {f : Flow} (h : f.AppendsOrRaises s) : ∃ t, f.outcome = .next t := by
  cases f with
  | more t => exact ⟨t, rfl⟩
  | aborted t => exact ⟨t, rfl⟩
  | faulted r => exact h.elim

theorem Flow.AppendsOrRaises.appends_of_next {s t : State} {f : Flow} (h : f.AppendsOrRaises s)
    (h' : f.outcome = .next t) (hne : t.jobState ≠ .error) : Appends s t := by
  rcases Flow.outcome_eq_next h' with rfl | rfl
  · exact h
  · exact absurd h hne

/-! ### Another IN -/

/-- The machine with other contents of IN. -/
def State.withIn (m : Memory) (e : Nat) (s : State) : State := { s with inBuf := m, inEpoch := e }

section
variable (m : Memory) (e : Nat) (s : State)
@[simp] theorem withIn_cfg : (s.withIn m e).cfg = s.cfg := rfl
@[simp] theorem withIn_mode : (s.withIn m e).mode = s.mode := rfl
@[simp] theorem withIn_len : (s.withIn m e).len = s.len := rfl
@[simp] theorem withIn_inLen : (s.withIn m e).inLen = s.inLen := rfl
@[simp] theorem withIn_ch : (s.withIn m e).ch = s.ch := rfl
@[simp] theorem withIn_i : (s.withIn m e).i = s.i := rfl
@[simp] theorem withIn_ptr : (s.withIn m e).ptr = s.ptr := rfl
@[simp] theorem withIn_cache : (s.withIn m e).cache = s.cache := rfl
end

/-- What a part answers, with other contents of IN. -/
def Flow.withIn (m : Memory) (e : Nat) : Flow → Flow
  | .more s => .more (s.withIn m e)
  | .aborted s => .aborted (s.withIn m e)
  | .faulted r => .faulted r

theorem Flow.withIn_andThen {m : Memory} {e : Nat} {g : State → Flow}
    (h : ∀ s, g (s.withIn m e) = (g s).withIn m e) (f : Flow) :
    (f.withIn m e).andThen g = (f.andThen g).withIn m e := by
  cases f with
  | more s => exact h s
  | aborted s => rfl
  | faulted r => rfl

theorem Flow.withIn_outcome {m : Memory} {e : Nat} {f : Flow} {t : State} (h : f.outcome = .next t) :
    (f.withIn m e).outcome = .next (t.withIn m e) := by
  rcases Flow.outcome_eq_next h with rfl | rfl <;> rfl

/-! ### Parts that emit -/

/-- A part of a core step that reads nothing of IN, writes OUT by Emit alone, and never stops the machine. -/
structure EmitPart (f : State → Flow) : Prop where
  appends : ∀ s, (f s).AppendsOrRaises s
  ignoresIn : ∀ m e s, f (s.withIn m e) = (f s).withIn m e

/-- One part after another. -/
theorem EmitPart.seq {f g : State → Flow} (hf : EmitPart f) (hg : EmitPart g) : EmitPart fun s => (f s).andThen g where
  appends s := (hf.appends s).andThen hg.appends
  ignoresIn m e s := by rw [hf.ignoresIn, Flow.withIn_andThen (hg.ignoresIn m e)]

/-- A change of registers that leaves OUT and o as they are. -/
theorem EmitPart.update {u : State → State}
    (hout : ∀ s, (u s).outBuf = s.outBuf ∧ (u s).o = s.o ∧ (u s).outEpoch = s.outEpoch)
    (hin : ∀ m e s, u (s.withIn m e) = (u s).withIn m e) : EmitPart fun s => .more (u s) where
  appends s := by
    obtain ⟨hbuf, ho, he⟩ := hout s
    exact appends_of_same_out hbuf ho he
  ignoresIn m e s := congrArg Flow.more (hin m e s)

/-- A choice between two parts by a test that reads nothing of IN. -/
theorem EmitPart.ite {c : State → Prop} [DecidablePred c] (hc : ∀ m e s, c (s.withIn m e) ↔ c s) {f g : State → Flow}
    (hf : EmitPart f) (hg : EmitPart g) : EmitPart fun s => if c s then f s else g s where
  appends s := by
    by_cases h : c s
    · simp only [h, if_true, hf.appends]
    · simp only [h, if_false, hg.appends]
  ignoresIn m e s := by
    by_cases h : c s
    · simp only [hc, h, if_true, hf.ignoresIn]
    · simp only [hc, h, if_false, hg.ignoresIn]

theorem emits_withIn (bs : List Byte) (m : Memory) (e : Nat) (s : State) :
    emits bs (s.withIn m e) = (emits bs s).withIn m e := by
  induction bs generalizing s with
  | nil => rfl
  | cons b bs ih =>
    have hemit : emit b (s.withIn m e) = (emit b s).withIn m e := by
      simp only [emit, apply_ite (Flow.withIn m e)]
      rfl
    rw [emits, emits, hemit, Flow.withIn_andThen ih]

theorem emits_appendsOrRaises (bs : List Byte) (s : State) : (emits bs s).AppendsOrRaises s := by
  rcases emits_cases bs s with ⟨h, rfl | hfits⟩ | ⟨h, -, -⟩ <;> rw [h]
  · rw [pushBytes_nil]
    exact Appends.refl s
  · exact ⟨bs, rfl, pushBytes_o_toNat hfits, rfl⟩
  · exact raise_jobState _ _

/-- Emit of bytes that depend on nothing of IN. -/
theorem EmitPart.emits {bs : State → List Byte} (hbs : ∀ m e s, bs (s.withIn m e) = bs s) :
    EmitPart fun s => emits (bs s) s where
  appends s := emits_appendsOrRaises (bs s) s
  ignoresIn m e s := by rw [hbs, emits_withIn]

/-! ### The parts of an ENCODE job -/

theorem headerStep_emitPart : EmitPart headerStep :=
  .seq (.emits fun _ _ _ => rfl) (.update (fun _ => ⟨rfl, rfl, rfl⟩) fun _ _ _ => rfl)

theorem flushRun_emitPart : EmitPart flushRun :=
  .seq (.emits fun _ _ _ => rfl) (.update (fun _ => ⟨rfl, rfl, rfl⟩) fun _ _ _ => rfl)

/-- The repeat branch counts the pixel, and then flushes the run or does nothing. -/
theorem repeatBranch_emitPart : EmitPart fun s => repeatBranch (isLast s) s :=
  .seq (f := fun s => .more { s with run := s.run + 1 })
    (g := fun s => if s.run = 62 ∨ isLast s = true then flushRun s else .more s)
    (.update (fun _ => ⟨rfl, rfl, rfl⟩) fun _ _ _ => rfl)
    (.ite (fun _ _ _ => Iff.rfl) flushRun_emitPart (.update (u := id) (fun _ => ⟨rfl, rfl, rfl⟩) fun _ _ _ => rfl))

/-- R140-R145: the bytes emitted on a miss are those of the selected chunk. -/
theorem emitSelected_eq (cur prev : Pixel) (s : State) : emitSelected cur prev s = emits (encode (selectChunk cur prev)) s := by
  unfold emitSelected selectChunk
  dsimp only
  split_ifs <;> rfl

/-- The lookup emits INDEX on a hit, and otherwise writes the slot and emits the selected chunk. -/
theorem lookupBranch_emitPart (cur : Pixel) : EmitPart (lookupBranch cur) := by
  have hmiss : EmitPart fun s => emitSelected cur s.px (slotWrite cur s) := by
    simp only [emitSelected_eq]
    exact .seq (f := fun s => .more (slotWrite cur s)) (g := fun s => emits (encode (selectChunk cur s.px)) s)
      (.update (fun _ => ⟨rfl, rfl, rfl⟩) fun _ _ _ => rfl) (.emits fun _ _ _ => rfl)
  exact .ite (fun _ _ _ => Iff.rfl) (.emits fun _ _ _ => rfl) hmiss

theorem differBranch_emitPart (cur : Pixel) : EmitPart (differBranch cur) :=
  .seq (.ite (fun _ _ _ => Iff.rfl) (.update (u := id) (fun _ => ⟨rfl, rfl, rfl⟩) fun _ _ _ => rfl) flushRun_emitPart)
    (lookupBranch_emitPart cur)

theorem encodePixel_emitPart (cur : Pixel) : EmitPart (encodePixel cur) :=
  .seq (.ite (fun _ _ _ => Iff.rfl) repeatBranch_emitPart (differBranch_emitPart cur))
    (.update (fun _ => ⟨rfl, rfl, rfl⟩) fun _ _ _ => rfl)

theorem trailStep_emitPart : EmitPart trailStep :=
  .seq (f := fun s => writeEnd { s with phase := .trail })
    (.seq (f := fun s => .more { s with phase := .trail }) (.update (fun _ => ⟨rfl, rfl, rfl⟩) fun _ _ _ => rfl)
      (.emits fun _ _ _ => rfl))
    (.update (fun _ => ⟨rfl, rfl, rfl⟩) fun _ _ _ => rfl)

/-! ### The parts of a DECODE job -/

/-- The meaning of a chunk, as a part of a step (R110). -/
def chunkPart (i : Instr) (s : State) : Flow :=
  chunkTail (execPixel i s) (execCount i) (execLength i) (execRead i s)

theorem exec_eq_chunkPart (i : Instr) (s : State) : exec i s = (chunkPart i s).outcome := exec_eq_tail i s

theorem chunkTail_emitPart (p : Pixel) (count length : Nat) : EmitPart (chunkTail p count length) := by
  have hcopies : EmitPart (emitCopies p count) := by
    rw [funext (emitCopies_eq p count)]
    exact .emits fun _ _ _ => rfl
  exact .seq (f := fun s => emitCopies p count { s with px := p })
    (.seq (f := fun s => .more { s with px := p }) (.update (fun _ => ⟨rfl, rfl, rfl⟩) fun _ _ _ => rfl) hcopies)
    (.update (fun _ => ⟨rfl, rfl, rfl⟩) fun _ _ _ => rfl)

/-- R115: INDEX reads the cache and the draw count. -/
theorem indexRead_withIn (idx : BitVec 6) (m : Memory) (e : Nat) (s : State) :
    indexRead idx (s.withIn m e) = ((indexRead idx s).1, (indexRead idx s).2.withIn m e) := by
  unfold indexRead
  dsimp only
  rw [withIn_cache]
  split_ifs <;> rfl

/-- What a chunk reads before its tail is the cache and PX. -/
theorem chunk_reads_withIn (i : Instr) (m : Memory) (e : Nat) (s : State) :
    execPixel i (s.withIn m e) = execPixel i s ∧ execRead i (s.withIn m e) = (execRead i s).withIn m e := by
  cases i with
  | index idx =>
    have h := indexRead_withIn idx m e s
    exact ⟨by rw [execPixel, h, execPixel], by rw [execRead, h, execRead]⟩
  | diff dR dG dB => exact ⟨rfl, rfl⟩
  | luma dG dRG dBG => exact ⟨rfl, rfl⟩
  | run count => exact ⟨rfl, rfl⟩
  | rgb r g b => exact ⟨rfl, rfl⟩
  | rgba r g b a => exact ⟨rfl, rfl⟩

theorem chunkPart_emitPart (i : Instr) : EmitPart (chunkPart i) where
  appends s := by
    have hread : Appends s (execRead i s) := by
      rcases execRead_cases i s with h | h <;> rw [h]
      · exact Appends.refl s
      · exact appends_of_same_out rfl rfl rfl
    exact ((chunkTail_emitPart _ _ _).appends _).of_appends hread
  ignoresIn m e s := by
    obtain ⟨hpixel, hread⟩ := chunk_reads_withIn i m e s
    rw [chunkPart, hpixel, hread, (chunkTail_emitPart _ _ _).ignoresIn, chunkPart]

theorem finishDecode_emitPart : EmitPart fun s => .more (finishDecode s) :=
  .update (fun _ => ⟨rfl, rfl, rfl⟩) fun _ _ _ => rfl

/-! ### The part that a running job's next step is (R108, R127) -/

/-- The next step of the job running in `s` is the part `f`. -/
inductive CoreRuns (s : State) : (State → Flow) → Prop
  | header (hb : s.jobState = .busy) (hm : s.jobMode = .encode) (hp : s.phase = .hdr) : CoreRuns s headerStep
  | pixel (hb : s.jobState = .busy) (hm : s.jobMode = .encode) (hp : s.phase = .body) (hi : s.i < s.n) (cur : Pixel)
      (hcur : fetchPixel s = .ok cur) : CoreRuns s (encodePixel cur)
  | trail (hb : s.jobState = .busy) (hm : s.jobMode = .encode) (hp : s.phase = .body) (hi : s.i = s.n) :
      CoreRuns s trailStep
  | chunk (hb : s.jobState = .busy) (hm : s.jobMode = .decode) (hp : s.phase = .body) (hdue : chunkDue s = true) (i : Instr)
      (hi : fetchChunk s = .ok i) : CoreRuns s (chunkPart i)
  | finish (hb : s.jobState = .busy) (hm : s.jobMode = .decode) (hp : s.phase = .body) (hdue : chunkDue s = false) :
      CoreRuns s fun s => .more (finishDecode s)

theorem CoreRuns.emitPart {s : State} {f : State → Flow} (h : CoreRuns s f) : EmitPart f := by
  cases h with
  | header => exact headerStep_emitPart
  | pixel _ _ _ _ cur => exact encodePixel_emitPart cur
  | trail => exact trailStep_emitPart
  | chunk _ _ _ _ i => exact chunkPart_emitPart i
  | finish => exact finishDecode_emitPart

theorem coreStep_encode {s : State} (hb : s.jobState = .busy) (hm : s.jobMode = .encode) : coreStep s = encodeStep s := by
  simp only [coreStep, hb, hm]

theorem coreStep_decode {s : State} (hb : s.jobState = .busy) (hm : s.jobMode = .decode) : coreStep s = decodeStep s := by
  simp only [coreStep, hb, hm]

/-- The part is the step. -/
theorem CoreRuns.coreStep_eq {s : State} {f : State → Flow} (h : CoreRuns s f) : coreStep s = (f s).outcome := by
  cases h with
  | header hb hm hp => simp only [coreStep_encode hb hm, encodeStep, hp]
  | pixel hb hm hp hi cur hcur =>
    have hne : s.i ≠ s.n := by bv_omega
    simp only [coreStep_encode hb hm, encodeStep, hp, hne, hi, if_true, if_false, pixelStep, hcur]
  | trail hb hm hp hi => simp only [coreStep_encode hb hm, encodeStep, hp, hi, if_true]
  | chunk hb hm hp hdue i hi =>
    simp only [coreStep_decode hb hm, decodeStep, hp, hdue, if_true, chunkStep, hi, exec_eq_chunkPart]
  | finish hb hm hp hdue =>
    simp only [coreStep_decode hb hm, decodeStep, hp, hdue, Bool.false_eq_true, if_false, Flow.more_outcome]

/-- A step of a running job that answers a next state is one of the parts. -/
theorem coreRuns_of_coreStep {s t : State} (hb : s.jobState = .busy) (h : coreStep s = .next t) : ∃ f, CoreRuns s f := by
  cases hm : s.jobMode with
  | encode =>
    rw [coreStep_encode hb hm, encodeStep] at h
    split at h
    · rename_i hp
      exact ⟨_, .header hb hm hp⟩
    · rename_i hp
      split_ifs at h with heq hlt
      · exact ⟨_, .trail hb hm hp heq⟩
      · cases hcur : fetchPixel s with
        | ok cur => exact ⟨_, .pixel hb hm hp hlt cur hcur⟩
        | error r => simp [pixelStep, hcur, Flow.outcome] at h
    · cases h
  | decode =>
    rw [coreStep_decode hb hm, decodeStep] at h
    split at h
    · rename_i hp
      split_ifs at h with hdue
      · cases hi : fetchChunk s with
        | ok i => exact ⟨_, .chunk hb hm hp hdue i hi⟩
        | error r => simp [chunkStep, hi] at h
      · exact ⟨_, .finish hb hm hp (Bool.eq_false_iff.mpr hdue)⟩
    · cases h
    · cases h

end Sys2Proof.Machine
end

section
/-! SUPPORT. What the core does to the buffers in a running job (20_memory.md R46-R49): it always has a step, it writes OUT in
ascending order, and it reads no byte of IN beyond L. -/

namespace Sys2Proof.Machine

/-! ### A running job always has a step (R46, R77, R185) -/

/-- The turns to come are no part of the invariant. -/
theorem State.Inv.setTurns {s : State} (h : s.Inv) (ts : List Turn) : { s with turns := ts }.Inv where
  cfg := h.cfg
  buffers := ⟨h.buffers.in_wf, h.buffers.out_wf, h.buffers.in_exists, h.buffers.out_exists⟩
  cache := ⟨h.cache.hashed, h.cache.filled⟩
  err := h.err
  observed := h.observed
  error := h.error
  done := h.done
  busy hb :=
    have hj := h.busy hb
    ⟨hj.len_cap, hj.out_cap, hj.mode, hj.in_len, hj.written, hj.cached⟩
  decode hb hm :=
    have hj := h.decode hb hm
    ⟨hj.phase, hj.len_min, hj.ptr_min, hj.ptr_max, hj.whole⟩
  encode hb hm :=
    have hj := h.encode hb hm
    ⟨hj.channels, hj.latched, hj.pixels, hj.index, hj.run_max, hj.run_index, hj.run_end, hj.flag, hj.alpha, hj.place⟩

/-- R46: in the invariant the pixel at i < N exists in IN. -/
theorem State.Inv.fetched {s : State} (h : s.Inv) (hb : s.jobState = .busy) (hm : s.jobMode = .encode) (hi : s.i < s.n) :
    Fetched s (inputPixel s s.ch s.i.toNat) := by
  have hj := h.encode hb hm
  refine ⟨hj.channels, ?_, (h.busy hb).len_cap, rfl⟩
  rw [← hj.pixels]
  exact Nat.mul_le_mul_right _ (Nat.succ_le_of_lt (BitVec.lt_def.mp hi))

/-- In the invariant a running job has a next part. -/
theorem State.Inv.coreRuns {s : State} (h : s.Inv) (hb : s.jobState = .busy) : ∃ f, CoreRuns s f := by
  cases hm : s.jobMode with
  | encode =>
    have hj := h.encode hb hm
    rcases hj.place with ⟨hp, -⟩ | ⟨hp, -⟩
    · exact ⟨_, .header hb hm hp⟩
    · rcases Nat.lt_or_eq_of_le hj.index with hlt | heq
      · exact ⟨_, .pixel hb hm hp hlt _ (fetchPixel_of_fetched (h.fetched hb hm hlt))⟩
      · exact ⟨_, .trail hb hm hp (BitVec.eq_of_toNat_eq heq)⟩
  | decode =>
    have hp := (h.decode hb hm).phase
    cases hdue : chunkDue s with
    | true =>
      have hroom : s.ptr.toNat + 8 < s.len.toNat := of_decide_eq_true hdue
      obtain ⟨i, hi, -⟩ := fetchChunk_ok (by omega) (h.busy hb).len_cap
      exact ⟨_, .chunk hb hm hp hdue i hi⟩
    | false => exact ⟨_, .finish hb hm hp hdue⟩

theorem State.Inv.coreStep_next {s : State} (h : s.Inv) : ∃ t, coreStep s = .next t := by
  by_cases hb : s.jobState = .busy
  · obtain ⟨f, hf⟩ := h.coreRuns hb
    rw [hf.coreStep_eq]
    exact (hf.emitPart.appends s).exists_next
  · exact ⟨s, coreStep_idle hb⟩

/-- Settles O55: a running job has a next part, and no part stops the machine. -/
theorem coreTurnNeverStops : Obligations.CoreTurnNeverStops := by
  rintro s hinv (ht | ⟨ts, ht⟩)
  · rw [step_core ht]
    exact hinv.coreStep_next
  · rw [step_core_listed ht]
    exact (hinv.setTurns ts).coreStep_next

/-! ### OUT is written in ascending order (R48) -/

/-- A step of a running job that does not end in ERROR appends to OUT. -/
theorem coreStep_appends {s t : State} (hb : s.jobState = .busy) (h : coreStep s = .next t) (hne : t.jobState ≠ .error) :
    Appends s t := by
  obtain ⟨f, hf⟩ := coreRuns_of_coreStep hb h
  exact (hf.emitPart.appends s).appends_of_next (hf.coreStep_eq ▸ h) hne

theorem Flow.RunsOnOrOverflows.not_done {s t : State} {f : Flow} (h : f.RunsOnOrOverflows s) (hb : s.jobState = .busy)
    (h' : f.outcome = .next t) : t.jobState ≠ .done := by
  rcases h.outcome h' with hr | ho
  · simp [hr.jobState, hb]
  · simp [ho.jobState]

/-- R124, R151: the step that completes a job makes OUT_LEN the number of bytes written. -/
theorem coreStep_done_outLen {s t : State} (hb : s.jobState = .busy) (h : coreStep s = .next t) (hd : t.jobState = .done) :
    t.outLen = t.o := by
  obtain ⟨f, hf⟩ := coreRuns_of_coreStep hb h
  rw [hf.coreStep_eq] at h
  cases hf with
  | header => exact absurd hd ((headerStep_runsOnOrOverflows s).not_done hb h)
  | pixel _ _ _ _ cur => exact absurd hd ((encodePixel_runsOnOrOverflows cur s).not_done hb h)
  | trail =>
    rcases Flow.outcome_eq_next h with hmore | habort
    · obtain ⟨u, -, hu⟩ := Flow.andThen_eq_more hmore
      obtain rfl := Flow.more.inj hu
      rfl
    · have herr := trailStep_emitPart.appends s
      rw [habort] at herr
      exact absurd (hd.symm.trans herr) (by decide)
  | chunk _ _ _ _ i =>
    rcases exec_runsOn_or_overflows ((exec_eq_chunkPart i s).trans h) with hr | ho
    · exact absurd (hd.symm.trans (hr.jobState.trans hb)) (by decide)
    · exact absurd (hd.symm.trans ho.jobState) (by decide)
  | finish =>
    obtain rfl := Host.Outcome.next.inj h
    rfl

/-- The first step of a run that ends in a next state has one. -/
theorem run_succ_eq_next {k : Nat} {s t : State} (h : Host.Core.run Sys2Proof.core (k + 1) s = .next t) :
    ∃ u, step s = .next u ∧ Host.Core.run Sys2Proof.core k u = .next t := by
  cases hu : step s with
  | next u => exact ⟨u, rfl, run_succ hu k ▸ h⟩
  | fault r => simp [Host.Core.run, core, hu] at h
  | refused r => simp [Host.Core.run, core, hu] at h

/-- R15: with the host silent a machine whose job is over stays as it is. -/
theorem run_idle {k : Nat} {s t : State} (hb : s.jobState ≠ .busy) (ht : s.turns = [])
    (h : Host.Core.run Sys2Proof.core k s = .next t) : t = s := by
  induction k with
  | zero => exact (Host.Outcome.next.inj h).symm
  | succ k ih =>
    rw [run_succ ((step_core ht).trans (coreStep_idle hb))] at h
    exact ih h

/-- A run with the host silent that ends in DONE appends to OUT, and OUT_LEN is then the number of bytes written. -/
theorem run_done_appends {k : Nat} {s t : State} (hb : s.jobState = .busy) (ht : s.turns = [])
    (h : Host.Core.run Sys2Proof.core k s = .next t) (hd : t.jobState = .done) : Appends s t ∧ t.outLen = t.o := by
  induction k generalizing s with
  | zero =>
    obtain rfl := Host.Outcome.next.inj h
    exact absurd (hb.symm.trans hd) (by decide)
  | succ k ih =>
    obtain ⟨u, hu, hrest⟩ := run_succ_eq_next h
    rw [step_core ht] at hu
    rcases coreStep_cases hu with ⟨hnb, -⟩ | ⟨-, hr | hc | ho⟩
    · exact absurd hb hnb
    · have hub := hr.jobState.trans hb
      obtain ⟨happ, hlen⟩ := ih hub (hr.turns.trans ht) hrest
      exact ⟨(coreStep_appends hb hu (by simp [hub])).trans happ, hlen⟩
    · have hdone := hc.jobState
      obtain rfl := run_idle (by simp [hdone]) (hc.turns.trans ht) hrest
      exact ⟨coreStep_appends hb hu (by simp [hdone]), coreStep_done_outLen hb hu hdone⟩
    · have herr := ho.jobState
      obtain rfl := run_idle (by simp [herr]) (ho.turns.trans ht) hrest
      exact absurd (hd.symm.trans herr) (by decide)

/-- Settles O59: a step appends to OUT, and so does a run of steps that ends in DONE. -/
theorem outIsWrittenInOrder : Obligations.OutIsWrittenInOrder := by
  refine ⟨fun s t _ hb h hne => ?_, fun s t k _ hb ht h hd a ha => ?_⟩
  · have happ := coreStep_appends hb h hne
    exact ⟨happ.o_le, fun a => happ.outKeeps, fun a => happ.listed⟩
  · obtain ⟨happ, hlen⟩ := run_done_appends hb ht h hd
    exact happ.outKeeps (.inr (hlen ▸ ha))

/-! ### No byte of IN at or above L is read (R46, R47) -/

/-- Other contents of IN that are the same below offset `l`. -/
def InAgrees (l : Nat) (m : Memory) (e : Nat) (s : State) : Prop := ∀ a, a < l → inByte (s.withIn m e) a = inByte s a

theorem InAgrees.inBytes_withIn {l : Nat} {m : Memory} {e : Nat} {s : State} (h : InAgrees l m e s) {off k : Nat}
    (hl : off + k ≤ l) : inBytes (s.withIn m e) off k = inBytes s off k := by
  induction k generalizing off with
  | zero => rfl
  | succ k ih => rw [inBytes, inBytes, h off (by omega), ih (by omega)]

theorem InAgrees.memRead_withIn {m : Memory} {e : Nat} {s : State} (h : InAgrees s.len.toNat m e s) (off k : Nat) :
    memRead (s.withIn m e) off k = memRead s off k := by
  rw [memRead_eq, memRead_eq, withIn_len, withIn_cfg]
  split_ifs with hr
  · rw [h.inBytes_withIn hr.1]
  · rfl

theorem InAgrees.fetchPixel_withIn {m : Memory} {e : Nat} {s : State} (h : InAgrees s.len.toNat m e s) :
    fetchPixel (s.withIn m e) = fetchPixel s := by
  unfold fetchPixel
  simp only [withIn_ch, withIn_i, h.memRead_withIn]

theorem InAgrees.fetchChunk_withIn {m : Memory} {e : Nat} {s : State} (h : InAgrees s.len.toNat m e s)
    (hptr : s.ptr.toNat < s.len.toNat) : fetchChunk (s.withIn m e) = fetchChunk s := by
  unfold fetchChunk
  simp only [withIn_ptr, h _ hptr, h.memRead_withIn]

/-- A running job's next part is the same. -/
theorem CoreRuns.withIn {s : State} {f : State → Flow} (hf : CoreRuns s f) {m : Memory} {e : Nat}
    (h : InAgrees s.len.toNat m e s) : CoreRuns (s.withIn m e) f := by
  cases hf with
  | header hb hm hp => exact .header hb hm hp
  | pixel hb hm hp hi cur hcur => exact .pixel (s := s.withIn m e) hb hm hp hi cur (h.fetchPixel_withIn.trans hcur)
  | trail hb hm hp hi => exact .trail hb hm hp hi
  | chunk hb hm hp hdue i hi =>
    have hptr : s.ptr.toNat + 8 < s.len.toNat := of_decide_eq_true hdue
    exact .chunk (s := s.withIn m e) hb hm hp hdue i ((h.fetchChunk_withIn (by omega)).trans hi)
  | finish hb hm hp hdue => exact .finish hb hm hp hdue

theorem coreStep_withIn {m : Memory} {e : Nat} {s t : State} (hb : s.jobState = .busy) (h : coreStep s = .next t)
    (hin : InAgrees s.len.toNat m e s) : coreStep (s.withIn m e) = .next (t.withIn m e) := by
  obtain ⟨f, hf⟩ := coreRuns_of_coreStep hb h
  rw [(hf.withIn hin).coreStep_eq, hf.emitPart.ignoresIn]
  exact Flow.withIn_outcome (hf.coreStep_eq ▸ h)

/-- R126: the ENCODE start step reads nothing of IN. -/
theorem startEncode_withIn (m : Memory) (e : Nat) (s : State) :
    startEncode (s.withIn m e) = (startEncode s).withIn m e := by
  have hok : paramsOk (latchParams (beginJob (s.withIn m e))) = paramsOk (latchParams (beginJob s)) := rfl
  simp only [startEncode, hok, apply_ite (Flow.withIn m e)]
  rfl

/-- R100: the header is in the first 14 bytes of IN. -/
theorem InAgrees.readHeader_withIn {m : Memory} {e : Nat} {s : State} (h : InAgrees 14 m e s) :
    readHeader (s.withIn m e) = (readHeader s).withIn m e := by
  have hparse : parseHeader (s.withIn m e) = (parseHeader s).withIn m e := by
    have hbyte : ∀ a, a < 14 → inByte (s.withIn m e) a = inByte s a := h
    simp (disch := decide) only [parseHeader, hbyte]
    rfl
  simp only [readHeader, h.inBytes_withIn (off := 0) (k := 4) (by omega), hparse, apply_ite (Flow.withIn m e)]
  rfl

/-- R106: a DECODE job begun and its L latched, before the checks. -/
def latchLen (s : State) : State := { beginJob s with len := s.inLen }

/-- R106, R157: the checks of the DECODE start step, and what it does when they pass. -/
theorem startDecode_eq (s : State) :
    startDecode s =
      if s.cfg.inCap < s.inLen then .aborted (raise .param (latchLen s))
      else if s.inLen < 22 then .aborted (raise .truncated (latchLen s))
      else (readHeader (latchLen s)).andThen fun t => .more (decoderInit t) := rfl

/-- R106: the DECODE start step reads the header, and does so only where L is at least 22. -/
theorem InAgrees.startDecode_withIn {m : Memory} {e : Nat} {s : State} (h : InAgrees s.inLen.toNat m e s) :
    startDecode (s.withIn m e) = (startDecode s).withIn m e := by
  have hlatch : latchLen (s.withIn m e) = (latchLen s).withIn m e := rfl
  rw [startDecode_eq, startDecode_eq, withIn_cfg, withIn_inLen, hlatch]
  split_ifs with hcap hlen
  · rfl
  · rfl
  · have hmin : 22 ≤ s.inLen.toNat := by bv_omega
    have hheader : InAgrees 14 m e (latchLen s) := fun a ha => h a (by omega)
    rw [hheader.readHeader_withIn, Flow.withIn_andThen fun _ => rfl]

theorem InAgrees.startJob_withIn {m : Memory} {e : Nat} {s : State} (h : InAgrees s.inLen.toNat m e s) :
    startJob (s.withIn m e) = (startJob s).withIn m e := by
  unfold startJob
  rw [withIn_mode]
  split
  · exact startEncode_withIn m e s
  · exact h.startDecode_withIn

/-- A start step latches IN_LEN as L, and keeps IN. -/
theorem startJob_keeps {s t : State} (h : (startJob s).outcome = .next t) :
    t.len = s.inLen ∧ t.inBuf = s.inBuf ∧ t.inEpoch = s.inEpoch := by
  unfold startJob startEncode startDecode readHeader at h
  dsimp only at h
  split at h <;> split_ifs at h <;> obtain rfl := Host.Outcome.next.inj h <;> exact ⟨rfl, rfl, rfl⟩

/-- R30: a START is the start step of the MODE written. -/
theorem step_start {s : State} {v : Word} {ts : List Turn} (h : Starts s v ts) :
    step s = (startJob { s with turns := ts, mode := modeOf v }).outcome := by
  obtain ⟨hb, hv, ht⟩ := h
  rw [step_hostWrites (by decide) ht]
  simp only [csrAt, if_true, csrWrite, hb, if_false, writeCtrl, hv]

/-- Machines that differ in IN, and agree below L, still do where L and IN are kept. -/
theorem InAgrees.sameInputBelow {l : Word} {m : Memory} {e : Nat} {s t : State} (h : InAgrees l.toNat m e s)
    (hlen : t.len = l) (hbuf : t.inBuf = s.inBuf) (hepoch : t.inEpoch = s.inEpoch) :
    SameInputBelow t.len t (t.withIn m e) := by
  refine ⟨⟨m, e, rfl⟩, fun a ha => ?_⟩
  have hkeep : inByte t a = inByte s a := by rw [inByte, inByte, hbuf, hepoch]
  exact (h a (hlen ▸ ha)).trans hkeep.symm

/-- Settles O60: neither the part that a running job's step is nor the start step changes with IN at or above L. -/
theorem noByteBeyondLIsRead : Obligations.NoByteBeyondLIsRead := by
  refine fun s t s' => ⟨fun hb hst h => ?_, fun v ts hstart hst h => ?_⟩ <;>
    obtain ⟨⟨m, e, rfl⟩, hin⟩ := hst
  · obtain ⟨-, -, -, -, -, -, -, hlen, -, -, -, -, hbuf, hepoch, -⟩ := coreStep_sameInputs h
    exact ⟨_, coreStep_withIn hb h hin, InAgrees.sameInputBelow hin hlen hbuf hepoch⟩
  · have hsame := InAgrees.startJob_withIn (m := m) (e := e) (s := { s with turns := ts, mode := modeOf v }) hin
    rw [step_start hstart] at h
    obtain ⟨hlen, hbuf, hepoch⟩ := startJob_keeps h
    refine ⟨s'.withIn m e, ?_, InAgrees.sameInputBelow hin hlen hbuf hepoch⟩
    exact (step_start (s := s.withIn m e) hstart).trans
      ((congrArg Flow.outcome hsame).trans (Flow.withIn_outcome h))

end Sys2Proof.Machine
end

section
/-! SUPPORT. Decoding undoes packing (30_encoding.md R65-R82): a packed chunk is its fields side by side, and the bytes of a
chunk take apart into the same fields. -/

namespace Sys2Proof

open BitVec (extractLsb'_append_eq_left extractLsb'_append_eq_right extractLsb'_append_extractLsb')
open Machine (toNat_append_eq_add)

/-! ### Biased operands (R70, R71) -/

/-- Taking the bias off again gives the field. -/
theorem ofInt_biased_add {w : Nat} (n : Nat) (f : BitVec w) (bias : Int) :
    BitVec.ofInt n (biased f bias + bias) = f.setWidth n := by
  rw [biased, Int.sub_add_cancel, BitVec.ofInt_natCast, BitVec.ofNat_toNat]

/-- Every operand in the range of a field is what some field reads as. -/
theorem exists_biased {w : Nat} {bias v : Int} (h : inRange (-bias) (2 ^ w - 1 - bias) v = true) :
    ∃ f : BitVec w, v = biased f bias := by
  rw [inRange_iff] at h
  have hmod : (v + bias) % ((2 ^ w : Nat) : Int) = v + bias := Int.emod_eq_of_lt (by omega) (by push_cast; omega)
  refine ⟨BitVec.ofInt w (v + bias), ?_⟩
  rw [biased, BitVec.toNat_ofInt, hmod]
  omega

/-- Every count of a RUN is one more than some field (R72). -/
theorem exists_runField {count : Nat} (h : (Instr.run count).wellFormed = true) : ∃ f : BitVec 6, count = f.toNat + 1 := by
  simp only [Instr.wellFormed, Bool.and_eq_true, decide_eq_true_eq] at h
  refine ⟨BitVec.ofNat 6 (count - 1), ?_⟩
  rw [BitVec.toNat_ofNat]
  omega

/-! ### A packed chunk is its fields side by side (R65-R69, R81) -/

theorem packIndex_eq_append (f : BitVec 6) : packIndex f = [0b00#2 ++ f] := by
  revert f; decide

theorem packDiff_eq_append (r g b : BitVec 2) : packDiff (biased r 2) (biased g 2) (biased b 2) = [0b01#2 ++ r ++ g ++ b] := by
  simp only [packDiff, ofInt_biased_add]
  revert r g b; decide

theorem packLuma_eq_append (g : BitVec 6) (rg bg : BitVec 4) :
    packLuma (biased g 32) (biased rg 8) (biased bg 8) = [0b10#2 ++ g, rg ++ bg] := by
  have htag : 0x80#8 ||| g.setWidth 8 = 0b10#2 ++ g := by
    revert g; decide
  have hnibbles : (rg.setWidth 8 <<< 4) ||| bg.setWidth 8 = rg ++ bg := by
    revert rg bg; decide
  simp only [packLuma, ofInt_biased_add, htag, hnibbles]

theorem packRun_eq_append (f : BitVec 6) : packRun (f.toNat + 1) = [0b11#2 ++ f] := by
  revert f; decide

/-! ### Those fields are what the operands are read from (R70-R75) -/

theorem indexOperands_append (t : BitVec 2) (f : BitVec 6) : indexOperands (t ++ f) = .index f := by
  rw [indexOperands, extractLsb'_append_eq_right]

theorem diffOperands_append (r g b : BitVec 2) :
    diffOperands (0b01#2 ++ r ++ g ++ b) = .diff (biased r 2) (biased g 2) (biased b 2) := by
  revert r g b; decide

theorem lumaOperands_append (t : BitVec 2) (g : BitVec 6) (rg bg : BitVec 4) :
    lumaOperands (t ++ g) (rg ++ bg) = .luma (biased g 32) (biased rg 8) (biased bg 8) := by
  rw [lumaOperands, extractLsb'_append_eq_right, extractLsb'_append_eq_left, extractLsb'_append_eq_right]

theorem runOperands_append (t : BitVec 2) (f : BitVec 6) : runOperands (t ++ f) = .run (f.toNat + 1) := by
  rw [runOperands, extractLsb'_append_eq_right]

/-! ### A tag in its range is its fields side by side (R68, R76) -/

/-- A tag's top two bits say which quarter of the range it lies in. -/
theorem append_low_of_div {tag : Byte} {t : BitVec 2} (h : tag.toNat / 64 = t.toNat) : t ++ tag.extractLsb' 0 6 = tag := by
  have htop : tag.extractLsb' 6 2 = t := by
    refine BitVec.eq_of_toNat_eq ?_
    rw [BitVec.extractLsb'_toNat, Nat.shiftRight_eq_div_pow]
    omega
  rw [← htop]
  exact extractLsb'_append_extractLsb'

/-- The low six bits of a tag are three fields of two bits (R66). -/
theorem append_pairs (t : BitVec 2) (tag : Byte) :
    t ++ tag.extractLsb' 4 2 ++ tag.extractLsb' 2 2 ++ tag.extractLsb' 0 2 = t ++ tag.extractLsb' 0 6 := by
  refine BitVec.eq_of_toNat_eq ?_
  rw [toNat_append_eq_add, toNat_append_eq_add, toNat_append_eq_add, toNat_append_eq_add]
  simp only [BitVec.extractLsb'_toNat, Nat.shiftRight_eq_div_pow]
  omega

theorem encode_indexOperands {tag : Byte} (h : tag.toNat < 0x40) : encode (indexOperands tag) = [tag] := by
  rw [indexOperands, encode, packIndex_eq_append, append_low_of_div]
  bv_omega

theorem encode_diffOperands {tag : Byte} (h : 0x40 ≤ tag.toNat) (h' : tag.toNat < 0x80) : encode (diffOperands tag) = [tag] := by
  rw [diffOperands, encode, packDiff_eq_append, append_pairs, append_low_of_div]
  bv_omega

theorem encode_lumaOperands {tag : Byte} (b2 : Byte) (h : 0x80 ≤ tag.toNat) (h' : tag.toNat < 0xC0) :
    encode (lumaOperands tag b2) = [tag, b2] := by
  have hnibbles : b2.extractLsb' 4 4 ++ b2.extractLsb' 0 4 = b2 := extractLsb'_append_extractLsb'
  rw [lumaOperands, encode, packLuma_eq_append, append_low_of_div, hnibbles]
  bv_omega

theorem encode_runOperands {tag : Byte} (h : 0xC0 ≤ tag.toNat) : encode (runOperands tag) = [tag] := by
  rw [runOperands, encode, packRun_eq_append, append_low_of_div]
  bv_omega

/-! ### Operand assembly is the inverse of packing (R80, R81) -/

/-- R81, for every chunk type. -/
theorem tagOfPacked (i : Instr) : Laws.TagOfPacked.Statement i := by
  cases i with
  | index idx => exact Laws.TagOfPacked.index idx
  | diff dR dG dB => exact Laws.TagOfPacked.diff dR dG dB
  | luma dG dRG dBG => exact Laws.TagOfPacked.luma dG dRG dBG
  | run count => exact Laws.TagOfPacked.run count
  | rgb r g b => exact Laws.TagOfPacked.rgb r g b
  | rgba r g b a => exact Laws.TagOfPacked.rgba r g b a

theorem classify_of_encode {i : Instr} {tag : Byte} {ops : List Byte} (hwf : i.wellFormed = true)
    (h : encode i = tag :: ops) : classify tag = (i.chunkType, ops.length + 1) := by
  have hp := tagOfPacked i hwf
  rw [h] at hp
  exact Option.some.inj hp

/-- The bytes a well-formed chunk is packed into assemble to that chunk. -/
theorem exists_assembleOperands_of_wellFormed {i : Instr} (h : i.wellFormed = true) :
    ∃ tag ops, encode i = tag :: ops ∧ assembleOperands i.chunkType tag ops = some i := by
  cases i with
  | index f => exact ⟨_, _, packIndex_eq_append f, congrArg some (indexOperands_append _ f)⟩
  | diff dR dG dB =>
    simp only [Instr.wellFormed, Bool.and_eq_true] at h
    obtain ⟨⟨hr, hg⟩, hb⟩ := h
    obtain ⟨r, rfl⟩ := exists_biased (w := 2) (bias := 2) hr
    obtain ⟨g, rfl⟩ := exists_biased (w := 2) (bias := 2) hg
    obtain ⟨b, rfl⟩ := exists_biased (w := 2) (bias := 2) hb
    exact ⟨_, _, packDiff_eq_append r g b, congrArg some (diffOperands_append r g b)⟩
  | luma dG dRG dBG =>
    simp only [Instr.wellFormed, Bool.and_eq_true] at h
    obtain ⟨⟨hg, hrg⟩, hbg⟩ := h
    obtain ⟨g, rfl⟩ := exists_biased (w := 6) (bias := 32) hg
    obtain ⟨rg, rfl⟩ := exists_biased (w := 4) (bias := 8) hrg
    obtain ⟨bg, rfl⟩ := exists_biased (w := 4) (bias := 8) hbg
    exact ⟨_, _, packLuma_eq_append g rg bg, congrArg some (lumaOperands_append _ g rg bg)⟩
  | run count =>
    obtain ⟨f, rfl⟩ := exists_runField h
    exact ⟨_, _, packRun_eq_append f, congrArg some (runOperands_append _ f)⟩
  | rgb r g b => exact ⟨_, _, rfl, rfl⟩
  | rgba r g b a => exact ⟨_, _, rfl, rfl⟩

/-- R81: a chunk packed into a tag and operand bytes is the one they assemble to. -/
theorem assembleOperands_of_encode {i : Instr} {tag : Byte} {ops : List Byte} (hwf : i.wellFormed = true)
    (h : encode i = tag :: ops) : assembleOperands (classify tag).1 tag ops = some i := by
  obtain ⟨tag', ops', h', hasm⟩ := exists_assembleOperands_of_wellFormed hwf
  obtain ⟨rfl, rfl⟩ := List.cons.inj (h'.symm.trans h)
  rw [classify_of_encode hwf h]
  exact hasm

/-- R64: the bytes of a chunk of each type. -/
def ChunkType.byteLength : ChunkType → Nat
  | .index | .diff | .run => 1
  | .luma => 2
  | .rgb => 4
  | .rgba => 5

theorem ChunkType.byteLength_pos (t : ChunkType) : 0 < t.byteLength := by
  cases t <;> decide

theorem ChunkType.byteLength_le (t : ChunkType) : t.byteLength ≤ 5 := by
  cases t <;> decide

/-- R68: the length the recognizer answers is that of the type. -/
theorem classify_snd (b : Byte) : (classify b).2 = (classify b).1.byteLength := by
  rcases classify_cases b with ⟨e, -⟩ | ⟨e, -⟩ | ⟨e, -⟩ | ⟨e, -⟩ | ⟨e, -⟩ | ⟨e, -⟩ <;> rw [e] <;> rfl

/-- Operand assembly takes exactly as many operand bytes as the type has. -/
theorem length_of_assembleOperands {t : ChunkType} {tag : Byte} {ops : List Byte} {i : Instr}
    (h : assembleOperands t tag ops = some i) : ops.length + 1 = t.byteLength := by
  unfold assembleOperands at h
  split at h <;> cases h <;> rfl

/-- R77: a tag with as many operand bytes as its length asks for assembles to a chunk, which is packed into just those
bytes. -/
theorem exists_assembleOperands {tag : Byte} {ops : List Byte} (h : ops.length + 1 = (classify tag).2) :
    ∃ i, assembleOperands (classify tag).1 tag ops = some i ∧ i.wellFormed = true ∧ encode i = tag :: ops := by
  rcases classify_cases tag with ⟨e, hlt⟩ | ⟨e, hge, hlt⟩ | ⟨e, hge, hlt⟩ | ⟨e, hge, hlt⟩ | ⟨e, heq⟩ | ⟨e, heq⟩ <;>
    simp only [e, Nat.reduceEqDiff, Nat.add_eq_right] at h ⊢
  · obtain rfl := List.length_eq_zero_iff.mp h
    exact ⟨_, rfl, rfl, encode_indexOperands hlt⟩
  · obtain rfl := List.length_eq_zero_iff.mp h
    exact ⟨_, rfl, diffOperands_wellFormed tag, encode_diffOperands hge hlt⟩
  · obtain ⟨b2, rfl⟩ := List.length_eq_one_iff.mp h
    exact ⟨_, rfl, lumaOperands_wellFormed tag b2, encode_lumaOperands b2 hge hlt⟩
  · obtain rfl := List.length_eq_zero_iff.mp h
    exact ⟨_, rfl, runOperands_wellFormed tag hge hlt, encode_runOperands hge⟩
  · obtain ⟨r, g, b, rfl⟩ := List.length_eq_three.mp h
    obtain rfl : tag = 0xFE := BitVec.eq_of_toNat_eq heq
    exact ⟨_, rfl, rfl, rfl⟩
  · obtain ⟨r, g, b, a, rfl⟩ := List.length_eq_four.mp h
    obtain rfl : tag = 0xFF := BitVec.eq_of_toNat_eq heq
    exact ⟨_, rfl, rfl, rfl⟩

/-- R80, R81: operand assembly answers exactly the well-formed chunks packed into those bytes. -/
theorem assembleOperands_eq_some_iff {i : Instr} {tag : Byte} {ops : List Byte} :
    assembleOperands (classify tag).1 tag ops = some i ↔ i.wellFormed = true ∧ encode i = tag :: ops := by
  constructor
  · intro h
    obtain ⟨j, hj, hpacked⟩ := exists_assembleOperands ((length_of_assembleOperands h).trans (classify_snd tag).symm)
    obtain rfl := Option.some.inj (hj.symm.trans h)
    exact hpacked
  · rintro ⟨hwf, h⟩
    exact assembleOperands_of_encode hwf h

/-! ### Decoding (R80) -/

theorem decode_eq_chunk {i : Instr} {tag : Byte} {ops : List Byte}
    (h : assembleOperands (classify tag).1 tag (ops.take ((classify tag).2 - 1)) = some i) :
    decode (tag :: ops) = .chunk i (ops.drop ((classify tag).2 - 1)) := by
  rw [decode, h]

theorem decode_eq_rejected {tag : Byte} {ops : List Byte}
    (h : assembleOperands (classify tag).1 tag (ops.take ((classify tag).2 - 1)) = none) :
    decode (tag :: ops) = .rejected (.operandsMissing (classify tag).1) := by
  rw [decode, h]

theorem assembleOperands_of_decode {i : Instr} {tag : Byte} {ops rest : List Byte} (h : decode (tag :: ops) = .chunk i rest) :
    assembleOperands (classify tag).1 tag (ops.take ((classify tag).2 - 1)) = some i ∧
      ops.drop ((classify tag).2 - 1) = rest := by
  cases hi : assembleOperands (classify tag).1 tag (ops.take ((classify tag).2 - 1)) with
  | none => exact absurd ((decode_eq_rejected hi).symm.trans h) (by simp)
  | some j =>
    obtain ⟨rfl, rfl⟩ := Decoded.chunk.inj ((decode_eq_chunk hi).symm.trans h)
    exact ⟨rfl, rfl⟩

/-- R80, R81: decoding answers exactly the well-formed chunks that the bytes begin with, and the bytes after them. -/
theorem decode_eq_chunk_iff {bs : List Byte} {i : Instr} {rest : List Byte} :
    decode bs = .chunk i rest ↔ i.wellFormed = true ∧ encode i ++ rest = bs := by
  constructor
  · intro h
    cases bs with
    | nil => exact absurd h (by simp [decode])
    | cons tag ops =>
      obtain ⟨hasm, rfl⟩ := assembleOperands_of_decode h
      obtain ⟨hwf, henc⟩ := assembleOperands_eq_some_iff.mp hasm
      exact ⟨hwf, by rw [henc, List.cons_append, List.take_append_drop]⟩
  · rintro ⟨hwf, rfl⟩
    obtain ⟨tag, ops, henc, -⟩ := exists_assembleOperands_of_wellFormed hwf
    have hlen : (classify tag).2 - 1 = ops.length := by rw [classify_of_encode hwf henc, Nat.add_sub_cancel]
    have hasm : assembleOperands (classify tag).1 tag ((ops ++ rest).take ((classify tag).2 - 1)) = some i := by
      rw [hlen, List.take_left, assembleOperands_eq_some_iff]
      exact ⟨hwf, henc⟩
    rw [henc, List.cons_append, decode_eq_chunk hasm, hlen, List.drop_left]

/-- Settles O1: decoding finds every well-formed chunk that the bytes begin with. -/
theorem decodeOfEncodeIsTheChunk : Obligations.DecodeOfEncodeIsTheChunk :=
  fun _ _ hwf => decode_eq_chunk_iff.mpr ⟨hwf, rfl⟩

/-- Settles O2: decoding finds nothing else. -/
theorem encodeOfDecodeIsTheBytes : Obligations.EncodeOfDecodeIsTheBytes :=
  fun _ _ _ h => decode_eq_chunk_iff.mp h

theorem decode_of_length_le {tag : Byte} {ops : List Byte} (h : (classify tag).2 ≤ ops.length + 1) :
    ∃ i, decode (tag :: ops) = .chunk i (ops.drop ((classify tag).2 - 1)) ∧ i.wellFormed = true ∧
      classify tag = (i.chunkType, (encode i).length) := by
  have hpos : 0 < (classify tag).2 := by
    rw [classify_snd]
    exact ChunkType.byteLength_pos _
  obtain ⟨i, hasm, hwf, henc⟩ := exists_assembleOperands (tag := tag) (ops := ops.take ((classify tag).2 - 1))
    (by rw [List.length_take]; omega)
  refine ⟨i, decode_eq_chunk hasm, hwf, ?_⟩
  rw [classify_of_encode hwf henc, henc, List.length_cons]

theorem decode_of_length_lt {tag : Byte} {ops : List Byte} (h : ops.length + 1 < (classify tag).2) :
    decode (tag :: ops) = .rejected (.operandsMissing (classify tag).1) := by
  refine decode_eq_rejected (Option.eq_none_iff_forall_ne_some.mpr fun i hasm => ?_)
  have hlen := length_of_assembleOperands hasm
  rw [← classify_snd, List.length_take] at hlen
  omega

/-- Settles O4: whether the bytes left are as many as the length of the tag. -/
theorem decodingTakesTheLengthOfTheTag : Obligations.DecodingTakesTheLengthOfTheTag := by
  intro tag ops
  refine ⟨fun h => ?_, decode_of_length_lt⟩
  obtain ⟨i, hdec, -, hcls⟩ := decode_of_length_le h
  exact ⟨i, hdec, by rw [hcls], by rw [hcls]⟩

/-! ### The opcode map and the assembler (R76, R82) -/

/-- Settles O3: the answers of the recognizer, each with its range. -/
theorem tagRangesSelectTheType : Obligations.TagRangesSelectTheType := by
  intro b
  have hrgb : b = 0xFE ↔ b.toNat = 0xFE := BitVec.toNat_inj.symm
  have hrgba : b = 0xFF ↔ b.toNat = 0xFF := BitVec.toNat_inj.symm
  rw [hrgb, hrgba]
  rcases classify_cases b with ⟨e, hb⟩ | ⟨e, hb⟩ | ⟨e, hb⟩ | ⟨e, hb⟩ | ⟨e, hb⟩ | ⟨e, hb⟩ <;>
    simp only [e, reduceCtorEq, imp_false, implies_true, true_and, and_true] <;> omega

/-- Settles O5: the decoder is evaluated on each written-out word. -/
theorem writtenOutWordsDecode : Obligations.WrittenOutWordsDecode := by
  unfold Obligations.WrittenOutWordsDecode
  decide

theorem assemble_eq_ite {i : Instr} {p : Prop} [Decidable p] (h : i.wellFormed = true ↔ p) :
    assemble i = if p then some (encode i) else none := by
  simp only [assemble, h]

/-- Settles O6: what well-formed means for each chunk type. -/
theorem assemblerRefusesOutOfRange : Obligations.AssemblerRefusesOutOfRange := by
  refine ⟨fun dR dG dB => assemble_eq_ite ?_, fun dG dRG dBG => assemble_eq_ite ?_, fun count => assemble_eq_ite ?_,
    fun idx => rfl, fun r g b => rfl, fun r g b a => rfl⟩
  · simp only [Instr.wellFormed, Bool.and_eq_true, inRange_iff, and_assoc]
  · simp only [Instr.wellFormed, Bool.and_eq_true, inRange_iff, and_assoc]
  · simp only [Instr.wellFormed, Bool.and_eq_true, decide_eq_true_eq]

end Sys2Proof
end

section
/-! SUPPORT. The chunk step of a DECODE job (42_decoder.md R108, R110, R120) runs what the bytes of IN at ptr decode to. -/

namespace Sys2Proof.Machine

/-- A shorter read of IN is the beginning of a longer one. -/
theorem take_inBytes (s : State) (off : Nat) {k n : Nat} (h : n ≤ k) : (inBytes s off k).take n = inBytes s off n := by
  induction n generalizing off k with
  | zero => rfl
  | succ n ih =>
    cases k with
    | zero => exact absurd h (Nat.not_succ_le_zero n)
    | succ k => rw [inBytes, inBytes, List.take_succ_cons, ih _ (Nat.le_of_succ_le_succ h)]

/-- R110: the bytes that the tag's length asks for are fetched, and they decode to the chunk that a longer read of IN begins
with. -/
theorem fetchChunk_of_decode {s : State} {i : Instr} {rest : List Byte} {k : Nat}
    (hdec : decode (inBytes s s.ptr.toNat (k + 1)) = .chunk i rest) (hlen : s.ptr.toNat + (k + 1) ≤ s.len.toNat)
    (hcap : s.len.toNat ≤ s.cfg.inCap.toNat) : fetchChunk s = .ok i := by
  obtain ⟨hwf, hbytes⟩ := decode_eq_chunk_iff.mp hdec
  obtain ⟨tag, ops, henc, -⟩ := exists_assembleOperands_of_wellFormed hwf
  have htag : inByte s s.ptr.toNat = tag := by
    rw [henc, inBytes, List.cons_append] at hbytes
    exact (List.cons.inj hbytes).1.symm
  have hk : (encode i).length ≤ k + 1 := by
    rw [← inBytes_length s s.ptr.toNat (k + 1), ← hbytes, List.length_append]
    exact Nat.le_add_right _ _
  have hread : inBytes s s.ptr.toNat (encode i).length = encode i := by
    rw [← take_inBytes s _ hk, ← hbytes, List.take_left]
  have hcls : (classify tag).2 = (encode i).length := by rw [classify_of_encode hwf henc, henc, List.length_cons]
  have hdec' : decode (encode i) = .chunk i [] := decode_eq_chunk_iff.mpr ⟨hwf, List.append_nil _⟩
  have hmem : memRead s s.ptr.toNat (classify (inByte s s.ptr.toNat)).2 = some (encode i) := by
    rw [htag, hcls, memRead_eq, if_pos (by omega), hread]
  simp only [fetchChunk, hmem, hdec']

/-- R108, R110: the step at a chunk boundary is the meaning of the chunk at ptr. -/
theorem step_of_decode {s : State} {i : Instr} {rest : List Byte} (h : AtChunk s)
    (hdec : decode (inBytes s s.ptr.toNat 5) = .chunk i rest) : step s = exec i s := by
  obtain ⟨hturns, hb, hm, hp, hptr, hcap⟩ := h
  have hruns : CoreRuns s (chunkPart i) :=
    .chunk hb hm hp (decide_eq_true hptr) i (fetchChunk_of_decode hdec (by omega) hcap)
  rw [step_core hturns, hruns.coreStep_eq, exec_eq_chunkPart]

/-- Settles O21: five bytes are as many as the longest chunk has. -/
theorem everyTagIsRunAsAChunk : Obligations.EveryTagIsRunAsAChunk := by
  intro s h
  have hlen : (classify (inByte s s.ptr.toNat)).2 ≤ (inBytes s (s.ptr.toNat + 1) 4).length + 1 := by
    rw [classify_snd, inBytes_length]
    exact ChunkType.byteLength_le _
  obtain ⟨i, hdec, hwf, hcls⟩ := decode_of_length_le hlen
  exact ⟨i, _, hwf, hdec, step_of_decode h hdec, by rw [hcls]⟩

end Sys2Proof.Machine
end

section
/-! SUPPORT. The pixel-history cache (40_pixel_cache.md R85-R91): the hash, a hit, slot_write and invalidate. -/

namespace Sys2Proof.Machine

/-- R85: the exact sum that is taken mod 64 is at most 255 × (3 + 5 + 7 + 11). -/
theorem hash_sum_le (p : Pixel) : p.r.toNat * 3 + p.g.toNat * 5 + p.b.toNat * 7 + p.a.toNat * 11 ≤ 6630 := by
  have hr := p.r.isLt
  have hg := p.g.isLt
  have hb := p.b.isLt
  have ha := p.a.isLt
  omega

/-- Settles O8: six bits hold a number mod 64. -/
theorem hashIsTheModularSum : Obligations.HashIsTheModularSum :=
  ⟨fun p => ⟨BitVec.toNat_ofNat _ 6, hash_sum_le p⟩, by decide, by decide, by decide, by decide⟩

/-- Settles O9: both halves of the test of a hit. -/
theorem hitNeedsValidAndEqual : Obligations.HitNeedsValidAndEqual := by
  refine fun c p => ⟨?_, hit_false_of_absent⟩
  rw [hit, Bool.and_eq_true, decide_eq_true_eq]

/-- R89: a slot write is read back in its own slot, and every other slot is as it was. -/
theorem cacheGets_slotWrite (p : Pixel) (s : State) : CacheGets s (slotWrite p s) p :=
  fun k => slotRead_slotSet s.cache (pixelHash p) k ⟨true, p⟩

/-- Settles O10: slot_write sets one slot of the cache. -/
theorem slotWriteReplacesOneSlot : Obligations.SlotWriteReplacesOneSlot :=
  fun p s => ⟨cacheGets_slotWrite p s, _, rfl⟩

/-- R91: after invalidate every slot is absent. -/
theorem slotRead_invalidate (s : State) (k : BitVec 6) :
    slotRead (invalidate s).cache k = ⟨false, s.cfg.cacheFill⟩ := slotRead_absent _ k

/-- Settles O11: every slot is absent, and an absent slot never hits. -/
theorem invalidateEmptiesEverySlot : Obligations.InvalidateEmptiesEverySlot :=
  fun s => ⟨slotRead_invalidate s, fun p => hit_false_of_absent (by rw [slotRead_invalidate]), _, rfl⟩

end Sys2Proof.Machine
end

section
/-! SUPPORT. What a part of a core step leaves in OUT and in the cache, and what each part of an ENCODE job makes of the state
(20_memory.md R48, R49, 40_pixel_cache.md R90, 43_encoder.md R131-R151). -/

namespace Sys2Proof.Machine

/-! ### The cache stays hashed and filled (R90) -/

theorem CacheInv.congr {s t : State} (h : CacheInv s) (hcache : t.cache = s.cache) (hcfg : t.cfg = s.cfg) : CacheInv t :=
  ⟨by rw [hcache]; exact h.hashed, by rw [hcache, hcfg]; exact h.filled⟩

/-- A slot write stores a pixel in the slot of its own hash. -/
theorem CacheInv.of_gets {s t : State} {p : Pixel} (h : CacheInv s) (hgets : CacheGets s t p) (hcfg : t.cfg = s.cfg) :
    CacheInv t := by
  constructor <;> intro k hk <;> rw [hgets k] at hk ⊢ <;> split_ifs at hk ⊢ with heq
  · exact heq.symm
  · exact h.hashed k hk
  · rw [hcfg]
    exact h.filled k hk

/-! ### Bytes appended to OUT -/

/-- `Appends`, with the bytes named and the room they were found to have: OUT of `t` is OUT of `s` with `bs` at o. -/
structure AppendsBytes (bs : List Byte) (s t : State) : Prop where
  outBuf : t.outBuf = s.outBuf.putBytes s.o.toNat bs
  o : t.o.toNat = s.o.toNat + bs.length
  outEpoch : t.outEpoch = s.outEpoch
  cfg : t.cfg = s.cfg
  room : bs ≠ [] → t.o.toNat ≤ t.cfg.outCap.toNat

/-- Where OUT and o are kept, no byte is appended. -/
theorem appendsBytes_nil {s t : State} (hout : t.outBuf = s.outBuf) (ho : t.o = s.o) (he : t.outEpoch = s.outEpoch)
    (hcfg : t.cfg = s.cfg) : AppendsBytes [] s t :=
  ⟨hout, congrArg BitVec.toNat ho, he, hcfg, fun h => absurd rfl h⟩

theorem appendsBytes_pushBytes {bs : List Byte} {s : State} (h : bs = [] ∨ s.o.toNat + bs.length ≤ s.cfg.outCap.toNat) :
    AppendsBytes bs s (pushBytes bs s) := by
  rcases h with rfl | h
  · rw [pushBytes_nil]
    exact appendsBytes_nil rfl rfl rfl rfl
  · exact ⟨rfl, pushBytes_o_toNat h, rfl, rfl, fun _ => by rw [pushBytes_o_toNat h]; exact h⟩

theorem AppendsBytes.trans {bs bs' : List Byte} {s t u : State} (h : AppendsBytes bs s t) (h' : AppendsBytes bs' t u) :
    AppendsBytes (bs ++ bs') s u where
  outBuf := by rw [h'.outBuf, h.outBuf, h.o, Memory.putBytes_append]
  o := by rw [h'.o, h.o, List.length_append, Nat.add_assoc]
  outEpoch := h'.outEpoch.trans h.outEpoch
  cfg := h'.cfg.trans h.cfg
  room hne := by
    by_cases hbs' : bs' = []
    · subst hbs'
      rw [h'.o, h'.cfg]
      exact h.room (by simpa using hne)
    · exact h'.room hbs'

theorem AppendsBytes.appends {bs : List Byte} {s t : State} (h : AppendsBytes bs s t) : Appends s t :=
  ⟨bs, h.outBuf, h.o, h.outEpoch⟩

/-- o stays within OUT_CAP. -/
theorem AppendsBytes.o_le {bs : List Byte} {s t : State} (h : AppendsBytes bs s t)
    (hs : s.o.toNat ≤ s.cfg.outCap.toNat) : t.o.toNat ≤ t.cfg.outCap.toNat := by
  by_cases hbs : bs = []
  · subst hbs
    rw [h.o, h.cfg]
    exact hs
  · exact h.room hbs

/-- R47, R48: OUT holds the bytes from the old o on, and is otherwise as it was. -/
theorem AppendsBytes.outGets {bs : List Byte} {s t : State} (h : AppendsBytes bs s t) : OutGets s t s.o.toNat bs := by
  refine ⟨fun k hk => ?_, fun a ha => h.appends.outKeeps (by rwa [h.o])⟩
  rw [h.outBuf, Memory.byteAt_putBytes, if_pos (by omega), Nat.add_sub_cancel_left]

/-! ### What a part gives -/

/-- A part of a core step begun in `s` appends `bs` to OUT and leaves `t`, or OUT has no room for `bs` and the job ends in
ERROR. The cache keeps R90 either way. -/
def Flow.Gives (bs : List Byte) (s t : State) : Flow → Prop
  | .more u => u = t ∧ AppendsBytes bs s t ∧ (CacheInv s → CacheInv t)
  | .aborted u =>
    u.jobState = .error ∧ u.outBuf = [] ∧ (CacheInv s → CacheInv u) ∧ s.cfg.outCap.toNat < s.o.toNat + bs.length
  | .faulted _ => False

/-- A change of registers that keeps OUT. -/
theorem more_gives {s t : State} (h : AppendsBytes [] s t) (hc : CacheInv s → CacheInv t) : (Flow.more t).Gives [] s t :=
  ⟨rfl, h, hc⟩

/-- A change of registers that keeps OUT and the cache. -/
theorem update_gives {s t : State} (h : AppendsBytes [] s t) (hcache : t.cache = s.cache) : (Flow.more t).Gives [] s t :=
  more_gives h fun hc => hc.congr hcache h.cfg

theorem Flow.Gives.andThen {bs bs' : List Byte} {s t u : State} {f : Flow} {g : State → Flow} (h : f.Gives bs s t)
    (h' : (g t).Gives bs' t u) : (f.andThen g).Gives (bs ++ bs') s u := by
  cases f with
  | more v =>
    obtain ⟨rfl, happ, hc⟩ := h
    rw [Flow.more_andThen]
    cases hg : g v with
    | more w =>
      rw [hg] at h'
      obtain ⟨rfl, happ', hc'⟩ := h'
      exact ⟨rfl, happ.trans happ', hc' ∘ hc⟩
    | aborted w =>
      rw [hg] at h'
      obtain ⟨herr, hout, hc', hfull⟩ := h'
      refine ⟨herr, hout, hc' ∘ hc, ?_⟩
      rw [happ.cfg, happ.o] at hfull
      rw [List.length_append]
      omega
    | faulted r => exact (hg ▸ h' : (Flow.faulted r).Gives bs' v u).elim
  | aborted v =>
    obtain ⟨herr, hout, hc, hfull⟩ := h
    refine ⟨herr, hout, hc, ?_⟩
    rw [List.length_append]
    omega
  | faulted r => exact h.elim

/-- A part whose bytes fit goes on. -/
theorem Flow.Gives.eq_more {bs : List Byte} {s t : State} {f : Flow} (h : f.Gives bs s t)
    (hroom : s.o.toNat + bs.length ≤ s.cfg.outCap.toNat) : f = .more t ∧ AppendsBytes bs s t := by
  cases f with
  | more u =>
    obtain ⟨rfl, happ, -⟩ := h
    exact ⟨rfl, happ⟩
  | aborted u =>
    obtain ⟨-, -, -, hfull⟩ := h
    omega
  | faulted r => exact h.elim

theorem emits_gives (bs : List Byte) (s : State) : (emits bs s).Gives bs s (pushBytes bs s) := by
  rcases emits_cases bs s with ⟨h, hfits⟩ | ⟨h, -, hfull⟩ <;> rw [h]
  · exact ⟨rfl, appendsBytes_pushBytes hfits, fun hc => hc.congr rfl rfl⟩
  · exact ⟨rfl, rfl, fun hc => hc.congr rfl rfl, hfull⟩

/-- Emit, and then a change of registers that keeps OUT and the cache. -/
theorem emits_then_gives {bs : List Byte} {s : State} {u : State → State}
    (hu : ∀ t, AppendsBytes [] t (u t) ∧ (u t).cache = t.cache) :
    ((emits bs s).andThen fun t => .more (u t)).Gives bs s (u (pushBytes bs s)) := by
  obtain ⟨happ, hcache⟩ := hu (pushBytes bs s)
  simpa using (emits_gives bs s).andThen (g := fun t => .more (u t)) (update_gives happ hcache)

/-! ### The parts of an ENCODE job -/

/-- R131. -/
theorem headerStep_gives (s : State) :
    (headerStep s).Gives (headerBytes s.wid s.hgt s.ch 0x00) s
      { pushBytes (headerBytes s.wid s.hgt s.ch 0x00) s with phase := .body } :=
  emits_then_gives fun _ => ⟨appendsBytes_nil rfl rfl rfl rfl, rfl⟩

/-- R146: the RUN chunk of a run, and RUN is 0. -/
theorem flushRun_gives (s : State) :
    (flushRun s).Gives (encode (.run s.run.toNat)) s { pushBytes (encode (.run s.run.toNat)) s with run := 0 } :=
  emits_then_gives fun _ => ⟨appendsBytes_nil rfl rfl rfl rfl, rfl⟩

/-- R151. -/
theorem trailStep_gives (s : State) :
    (trailStep s).Gives endMarker s (finishEncode (pushBytes endMarker { s with phase := .trail })) :=
  (update_gives (s := s) (t := { s with phase := .trail }) (appendsBytes_nil rfl rfl rfl rfl) rfl).andThen
    (g := fun s => (writeEnd s).andThen fun t => .more (finishEncode t))
    (emits_then_gives fun _ => ⟨appendsBytes_nil rfl rfl rfl rfl, rfl⟩)

/-! ### The pixel step (R133-R146) -/

/-- R134, R136: a repeat that is only counted: neither the 62nd nor the last pixel. -/
def countsOnly (cur : Pixel) (s : State) : Bool :=
  decide (cur = s.px ∧ ¬(s.run + 1 = 62 ∨ isLast s = true))

/-- R137: the chunk of a pending run, if there is one. -/
def pendingChunks (s : State) : List Instr := if s.run = 0 then [] else [.run s.run.toNat]

/-- R138: the chunk of a pixel that differs from PX. -/
def lookupChunk (cur : Pixel) (s : State) : Instr :=
  if hit s.cache cur then .index (pixelHash cur) else selectChunk cur s.px

/-- The chunks a pixel step emits. -/
def pixelChunks (cur : Pixel) (s : State) : List Instr :=
  if cur = s.px then if countsOnly cur s then [] else [.run (s.run + 1).toNat]
  else pendingChunks s ++ [lookupChunk cur s]

/-- RUN after a pixel step. -/
def pixelRun (cur : Pixel) (s : State) : BitVec 6 := if countsOnly cur s then s.run + 1 else 0

/-- The cache after a pixel step: written on a miss only. -/
def pixelCache (cur : Pixel) (s : State) : Cache :=
  if cur = s.px ∨ hit s.cache cur = true then s.cache else (slotWrite cur s).cache

/-- What a pixel step for `cur` leaves in every register but OUT and o. -/
def PixelRegisters (cur : Pixel) (s t : State) : Prop :=
  ∃ m o, t = { s with outBuf := m, o := o, run := pixelRun cur s, cache := pixelCache cur s, px := cur, i := s.i + 1 }

/-- R137: the pending run is flushed. -/
theorem pendingFlush_gives (s : State) :
    ∃ m o, (if s.run = 0 then .more s else flushRun s : Flow).Gives ((pendingChunks s).flatMap encode) s
      { s with outBuf := m, o := o, run := 0 } := by
  by_cases hr : s.run = 0
  · refine ⟨s.outBuf, s.o, ?_⟩
    rw [if_pos hr, pendingChunks, if_pos hr, ← hr]
    exact update_gives (appendsBytes_nil rfl rfl rfl rfl) rfl
  · rw [if_neg hr, pendingChunks, if_neg hr, List.flatMap_singleton]
    exact ⟨_, _, flushRun_gives s⟩

/-- R138: a hit emits INDEX; a miss writes the slot and emits the selected chunk. -/
theorem lookupBranch_gives (cur : Pixel) (s : State) :
    ∃ m o, (lookupBranch cur s).Gives (encode (lookupChunk cur s)) s
      { s with outBuf := m, o := o, cache := if hit s.cache cur then s.cache else (slotWrite cur s).cache } := by
  cases hh : hit s.cache cur with
  | true =>
    simp only [lookupBranch, lookupChunk, hh, if_true]
    exact ⟨_, _, emits_gives _ s⟩
  | false =>
    simp only [lookupBranch, lookupChunk, hh, Bool.false_eq_true, if_false, emitSelected_eq]
    have hwrite : (Flow.more (slotWrite cur s)).Gives [] s (slotWrite cur s) :=
      more_gives (appendsBytes_nil rfl rfl rfl rfl) fun hc => hc.of_gets (cacheGets_slotWrite cur s) rfl
    exact ⟨_, _, hwrite.andThen (emits_gives _ _)⟩

/-- R134, R136: the repeat is counted, and the run flushed unless that is all. -/
theorem repeatBranch_gives (s : State) :
    ∃ m o, (repeatBranch (isLast s) s).Gives ((pixelChunks s.px s).flatMap encode) s
      { s with outBuf := m, o := o, run := pixelRun s.px s } := by
  have hcount : (Flow.more { s with run := s.run + 1 }).Gives [] s { s with run := s.run + 1 } :=
    update_gives (appendsBytes_nil rfl rfl rfl rfl) rfl
  by_cases hflush : s.run + 1 = 62 ∨ isLast s = true
  · have hc : countsOnly s.px s = false := decide_eq_false fun h => h.2 hflush
    simp only [repeatBranch, hflush, pixelChunks, pixelRun, hc, if_true, Bool.false_eq_true, if_false,
      List.flatMap_singleton]
    exact ⟨_, _, hcount.andThen (flushRun_gives { s with run := s.run + 1 })⟩
  · have hc : countsOnly s.px s = true := decide_eq_true ⟨rfl, hflush⟩
    simp only [repeatBranch, hflush, pixelChunks, pixelRun, hc, if_true, if_false]
    exact ⟨_, _, hcount⟩

/-- R137, R138: the pending run first, then the lookup. -/
theorem differBranch_gives {cur : Pixel} {s : State} (hne : cur ≠ s.px) :
    ∃ m o, (differBranch cur s).Gives ((pixelChunks cur s).flatMap encode) s
      { s with outBuf := m, o := o, run := pixelRun cur s, cache := pixelCache cur s } := by
  have hcount : countsOnly cur s = false := by simp [countsOnly, hne]
  obtain ⟨m, o, hpending⟩ := pendingFlush_gives s
  obtain ⟨m', o', hlookup⟩ := lookupBranch_gives cur { s with outBuf := m, o := o, run := 0 }
  refine ⟨m', o', ?_⟩
  simp only [pixelChunks, pixelRun, pixelCache, hne, hcount, if_false, false_or, Bool.false_eq_true, List.flatMap_append,
    List.flatMap_singleton]
  exact hpending.andThen hlookup

/-- Everything a pixel step can do. -/
theorem encodePixel_gives (cur : Pixel) (s : State) :
    ∃ t, (encodePixel cur s).Gives ((pixelChunks cur s).flatMap encode) s t ∧ PixelRegisters cur s t := by
  have hbranch : ∃ m o, (if cur = s.px then repeatBranch (isLast s) s else differBranch cur s).Gives
      ((pixelChunks cur s).flatMap encode) s
      { s with outBuf := m, o := o, run := pixelRun cur s, cache := pixelCache cur s } := by
    by_cases heq : cur = s.px
    · subst heq
      simpa only [pixelCache, if_true, true_or] using repeatBranch_gives s
    · simpa only [heq, if_false] using differBranch_gives heq
  obtain ⟨m, o, hgives⟩ := hbranch
  refine ⟨_, ?_, m, o, rfl⟩
  have hadvance := hgives.andThen (g := fun t => .more { t with px := cur, i := t.i + 1 })
    (update_gives (appendsBytes_nil rfl rfl rfl rfl) rfl)
  rwa [List.append_nil] at hadvance

end Sys2Proof.Machine
end

section
/-! SUPPORT. The invariant outside a job: a state in which no job runs, what a START makes of it, and the host's accesses
(10_state.md R17-R41, 40_pixel_cache.md R90, 60_exceptions.md R158). -/

namespace Sys2Proof.Machine

/-! ### States in which no job runs -/

theorem BufferInv.congr {s t : State} (h : BufferInv s) (hcfg : t.cfg = s.cfg) (hin : t.inBuf = s.inBuf)
    (hout : t.outBuf = s.outBuf) : BufferInv t := by
  constructor <;> simp only [hcfg, hin, hout]
  · exact h.in_wf
  · exact h.out_wf
  · exact h.in_exists
  · exact h.out_exists

/-- An OUT that lists nothing is canonical. -/
theorem BufferInv.of_out_nil {s t : State} (h : BufferInv s) (hcfg : t.cfg = s.cfg) (hin : t.inBuf = s.inBuf)
    (hout : t.outBuf = []) : BufferInv t := by
  constructor <;> simp only [hcfg, hin, hout]
  · exact h.in_wf
  · exact Memory.wf_nil
  · exact h.in_exists
  · exact fun a ha => absurd (Memory.byteAt_nil a) ha

/-- A byte put at an offset that exists. -/
theorem Memory.put_within {m : Memory} {c off : Nat} (h : ∀ a, m.byteAt a ≠ none → a < c) (hoff : off < c) (b : Byte) :
    ∀ a, (m.put off b).byteAt a ≠ none → a < c := by
  intro a ha
  rw [Memory.byteAt_put] at ha
  split_ifs at ha with heq
  · exact heq ▸ hoff
  · exact h a ha

/-- Where no job runs the invariant says nothing of the working registers. -/
theorem State.Inv.of_not_busy {t : State} (hb : t.jobState ≠ .busy) (hcfg : t.cfg.legal = true) (hbuf : BufferInv t)
    (hcache : CacheInv t) (herr : (t.err ≠ .none ↔ t.jobState = .error) ∧ t.err ≠ .invalidTag)
    (hidle : t.jobState = .idle → t.observed = true)
    (hzero : t.jobState = .error → t.outLen = 0 ∧ t.pixCount = 0)
    (hdone : t.jobState = .done →
      (∀ a, a < t.outLen.toNat → t.outBuf.byteAt a ≠ none) ∧
        (t.jobMode = .decode → t.outLen.toNat = 4 * t.pixCount.toNat)) : t.Inv where
  cfg := hcfg
  buffers := hbuf
  cache := hcache
  err := herr
  observed := ⟨fun h => absurd h hb, hidle⟩
  error := hzero
  done := hdone
  busy h := absurd h hb
  decode h := absurd h hb
  encode h := absurd h hb

/-- R158: an error leaves a real code, no result and nothing listed in OUT. -/
theorem State.Inv.of_error {s t : State} (h : s.Inv) (hcfg : t.cfg = s.cfg) (hin : t.inBuf = s.inBuf)
    (hcache : CacheInv t) (hstate : t.jobState = .error) (hcode : t.err ≠ .none ∧ t.err ≠ .invalidTag)
    (hzero : t.outLen = 0 ∧ t.pixCount = 0) (hout : t.outBuf = []) : t.Inv := by
  refine .of_not_busy (by simp [hstate]) (hcfg ▸ h.cfg) (h.buffers.of_out_nil hcfg hin hout) hcache ?_ ?_
    (fun _ => hzero) ?_
  · exact ⟨iff_of_true hcode.1 hstate, hcode.2⟩
  · simp [hstate]
  · simp [hstate]

/-- R30, R32-R35: while no job runs the host's registers are no part of the invariant. -/
theorem State.Inv.setParams {s : State} (h : s.Inv) (hb : s.jobState ≠ .busy) (m : Mode) (w hgt : Word) (c : Byte)
    (l : Word) : { s with mode := m, encWidth := w, encHeight := hgt, encChannels := c, inLen := l }.Inv :=
  .of_not_busy hb h.cfg (h.buffers.congr rfl rfl rfl) (h.cache.congr rfl rfl) h.err h.observed.2 h.error h.done

/-! ### A START (R106, R126) -/

/-- R27, R91: an empty cache is filled with CACHE_FILL. -/
theorem cacheInv_of_absent {t : State} (h : ∀ k, slotRead t.cache k = ⟨false, t.cfg.cacheFill⟩) : CacheInv t := by
  constructor <;> intro k hk <;> rw [h k] at hk ⊢
  cases hk

/-- A start step that fails its checks has not touched the cache or IN. -/
theorem State.Inv.raise_start {s t : State} (h : s.Inv) {e : ErrCode} (he : e ≠ .none ∧ e ≠ .invalidTag)
    (hcfg : t.cfg = s.cfg) (hin : t.inBuf = s.inBuf) (hcache : t.cache = s.cache) : (raise e t).Inv :=
  h.of_error (t := raise e t) hcfg hin (h.cache.congr hcache hcfg) rfl he ⟨rfl, rfl⟩ rfl

/-- R106, R126: what both start steps leave: an empty cache, the initial pixel, nothing written, and L latched. -/
structure JobStarted (s t : State) : Prop where
  cfg : t.cfg = s.cfg
  inBuf : t.inBuf = s.inBuf
  outBuf : t.outBuf = s.outBuf
  cache : t.cache = Cache.absent t.cfg.cacheFill
  jobState : t.jobState = .busy
  err : t.err = .none
  observed : t.observed = false
  mode : t.jobMode = t.mode
  len : t.len = t.inLen
  o : t.o = 0
  px : t.px = Pixel.initial

theorem State.Inv.of_started {s t : State} (h : s.Inv) (hs : JobStarted s t) (hcap : t.len.toNat ≤ t.cfg.inCap.toNat)
    (hdec : t.jobMode = .decode → DecodeInv t) (henc : t.jobMode = .encode → EncodeInv t) : t.Inv where
  cfg := hs.cfg ▸ h.cfg
  buffers := h.buffers.congr hs.cfg hs.inBuf hs.outBuf
  cache := cacheInv_of_absent fun k => by rw [hs.cache, slotRead_absent]
  err := by simp [hs.err, hs.jobState]
  observed := by simp [hs.observed, hs.jobState]
  error := by simp [hs.jobState]
  done := by simp [hs.jobState]
  busy _ :=
    { len_cap := hcap
      out_cap := by simp [hs.o]
      mode := hs.mode
      in_len := hs.len
      written := by simp [hs.o]
      cached := .inr ⟨hs.px, by rw [hs.cache, slotRead_absent]⟩ }
  decode _ := hdec
  encode _ := henc

/-- R24, R126: N = L div CH, exactly where CH divides L. -/
theorem toNat_ofNat_div_mul {l : Word} {c : Byte} (h : l.toNat % c.toNat = 0) :
    (BitVec.ofNat 32 (l.toNat / c.toNat)).toNat * c.toNat = l.toNat := by
  have hle : l.toNat / c.toNat ≤ l.toNat := Nat.div_le_self _ _
  rw [BitVec.toNat_ofNat, Nat.mod_eq_of_lt (by omega), Nat.div_mul_cancel (Nat.dvd_of_mod_eq_zero h)]

theorem startEncode_keeps_inv {s t : State} (h : s.Inv) (hm : s.mode = .encode) (hstep : (startEncode s).outcome = .next t) :
    t.Inv := by
  unfold startEncode at hstep
  dsimp only at hstep
  split_ifs at hstep with hok
  · obtain ⟨hcap, hch, hmod⟩ := (paramsOk_iff _).mp hok
    obtain rfl := Host.Outcome.next.inj hstep
    refine h.of_started ⟨rfl, rfl, rfl, rfl, rfl, rfl, rfl, rfl, rfl, rfl, rfl⟩ hcap (fun hd => ?_) fun _ => ?_
    · exact absurd (hd.symm.trans hm) (by decide)
    · exact {
        channels := hch
        latched := ⟨rfl, rfl, rfl⟩
        pixels := toNat_ofNat_div_mul hmod
        index := Nat.zero_le _
        run_max := Nat.zero_le _
        run_index := Nat.le_refl _
        run_end := fun _ => rfl
        flag := rfl
        alpha := fun _ => rfl
        place := .inl ⟨rfl, rfl, rfl, rfl⟩ }
  · obtain rfl := Host.Outcome.next.inj hstep
    exact h.raise_start (by decide) rfl rfl rfl

theorem startDecode_keeps_inv {s t : State} (h : s.Inv) (hm : s.mode = .decode) (hstep : (startDecode s).outcome = .next t) :
    t.Inv := by
  rw [startDecode_eq] at hstep
  unfold readHeader at hstep
  split_ifs at hstep with hcap hlen <;> obtain rfl := Host.Outcome.next.inj hstep
  · exact h.raise_start (by decide) rfl rfl rfl
  · exact h.raise_start (by decide) rfl rfl rfl
  · have hmin : 22 ≤ s.inLen.toNat := by bv_omega
    have hmax : s.inLen.toNat ≤ s.cfg.inCap.toNat := by bv_omega
    refine h.of_started ⟨rfl, rfl, rfl, rfl, rfl, rfl, rfl, rfl, rfl, rfl, rfl⟩ hmax (fun _ => ?_) fun he => ?_
    · exact ⟨rfl, hmin, Nat.le_refl _, Nat.le_trans (by decide : 14 + 4 ≤ 22) hmin, rfl⟩
    · exact absurd (he.symm.trans hm) (by decide)
  · exact h.raise_start (by decide) rfl rfl rfl

theorem startJob_keeps_inv {s t : State} (h : s.Inv) (hstep : (startJob s).outcome = .next t) : t.Inv := by
  unfold startJob at hstep
  split at hstep
  · rename_i hm
    exact startEncode_keeps_inv h hm hstep
  · rename_i hm
    exact startDecode_keeps_inv h hm hstep

/-! ### The host's accesses -/

theorem csrWrite_keeps_inv {r : Csr} {v : Word} {s t : State} (h : s.Inv) (hstep : (csrWrite r v s).outcome = .next t) :
    t.Inv := by
  by_cases hb : s.jobState = .busy
  · rw [csrWrite_busy hb] at hstep
    obtain rfl := Host.Outcome.next.inj hstep
    exact h
  · rw [csrWrite.eq_def, if_neg hb] at hstep
    cases r with
    | ctrl =>
      have hmode : { s with mode := modeOf v }.Inv := h.setParams hb _ _ _ _ _
      dsimp only [writeCtrl] at hstep
      split_ifs at hstep
      · exact startJob_keeps_inv hmode hstep
      · obtain rfl := Host.Outcome.next.inj hstep
        exact hmode
    | encWidth | encHeight | encChannels | inLen =>
      obtain rfl := Host.Outcome.next.inj hstep
      exact h.setParams hb _ _ _ _ _
    | status | outLen | hdrWidth | hdrHeight | hdrInfo | pixCount | unmapped =>
      obtain rfl := Host.Outcome.next.inj hstep
      exact h

/-- R29, R57: what a host access may change while a job runs: IN, and the model's record of the host. -/
theorem State.Inv.setHostView {s : State} (h : s.Inv) {m : Memory} {r : Option Response} {d : Nat} {ob : Bool}
    (hwf : m.wf = true) (hin : ∀ a, m.byteAt a ≠ none → a < s.cfg.inCap.toNat)
    (hob : (s.jobState = .busy → ob = false) ∧ (s.jobState = .idle → ob = true)) :
    { s with inBuf := m, response := r, draws := d, observed := ob }.Inv where
  cfg := h.cfg
  buffers := ⟨hwf, h.buffers.out_wf, hin, h.buffers.out_exists⟩
  cache := h.cache.congr rfl rfl
  err := h.err
  observed := hob
  error := h.error
  done := h.done
  busy hb :=
    have hj := h.busy hb
    ⟨hj.len_cap, hj.out_cap, hj.mode, hj.in_len, hj.written, hj.cached⟩
  decode hb hm :=
    have hj := h.decode hb hm
    ⟨hj.phase, hj.len_min, hj.ptr_min, hj.ptr_max, hj.whole⟩
  encode hb hm :=
    have hj := h.encode hb hm
    ⟨hj.channels, hj.latched, hj.pixels, hj.index, hj.run_max, hj.run_index, hj.run_end, hj.flag, hj.alpha, hj.place⟩

/-- R58: a CSR read does not observe the end of a job that runs. -/
theorem csrRead_keeps_inv {s : State} (h : s.Inv) (addr : Nat) (r : Csr) : (csrRead addr r s).Inv := by
  refine h.setHostView h.buffers.in_wf h.buffers.in_exists ?_
  rcases observedAfterRead_cases s r with hkeep | ⟨hset, -, hend⟩
  · rw [hkeep]
    exact h.observed
  · refine ⟨fun hb => ?_, fun _ => hset⟩
    rcases hend with hd | he
    · exact absurd (hb.symm.trans hd) (by decide)
    · exact absurd (hb.symm.trans he) (by decide)

theorem hostInWrite_keeps_inv {off : Nat} {b : Byte} {s t : State} (h : s.Inv) (hstep : hostInWrite off b s = .next t) :
    t.Inv := by
  unfold hostInWrite at hstep
  split_ifs at hstep with hcap
  obtain rfl := Host.Outcome.next.inj hstep
  exact h.setHostView (Memory.wf_put off b h.buffers.in_wf) (Memory.put_within h.buffers.in_exists (by omega) b) h.observed

/-- A byte the host puts into OUT takes none away from a result. -/
theorem hostOutWrite_keeps_inv {off : Nat} {b : Byte} {s t : State} (h : s.Inv) (hstep : hostOutWrite off b s = .next t) :
    t.Inv := by
  unfold hostOutWrite at hstep
  split_ifs at hstep with hcap hb
  obtain rfl := Host.Outcome.next.inj hstep
  refine .of_not_busy hb h.cfg ?_ (h.cache.congr rfl rfl) h.err h.observed.2 h.error fun hd => ?_
  · exact ⟨h.buffers.in_wf, Memory.wf_put _ _ h.buffers.out_wf, h.buffers.in_exists,
      Memory.put_within h.buffers.out_exists (by omega) _⟩
  · obtain ⟨hlisted, hwhole⟩ := h.done hd
    refine ⟨fun a ha => ?_, hwhole⟩
    rw [Memory.byteAt_put]
    split_ifs
    · exact Option.some_ne_none _
    · exact hlisted a ha

theorem hostOutRead_keeps_inv {off : Nat} {s t : State} (h : s.Inv) (hstep : hostOutRead off s = .next t) : t.Inv := by
  obtain ⟨-, rfl⟩ := hostOutRead_eq_next hstep
  exact h.setHostView h.buffers.in_wf h.buffers.in_exists h.observed

/-- R172, R173: a power-on reset leaves the reset state, or that state with IN kept. -/
theorem powerOnReset_keeps_inv {s : State} (h : s.Inv) : (powerOnReset s).Inv := by
  have hreset := resetWith_inv h.cfg
  refine .of_not_busy nofun h.cfg ?_ (hreset.cache.congr rfl rfl) hreset.err (fun _ => rfl) nofun nofun
  by_cases hb : s.jobState = .busy
  · exact h.buffers.of_out_nil rfl (if_pos hb) rfl
  · exact hreset.buffers.of_out_nil rfl (if_neg hb) rfl

theorem hostStep_keeps_inv {op : HostOp} {s t : State} (h : s.Inv) (hstep : hostStep op s = .next t) : t.Inv := by
  unfold hostStep at hstep
  cases op with
  | csrWrite addr width v =>
    dsimp only at hstep
    split at hstep
    · exact csrWrite_keeps_inv h hstep
    · cases hstep
  | csrRead addr width =>
    dsimp only at hstep
    split at hstep
    · obtain rfl := Host.Outcome.next.inj hstep
      exact csrRead_keeps_inv h _ _
    · cases hstep
  | inWrite off b => exact hostInWrite_keeps_inv h hstep
  | outWrite off b => exact hostOutWrite_keeps_inv h hstep
  | outRead off => exact hostOutRead_keeps_inv h hstep
  | powerOnReset =>
    obtain rfl := Host.Outcome.next.inj hstep
    exact powerOnReset_keeps_inv h

end Sys2Proof.Machine
end

section
/-! SUPPORT. The invariant of a running job: each part of a core step keeps it, completes the job or ends it in ERROR
(40_pixel_cache.md R90, 42_decoder.md R108-R124, 43_encoder.md R127-R152). -/

namespace Sys2Proof.Machine

/-! ### The parts of a DECODE job -/

theorem chunkTail_gives (p : Pixel) (count length : Nat) (s : State) :
    (chunkTail p count length s).Gives (List.replicate count (pixelBytes p)).flatten s (tailDone p count length s) := by
  have hpx : (Flow.more { s with px := p }).Gives [] s { s with px := p } :=
    update_gives (appendsBytes_nil rfl rfl rfl rfl) rfl
  have hcopies : (emitCopies p count { s with px := p }).Gives (List.replicate count (pixelBytes p)).flatten
      { s with px := p } (pushBytes (List.replicate count (pixelBytes p)).flatten { s with px := p }) := by
    rw [emitCopies_eq]
    exact emits_gives _ _
  have hrefresh := (hpx.andThen (g := fun t => emitCopies p count t) hcopies).andThen
    (g := fun t => .more { slotWrite p t with ptr := t.ptr + BitVec.ofNat 32 length })
    (more_gives (appendsBytes_nil rfl rfl rfl rfl) fun hc => hc.of_gets (cacheGets_slotWrite p _) rfl)
  rwa [List.append_nil] at hrefresh

/-- What reading the cache can change is ABS and the draw count. -/
theorem execRead_eq (i : Instr) (s : State) : ∃ a d, execRead i s = { s with absIdx := a, draws := d } := by
  rcases execRead_cases i s with h | h
  · exact ⟨s.absIdx, s.draws, h⟩
  · exact ⟨true, s.draws + 1, h⟩

/-- The bytes of the pixels a chunk gives. -/
def chunkBytes (i : Instr) (s : State) : List Byte := (List.replicate (execCount i) (pixelBytes (execPixel i s))).flatten

/-- The state a chunk leaves where OUT has room. -/
def chunkDone (i : Instr) (s : State) : State := tailDone (execPixel i s) (execCount i) (execLength i) (execRead i s)

theorem chunkPart_gives (i : Instr) (s : State) : (chunkPart i s).Gives (chunkBytes i s) s (chunkDone i s) := by
  obtain ⟨a, d, hread⟩ := execRead_eq i s
  have hdraw : (Flow.more (execRead i s)).Gives [] s (execRead i s) := by
    rw [hread]
    exact update_gives (appendsBytes_nil rfl rfl rfl rfl) rfl
  exact hdraw.andThen (g := chunkTail (execPixel i s) (execCount i) (execLength i)) (chunkTail_gives _ _ _ _)

/-- A chunk writes its pixel's slot (R112). -/
theorem slotRead_chunkDone (i : Instr) (s : State) :
    slotRead (chunkDone i s).cache (pixelHash (execPixel i s)) = ⟨true, execPixel i s⟩ := slotRead_slotSet_same _ _ _

/-! ### How a part can end -/

/-- A part that answers a next state has left what it gives, or has ended the job in ERROR. -/
theorem Flow.Gives.of_next {bs : List Byte} {s t u : State} {f : Flow} (h : f.Gives bs s u) (hf : f.outcome = .next t) :
    (t = u ∧ AppendsBytes bs s u ∧ (CacheInv s → CacheInv u)) ∨
      (t.jobState = .error ∧ t.outBuf = [] ∧ (CacheInv s → CacheInv t)) := by
  rcases Flow.outcome_eq_next hf with rfl | rfl
  · exact .inl h
  · obtain ⟨herr, hout, hc, -⟩ := h
    exact .inr ⟨herr, hout, hc⟩

/-- A core step that ends the job in ERROR keeps the invariant. -/
theorem State.Inv.of_overflow {s t : State} (h : s.Inv) (hb : s.jobState = .busy) (hstep : coreStep s = .next t)
    (herr : t.jobState = .error) (hout : t.outBuf = []) (hc : CacheInv t) : t.Inv := by
  obtain ⟨hcfg, -, -, -, -, -, -, -, -, -, -, -, hin, -⟩ := coreStep_sameInputs hstep
  rcases coreStep_cases hstep with ⟨hnb, -⟩ | ⟨-, hr | hd | ho⟩
  · exact absurd hb hnb
  · exact absurd (herr.symm.trans (hr.jobState.trans hb)) (by decide)
  · exact absurd (herr.symm.trans hd.jobState) (by decide)
  · exact h.of_error hcfg hin hc herr (by simp [ho.err]) ⟨ho.outLen, ho.pixCount⟩ hout

/-- It is enough to look at what a part leaves where OUT has room. -/
theorem State.Inv.of_part {s t u : State} {f : State → Flow} {bs : List Byte} (h : s.Inv) (hb : s.jobState = .busy)
    (hf : CoreRuns s f) (hgives : (f s).Gives bs s u) (hstep : coreStep s = .next t)
    (hu : coreStep s = .next u → AppendsBytes bs s u → CacheInv u → u.Inv) : t.Inv := by
  rcases hgives.of_next (hf.coreStep_eq ▸ hstep) with ⟨rfl, happ, hc⟩ | ⟨herr, hout, hc⟩
  · exact hu hstep happ (hc h.cache)
  · exact h.of_overflow hb hstep herr hout (hc h.cache)

/-- R45: appended bytes lie within OUT_CAP. -/
theorem BufferInv.of_appends {bs : List Byte} {s t : State} (h : BufferInv s) (happ : AppendsBytes bs s t)
    (hin : t.inBuf = s.inBuf) (hcap : s.o.toNat ≤ s.cfg.outCap.toNat) : BufferInv t where
  in_wf := hin ▸ h.in_wf
  out_wf := by
    rw [happ.outBuf]
    exact Memory.wf_putBytes _ _ h.out_wf
  in_exists := by
    rw [hin, happ.cfg]
    exact h.in_exists
  out_exists a ha := by
    by_cases hnew : s.o.toNat ≤ a ∧ a < t.o.toNat
    · exact Nat.lt_of_lt_of_le hnew.2 (happ.o_le hcap)
    · rw [(happ.appends.outKeeps (by omega)).1] at ha
      rw [happ.cfg]
      exact h.out_exists a ha

/-- R48: every byte below the new o is written. -/
theorem BusyInv.written_of_appends {bs : List Byte} {s t : State} (h : BusyInv s) (happ : AppendsBytes bs s t) :
    ∀ a, a < t.o.toNat → t.outBuf.byteAt a ≠ none := by
  intro a ha
  by_cases hold : a < s.o.toNat
  · rw [(happ.appends.outKeeps (.inl hold)).1]
    exact h.written a hold
  · exact happ.appends.listed (by omega) ha

/-- A core step after which the job runs on: what is left to show is that PX is cached, and the job's own part. -/
theorem State.Inv.of_running {s t : State} {bs : List Byte} (h : s.Inv) (hb : s.jobState = .busy)
    (hstep : coreStep s = .next t) (htb : t.jobState = .busy) (happ : AppendsBytes bs s t) (hc : CacheInv t)
    (hpx : pxCached t) (hdec : s.jobMode = .decode → DecodeInv t) (henc : s.jobMode = .encode → EncodeInv t) : t.Inv := by
  obtain ⟨hcfg, hmode, -, -, -, hinLen, hjobMode, hlen, -, -, -, -, hin, -, -, hobs⟩ := coreStep_sameInputs hstep
  rcases coreStep_cases hstep with ⟨hnb, -⟩ | ⟨-, hr | hd | ho⟩
  · exact absurd hb hnb
  · have hj := h.busy hb
    exact {
      cfg := hcfg ▸ h.cfg
      buffers := h.buffers.of_appends happ hin hj.out_cap
      cache := hc
      err := by rw [hr.err, hr.jobState]; exact h.err
      observed := by rw [hobs, hr.jobState]; exact h.observed
      error := by simp [htb]
      done := by simp [htb]
      busy := fun _ =>
        { len_cap := by rw [hlen, hcfg]; exact hj.len_cap
          out_cap := happ.o_le hj.out_cap
          mode := by rw [hjobMode, hmode]; exact hj.mode
          in_len := by rw [hlen, hinLen]; exact hj.in_len
          written := hj.written_of_appends happ
          cached := hpx }
      decode := fun _ hm => hdec (hjobMode ▸ hm)
      encode := fun _ hm => henc (hjobMode ▸ hm) }
  · exact absurd (htb.symm.trans hd.jobState) (by decide)
  · exact absurd (htb.symm.trans ho.jobState) (by decide)

/-- R124, R151: a core step that completes the job: the result stands in OUT. -/
theorem State.Inv.of_completed {s t : State} {bs : List Byte} (h : s.Inv) (hb : s.jobState = .busy)
    (hstep : coreStep s = .next t) (hd : t.jobState = .done) (happ : AppendsBytes bs s t) (hc : CacheInv t)
    (hwhole : s.jobMode = .decode → t.outLen.toNat = 4 * t.pixCount.toNat) : t.Inv := by
  obtain ⟨hcfg, -, -, -, -, -, hjobMode, -, -, -, -, -, hin, -⟩ := coreStep_sameInputs hstep
  have hj := h.busy hb
  have hlen := coreStep_done_outLen hb hstep hd
  have hnone : t.err = .none := by
    rcases coreStep_cases hstep with ⟨hnb, -⟩ | ⟨-, hr | hc | ho⟩
    · exact absurd hb hnb
    · exact absurd (hd.symm.trans (hr.jobState.trans hb)) (by decide)
    · rw [hc.err]
      by_contra hne
      exact absurd (hb.symm.trans (h.err.1.mp hne)) (by decide)
    · exact absurd (hd.symm.trans ho.jobState) (by decide)
  refine .of_not_busy (by simp [hd]) (hcfg ▸ h.cfg) (h.buffers.of_appends happ hin hj.out_cap) hc (by simp [hnone, hd])
    (by simp [hd]) (by simp [hd]) fun _ => ⟨?_, fun hm => hwhole (hjobMode ▸ hm)⟩
  rw [hlen]
  exact hj.written_of_appends happ

/-! ### The steps of a DECODE job -/

/-- R119: ptr moves by the length of the chunk's type. -/
theorem execLength_eq (i : Instr) : execLength i = i.chunkType.byteLength := by
  cases i <;> rfl

/-- R108, R119: after a chunk ptr has moved by at most 5 and stays below L, and OUT holds whole pixels. -/
theorem DecodeInv.chunk {i : Instr} {s : State} (h : DecodeInv s) (hdue : chunkDue s = true)
    (happ : AppendsBytes (chunkBytes i s) s (chunkDone i s)) : DecodeInv (chunkDone i s) := by
  obtain ⟨a, d, hread⟩ := execRead_eq i s
  have hptr : (chunkDone i s).ptr = s.ptr + BitVec.ofNat 32 (execLength i) := by rw [chunkDone, hread]; rfl
  have hphase : (chunkDone i s).phase = s.phase := by rw [chunkDone, hread]; rfl
  have hlen : (chunkDone i s).len = s.len := by rw [chunkDone, hread]; rfl
  have hroom : s.ptr.toNat + 8 < s.len.toNat := of_decide_eq_true hdue
  have hmove : execLength i ≤ 5 := execLength_eq i ▸ i.chunkType.byteLength_le
  have hmoved : (chunkDone i s).ptr.toNat = s.ptr.toNat + execLength i := by
    rw [hptr]
    exact toNat_add_of_le (c := s.len) (by omega)
  have hmin := h.ptr_min
  have ho := happ.o
  have hwhole := h.whole
  rw [chunkBytes, length_copies] at ho
  exact ⟨hphase.trans h.phase, hlen ▸ h.len_min, by omega, by rw [hlen]; omega, by omega⟩

theorem inv_chunkDone {i : Instr} {s : State} (h : s.Inv) (hb : s.jobState = .busy) (hm : s.jobMode = .decode)
    (hdue : chunkDue s = true) (hstep : coreStep s = .next (chunkDone i s))
    (happ : AppendsBytes (chunkBytes i s) s (chunkDone i s)) (hc : CacheInv (chunkDone i s)) : (chunkDone i s).Inv := by
  have hbusy : (chunkDone i s).jobState = .busy := ((execRead_runsOn i s).trans (tailDone_runsOn _ _ _ _)).jobState.trans hb
  refine h.of_running hb hstep hbusy happ hc (.inl (slotRead_chunkDone i s)) (fun _ => (h.decode hb hm).chunk hdue happ) ?_
  intro he
  exact absurd (he.symm.trans hm) (by decide)

/-- R124: OUT_LEN is 4 × PIX_COUNT. -/
theorem inv_finishDecode {s : State} (h : s.Inv) (hb : s.jobState = .busy) (hm : s.jobMode = .decode)
    (hstep : coreStep s = .next (finishDecode s)) (happ : AppendsBytes [] s (finishDecode s))
    (hc : CacheInv (finishDecode s)) : (finishDecode s).Inv := by
  refine h.of_completed hb hstep rfl happ hc fun _ => ?_
  have hwhole := (h.decode hb hm).whole
  have hcount : (finishDecode s).pixCount.toNat = s.o.toNat / 4 := BitVec.toNat_udiv
  rw [hcount]
  exact (Nat.mul_div_cancel' (Nat.dvd_of_mod_eq_zero hwhole)).symm

/-! ### The steps of an ENCODE job -/

/-- R131: from HDR to BODY, with 14 bytes written. -/
theorem inv_headerDone {s : State} (h : s.Inv) (hb : s.jobState = .busy) (hm : s.jobMode = .encode) (hp : s.phase = .hdr)
    {bs : List Byte} (hlen : bs.length = 14) (hstep : coreStep s = .next { pushBytes bs s with phase := .body })
    (happ : AppendsBytes bs s { pushBytes bs s with phase := .body })
    (hc : CacheInv { pushBytes bs s with phase := .body }) : State.Inv { pushBytes bs s with phase := .body } := by
  refine h.of_running hb hstep hb happ hc (h.busy hb).cached (fun hd => ?_) fun _ => ?_
  · exact absurd (hd.symm.trans hm) (by decide)
  · have hj := h.encode hb hm
    have ho := happ.o
    rcases hj.place with ⟨-, hi, hr, ho0⟩ | ⟨hbody, -⟩
    · rw [ho0, hlen] at ho
      have hi0 : s.i.toNat = 0 := by rw [hi]; rfl
      refine ⟨hj.channels, hj.latched, hj.pixels, hj.index, hj.run_max, hj.run_index, hj.run_end, hj.flag, hj.alpha,
        .inr ⟨rfl, ?_, ?_, fun hlt => ?_⟩⟩
      · rw [ho]; decide
      · rw [ho]; exact Nat.le_add_right _ _
      · exact absurd (hi0 ▸ hlt) (Nat.not_lt_zero _)
    · exact absurd (hbody.symm.trans hp) (by decide)

/-- R64: a chunk is 1 to 5 bytes long. -/
theorem length_encode (i : Instr) : 1 ≤ (encode i).length ∧ (encode i).length ≤ 5 := by
  have h : (encode i).length = i.chunkType.byteLength := by cases i <;> rfl
  rw [h]
  exact ⟨i.chunkType.byteLength_pos, i.chunkType.byteLength_le⟩

/-- R137: a pending run is one byte. -/
theorem length_pendingChunks (s : State) :
    ((pendingChunks s).flatMap encode).length = if s.run = 0 then 0 else 1 := by
  unfold pendingChunks
  split_ifs <;> rfl

/-- R134, R152: a pixel step only counts, and emits nothing, or leaves no run pending, and emits at most 5 bytes for each
pixel that was. -/
theorem pixelStep_size {cur : Pixel} {s : State} (hmax : s.run.toNat ≤ 61) :
    ((pixelRun cur s).toNat = s.run.toNat + 1 ∧ s.run.toNat + 1 ≤ 61 ∧ s.i.toNat + 1 ≠ s.n.toNat ∧
        pixelChunks cur s = []) ∨
      (pixelRun cur s = 0 ∧ 1 ≤ ((pixelChunks cur s).flatMap encode).length ∧
        ((pixelChunks cur s).flatMap encode).length ≤ 5 * (s.run.toNat + 1)) := by
  cases hcount : countsOnly cur s with
  | true =>
    obtain ⟨heq, hstay⟩ := of_decide_eq_true hcount
    obtain ⟨hcap, hlast⟩ := not_or.mp hstay
    have hnext : s.i.toNat + 1 ≠ s.n.toNat := by simpa [isLast] using hlast
    refine .inl ⟨?_, ?_, hnext, ?_⟩
    · rw [pixelRun, hcount, if_pos rfl]
      bv_omega
    · bv_omega
    · rw [pixelChunks, if_pos heq, hcount, if_pos rfl]
  | false =>
    refine .inr ⟨by rw [pixelRun, hcount]; rfl, ?_⟩
    by_cases heq : cur = s.px
    · rw [pixelChunks, if_pos heq, hcount, if_neg Bool.false_ne_true, List.flatMap_singleton]
      obtain ⟨hlo, hhi⟩ := length_encode (.run (s.run + 1).toNat)
      omega
    · rw [pixelChunks, if_neg heq, List.flatMap_append, List.flatMap_singleton, List.length_append, length_pendingChunks]
      obtain ⟨hlo, hhi⟩ := length_encode (lookupChunk cur s)
      split_ifs with hr
      · omega
      · have hpos : s.run.toNat ≠ 0 := fun h0 => hr (BitVec.eq_of_toNat_eq h0)
        omega

/-- R89, R138: after a pixel that differs from PX its slot holds it, whether it hit or missed. -/
theorem slotRead_pixelCache {cur : Pixel} {s : State} (hne : cur ≠ s.px) (k : BitVec 6) :
    slotRead (pixelCache cur s) k = if k = pixelHash cur then ⟨true, cur⟩ else slotRead s.cache k := by
  cases hh : hit s.cache cur with
  | true =>
    rw [pixelCache, if_pos (.inr hh)]
    split_ifs with hk
    · rw [hk]
      exact (hit_iff _ _).mp hh
    · rfl
  | false =>
    rw [pixelCache, if_neg (by simp [hne, hh])]
    exact cacheGets_slotWrite cur s k

/-- R92-R94: PX is in its slot after a pixel step. -/
theorem pxCached_of_registers {cur : Pixel} {s t : State} (h : pxCached s) (hregs : PixelRegisters cur s t) :
    pxCached t := by
  obtain ⟨m, o, rfl⟩ := hregs
  by_cases heq : cur = s.px
  · subst heq
    simpa only [pxCached, pixelCache, true_or, if_true] using h
  · exact .inl ((slotRead_pixelCache heq _).trans (if_pos rfl))

/-- R105, R147: in RGB mode the pixel has alpha 255. -/
theorem inputPixel_alpha (s : State) (j : Nat) : (inputPixel s 3 j).a = 255 := by
  rw [inputPixel, if_pos rfl]

/-- R133-R152: the job's own part of the invariant after a pixel step. -/
theorem EncodeInv.pixel {cur : Pixel} {s t : State} (h : EncodeInv s) (hp : s.phase = .body) (hi : s.i < s.n)
    (halpha : s.ch = 3 → cur.a = 255) (hregs : PixelRegisters cur s t)
    (happ : AppendsBytes ((pixelChunks cur s).flatMap encode) s t) : EncodeInv t := by
  have ho := happ.o
  obtain ⟨m, o, rfl⟩ := hregs
  have hlt : s.i.toNat < s.n.toNat := hi
  have hnext : (s.i + 1).toNat = s.i.toNat + 1 := toNat_add_of_le (k := 1) (c := s.n) hlt
  have hmax := h.run_max
  have hri := h.run_index
  obtain ⟨hlo, hhi, hpos⟩ : 14 ≤ s.o.toNat ∧ s.o.toNat ≤ 14 + 5 * (s.i.toNat - s.run.toNat) ∧
      (s.run.toNat < s.i.toNat → 15 ≤ s.o.toNat) := by
    rcases h.place with ⟨hhdr, -⟩ | ⟨-, hplace⟩
    · exact absurd (hhdr.symm.trans hp) (by decide)
    · exact hplace
  have hsize := pixelStep_size (cur := cur) hmax
  have hrun : (pixelRun cur s).toNat ≤ 61 ∧ (pixelRun cur s).toNat ≤ s.i.toNat + 1 ∧
      (s.i.toNat + 1 = s.n.toNat → pixelRun cur s = 0) := by
    rcases hsize with ⟨hr, hle, hlast, -⟩ | ⟨hr, -⟩
    · exact ⟨by omega, by omega, fun heq => absurd heq hlast⟩
    · rw [hr]
      exact ⟨Nat.zero_le _, Nat.zero_le _, fun _ => rfl⟩
  obtain ⟨hrmax, hrindex, hrend⟩ := hrun
  refine ⟨h.channels, h.latched, h.pixels, ?_, hrmax, ?_, ?_, h.flag, halpha, .inr ⟨hp, ?_⟩⟩
  · exact hnext.trans_le hlt
  · exact hrindex.trans_eq hnext.symm
  · exact fun heq => hrend (hnext.symm.trans (congrArg BitVec.toNat heq))
  · simp only at ho ⊢
    rw [hnext]
    rcases hsize with ⟨hr, -, -, hnone⟩ | ⟨hr, hone, hfive⟩
    · rw [hnone, List.flatMap_nil, List.length_nil] at ho
      omega
    · have hr0 : (pixelRun cur s).toNat = 0 := by rw [hr]; rfl
      omega

theorem inv_of_pixelRegisters {cur : Pixel} {s t : State} (h : s.Inv) (hb : s.jobState = .busy) (hm : s.jobMode = .encode)
    (hp : s.phase = .body) (hi : s.i < s.n) (hcur : fetchPixel s = .ok cur) (hstep : coreStep s = .next t)
    (hregs : PixelRegisters cur s t) (happ : AppendsBytes ((pixelChunks cur s).flatMap encode) s t) (hc : CacheInv t) :
    t.Inv := by
  have halpha : s.ch = 3 → cur.a = 255 := by
    intro hch
    obtain rfl := Except.ok.inj ((fetchPixel_of_fetched (h.fetched hb hm hi)).symm.trans hcur)
    rw [hch]
    exact inputPixel_alpha s _
  have hbusy : t.jobState = .busy := by
    obtain ⟨m, o, rfl⟩ := hregs
    exact hb
  refine h.of_running hb hstep hbusy happ hc (pxCached_of_registers (h.busy hb).cached hregs) (fun hd => ?_) fun _ =>
    (h.encode hb hm).pixel hp hi halpha hregs happ
  exact absurd (hd.symm.trans hm) (by decide)

/-! ### Every step -/

theorem coreStep_keeps_inv {s t : State} (h : s.Inv) (hstep : coreStep s = .next t) : t.Inv := by
  by_cases hb : s.jobState = .busy
  · obtain ⟨f, hruns⟩ := h.coreRuns hb
    have hf := hruns
    cases hruns with
    | header _ hm hp => exact h.of_part hb hf (headerStep_gives s) hstep (inv_headerDone h hb hm hp rfl)
    | pixel _ hm hp hi cur hcur =>
      obtain ⟨u, hgives, hregs⟩ := encodePixel_gives cur s
      exact h.of_part hb hf hgives hstep fun hu => inv_of_pixelRegisters h hb hm hp hi hcur hu hregs
    | trail _ hm =>
      refine h.of_part hb hf (trailStep_gives s) hstep fun hu happ hc => h.of_completed hb hu rfl happ hc fun hd => ?_
      exact absurd (hd.symm.trans hm) (by decide)
    | chunk _ hm _ hdue i => exact h.of_part hb hf (chunkPart_gives i s) hstep (inv_chunkDone h hb hm hdue)
    | finish _ hm =>
      exact h.of_part hb hf (update_gives (appendsBytes_nil rfl rfl rfl rfl) rfl) hstep (inv_finishDecode h hb hm)
  · rw [coreStep_idle hb] at hstep
    obtain rfl := Host.Outcome.next.inj hstep
    exact h

/-- Settles O54: a step is the core's turn or a host access, and each keeps the invariant. -/
theorem everyStepKeepsTheInvariant : Obligations.EveryStepKeepsTheInvariant := by
  intro s t h hstep
  rcases step_cases hstep with ⟨-, hcore⟩ | ⟨op, ts, -, hhost⟩
  · exact coreStep_keeps_inv (h.setTurns _) hcore
  · exact hostStep_keeps_inv (h.setTurns ts) hhost

end Sys2Proof.Machine
end

section
/-! SUPPORT. Encoder and decoder in lockstep (40_pixel_cache.md R92-R94, 43_encoder.md R138-R149): the selected chunk rebuilds
the pixel, and each pixel step is mirrored by decoding the chunks it emitted. -/

namespace Sys2Proof.Machine

/-! ### The selected chunk (R139, R140) -/

/-- R13, R139: a channel plus its delta is the new channel. -/
theorem addChannel_channelDelta (cur prev : Byte) : addChannel prev (channelDelta cur prev) = cur := by
  rw [addChannel, channelDelta, s8, BitVec.ofInt_add, BitVec.ofInt_toInt, ← BitVec.ofInt_add, add_sub_cancel,
    BitVec.ofInt_natCast, BitVec.ofNat_toNat, BitVec.setWidth_eq]

/-- A delta of 0 is no change. -/
theorem eq_of_channelDelta_eq_zero {cur prev : Byte} (h : channelDelta cur prev = 0) : prev = cur := by
  have hadd := addChannel_channelDelta cur prev
  rwa [h, addChannel, Int.add_zero, BitVec.ofInt_natCast, BitVec.ofNat_toNat, BitVec.setWidth_eq] at hadd

/-- R140: the chunk chosen, and the test that chose it. -/
theorem selectChunk_cases (cur prev : Pixel) :
    (selectChunk cur prev = .diff (deltas cur prev).dR (deltas cur prev).dG (deltas cur prev).dB ∧
        fitsDiff (deltas cur prev) = true) ∨
      (selectChunk cur prev = .luma (deltas cur prev).dG ((deltas cur prev).dR - (deltas cur prev).dG)
          ((deltas cur prev).dB - (deltas cur prev).dG) ∧ fitsLuma (deltas cur prev) = true) ∨
      (selectChunk cur prev = .rgb cur.r cur.g cur.b ∧ (deltas cur prev).dA = 0) ∨
      selectChunk cur prev = .rgba cur.r cur.g cur.b cur.a := by
  unfold selectChunk
  dsimp only
  split_ifs with hdiff hluma halpha
  · exact .inl ⟨rfl, hdiff⟩
  · exact .inr (.inl ⟨rfl, hluma⟩)
  · exact .inr (.inr (.inl ⟨rfl, halpha⟩))
  · exact .inr (.inr (.inr rfl))

/-- R82, R140: the tests are the operand ranges. -/
theorem selectChunk_wellFormed (cur prev : Pixel) : (selectChunk cur prev).wellFormed = true := by
  rcases selectChunk_cases cur prev with ⟨h, hfits⟩ | ⟨h, hfits⟩ | ⟨h, -⟩ | h <;> rw [h]
  · simp only [fitsDiff, Bool.and_eq_true] at hfits
    obtain ⟨⟨⟨-, hr⟩, hg⟩, hb⟩ := hfits
    simp only [Instr.wellFormed, hr, hg, hb, Bool.and_self]
  · simp only [fitsLuma, Bool.and_eq_true] at hfits
    obtain ⟨⟨⟨-, hg⟩, hrg⟩, hbg⟩ := hfits
    simp only [Instr.wellFormed, hg, hrg, hbg, Bool.and_self]
  · rfl
  · rfl

/-- R148, R149: decoded after the previous pixel, the selected chunk gives the current one. -/
theorem chunkPixel_selectChunk (cur prev slot : Pixel) : chunkPixel (selectChunk cur prev) slot prev = cur := by
  have halpha : (deltas cur prev).dA = 0 → prev.a = cur.a := eq_of_channelDelta_eq_zero
  rcases selectChunk_cases cur prev with ⟨h, hfits⟩ | ⟨h, hfits⟩ | ⟨h, hkeep⟩ | h <;> rw [h, chunkPixel]
  · simp only [fitsDiff, Bool.and_eq_true, decide_eq_true_eq] at hfits
    obtain ⟨⟨⟨hkeep, -⟩, -⟩, -⟩ := hfits
    simp only [applyDiff, deltas, addChannel_channelDelta, halpha hkeep]
  · simp only [fitsLuma, Bool.and_eq_true, decide_eq_true_eq] at hfits
    obtain ⟨⟨⟨hkeep, -⟩, -⟩, -⟩ := hfits
    simp only [applyLuma, deltas, add_sub_cancel, addChannel_channelDelta, halpha hkeep]
  · rw [applyRgb, halpha hkeep]
  · rfl

/-- R140: neither INDEX nor RUN is selected. -/
theorem selectChunk_chunkType (cur prev : Pixel) :
    (selectChunk cur prev).chunkType ≠ .index ∧ (selectChunk cur prev).chunkType ≠ .run := by
  rcases selectChunk_cases cur prev with ⟨h, -⟩ | ⟨h, -⟩ | ⟨h, -⟩ | h <;> rw [h] <;> exact ⟨nofun, nofun⟩

/-! ### Decoding a list of chunks -/

/-- What a chunk other than INDEX gives, it gives of PX alone. -/
theorem execPixel_eq_chunkPixel {i : Instr} (h : i.chunkType ≠ .index) (slot : Pixel) (s : State) :
    execPixel i s = chunkPixel i slot s.px := by
  cases i with
  | index idx => exact absurd rfl h
  | diff | luma | run | rgb | rgba => rfl

/-- Only INDEX reads the cache. -/
theorem execRead_of_ne_index {i : Instr} (h : i.chunkType ≠ .index) (s : State) : execRead i s = s := by
  cases i with
  | index idx => exact absurd rfl h
  | diff | luma | run | rgb | rgba => rfl

/-- Every chunk but RUN gives one pixel. -/
theorem execCount_of_ne_run {i : Instr} (h : i.chunkType ≠ .run) : execCount i = 1 := by
  cases i with
  | run count => exact absurd rfl h
  | index | diff | luma | rgb | rgba => rfl

/-- The chunks `is` take the decoder from `d` to `d'`, append the pixels `ps` and set no flag. -/
structure Decodes (is : List Instr) (ps : List Pixel) (d d' : State) : Prop where
  exec : execAll is d = .next d'
  appends : AppendsBytes (ps.flatMap pixelBytes) d d'
  absIdx : d'.absIdx = d.absIdx
  jobState : d'.jobState = d.jobState

theorem decodes_nil (d : State) : Decodes [] [] d d := ⟨rfl, appendsBytes_nil rfl rfl rfl rfl, rfl, rfl⟩

theorem execAll_append {is : List Instr} {s t : State} (h : execAll is s = .next t) (js : List Instr) :
    execAll (is ++ js) s = execAll js t := by
  induction is generalizing s with
  | nil =>
    obtain rfl := Host.Outcome.next.inj h
    rfl
  | cons i is ih =>
    rw [execAll] at h
    rw [List.cons_append, execAll]
    cases hi : exec i s with
    | next u => rw [hi] at h; exact ih h
    | fault r => rw [hi] at h; cases h
    | refused r => rw [hi] at h; cases h

theorem Decodes.append {is js : List Instr} {ps qs : List Pixel} {d d' d'' : State} (h : Decodes is ps d d')
    (h' : Decodes js qs d' d'') : Decodes (is ++ js) (ps ++ qs) d d'' where
  exec := (execAll_append h.exec js).trans h'.exec
  appends := by rw [List.flatMap_append]; exact h.appends.trans h'.appends
  absIdx := h'.absIdx.trans h.absIdx
  jobState := h'.jobState.trans h.jobState

/-- A chunk that does not draw a pixel is decoded where OUT has room for its pixels. -/
theorem decodes_chunk {i : Instr} {d : State} (hread : execRead i d = d) (hroom : Room d (4 * execCount i)) :
    Decodes [i] (List.replicate (execCount i) (execPixel i d)) d (chunkDone i d) := by
  have hbytes : (List.replicate (execCount i) (execPixel i d)).flatMap pixelBytes = chunkBytes i d := by
    rw [chunkBytes, List.flatMap_def, List.map_replicate]
  have hlen : (chunkBytes i d).length = 4 * execCount i := length_copies _ _
  obtain ⟨hmore, happ⟩ := (chunkPart_gives i d).eq_more (by rw [hlen]; exact hroom)
  refine ⟨?_, hbytes ▸ happ, ?_, ?_⟩
  · rw [execAll, exec_eq_chunkPart, hmore]
    rfl
  · rw [chunkDone, hread]
    rfl
  · rw [chunkDone, hread]
    rfl

/-! ### Lockstep (R92-R94) -/

/-- R110, R112: PX and the cache after a chunk that does not draw a pixel. -/
theorem chunkDone_px_cache {i : Instr} {d : State} (hread : execRead i d = d) :
    (chunkDone i d).px = execPixel i d ∧ CacheGets d (chunkDone i d) (execPixel i d) := by
  rw [chunkDone, hread]
  exact ⟨rfl, cacheGets_slotWrite _ d⟩

/-- Encoder and decoder write the same slot. -/
theorem Lockstep.of_gets {e d e' d' : State} {p : Pixel} (h : Lockstep e d) (hpx : d'.px = e'.px) (he : CacheGets e e' p)
    (hd : CacheGets d d' p) : Lockstep e' d' where
  px := hpx
  valid k hk := by
    rw [he k] at hk ⊢
    rw [hd k]
    split_ifs at hk ⊢
    · rfl
    · exact h.valid k hk
  absent k h53 hk := by
    rw [he k] at hk
    rw [hd k]
    split_ifs at hk ⊢
    exact h.absent k h53 hk

/-- R92-R94: decoding a RUN writes PX into its slot, which holds it already, or is slot 53. -/
theorem Lockstep.run {e d : State} (h : Lockstep e d) (hpx : pxCached e) (count : Nat) :
    Lockstep e (chunkDone (.run count) d) := by
  obtain ⟨hdpx, hgets⟩ := chunkDone_px_cache (i := .run count) (d := d) rfl
  have hdpx' : execPixel (.run count) d = e.px := h.px
  rw [hdpx'] at hdpx hgets
  rcases hpx with hheld | ⟨hinit, habs⟩
  · refine h.of_gets hdpx (fun k => ?_) hgets
    split_ifs with hk
    · rw [hk, hheld]
    · rfl
  · have h53 : pixelHash e.px = 53 := by rw [hinit]; decide
    refine ⟨hdpx, fun k hk => ?_, fun k hne hk => ?_⟩ <;> rw [hgets k]
    · have hother : k ≠ pixelHash e.px := by rintro rfl; simp [habs] at hk
      rw [if_neg hother]
      exact h.valid k hk
    · rw [if_neg (by rw [h53]; exact hne)]
      exact h.absent k hne hk

/-- R138, R148, R149: in lockstep the chunk of a lookup gives the pixel, once, and draws none. -/
theorem Lockstep.exec_lookupChunk {e d : State} (h : Lockstep e d) (cur : Pixel) :
    execPixel (lookupChunk cur e) d = cur ∧ execRead (lookupChunk cur e) d = d ∧ execCount (lookupChunk cur e) = 1 := by
  cases hh : hit e.cache cur with
  | true =>
    have hslot := (hit_iff _ _).mp hh
    have hslot' : slotRead d.cache (pixelHash cur) = ⟨true, cur⟩ := (h.valid _ (by rw [hslot])).trans hslot
    have hread : indexRead (pixelHash cur) d = (cur, d) := by
      rw [indexRead, hslot']
      rfl
    rw [lookupChunk, if_pos hh, execPixel, execRead, hread]
    exact ⟨rfl, rfl, rfl⟩
  | false =>
    obtain ⟨hindex, hrun⟩ := selectChunk_chunkType cur e.px
    rw [lookupChunk, hh, if_neg Bool.false_ne_true, execPixel_eq_chunkPixel hindex cur, h.px]
    exact ⟨chunkPixel_selectChunk cur e.px cur, execRead_of_ne_index hindex d, execCount_of_ne_run hrun⟩

/-- R137: the pending run is decoded into its copies of PX. -/
theorem Lockstep.decodes_pending {e d : State} (h : Lockstep e d) (hpx : pxCached e) (hroom : Room d (4 * e.run.toNat)) :
    ∃ d', Decodes (pendingChunks e) (List.replicate e.run.toNat e.px) d d' ∧ Lockstep e d' := by
  by_cases hr : e.run = 0
  · rw [pendingChunks, if_pos hr, hr]
    exact ⟨d, decodes_nil d, h⟩
  · rw [pendingChunks, if_neg hr, ← h.px]
    exact ⟨_, decodes_chunk (i := .run e.run.toNat) rfl hroom, h.run hpx _⟩

/-- R138: the pixel's own chunk is decoded into the pixel, and both caches then hold it. -/
theorem Lockstep.decodes_lookup {e d e' : State} {cur : Pixel} (h : Lockstep e d) (hroom : Room d 4) (hpx : e'.px = cur)
    (hgets : CacheGets e e' cur) : ∃ d', Decodes [lookupChunk cur e] [cur] d d' ∧ Lockstep e' d' := by
  obtain ⟨hpixel, hread, hcount⟩ := h.exec_lookupChunk cur
  obtain ⟨hdpx, hdgets⟩ := chunkDone_px_cache hread
  have hdec := decodes_chunk hread (by rw [hcount]; exact hroom)
  rw [hpixel] at hdpx hdgets hdec
  rw [hcount] at hdec
  exact ⟨_, hdec, h.of_gets (hdpx.trans hpx.symm) hgets hdgets⟩

/-- R149: the copies of PX that are pending before a pixel step for `cur`, and then `cur`, all but the last `r`. -/
def releasedPixels (cur : Pixel) (e : State) (r : BitVec 6) : List Pixel :=
  (List.replicate e.run.toNat e.px ++ [cur]).take (e.run.toNat + 1 - r.toNat)

/-- With none left pending, all of them. -/
theorem releasedPixels_zero (cur : Pixel) (e : State) :
    releasedPixels cur e 0 = List.replicate e.run.toNat e.px ++ [cur] :=
  List.take_of_length_le (by simp)

theorem PixelRegisters.px_run_cache {cur : Pixel} {e e' : State} (h : PixelRegisters cur e e') :
    e'.px = cur ∧ e'.run = pixelRun cur e ∧ e'.cache = pixelCache cur e := by
  obtain ⟨m, o, rfl⟩ := h
  exact ⟨rfl, rfl, rfl⟩

/-- Lockstep speaks of PX and the cache alone. -/
theorem Lockstep.congr_encoder {e e' d : State} (h : Lockstep e d) (hpx : e'.px = e.px) (hcache : e'.cache = e.cache) :
    Lockstep e' d :=
  ⟨h.px.trans hpx.symm, by rw [hcache]; exact h.valid, by rw [hcache]; exact h.absent⟩

/-- R134, R136: a repeat leaves nothing to decode, or a RUN of the copies pending and the pixel. -/
theorem Lockstep.decodes_repeat {e d e' : State} (h : Lockstep e d) (hpx : pxCached e) (hmax : e.run.toNat ≤ 61)
    (hregs : PixelRegisters e.px e e') (hroom : Room d (4 * (e.run.toNat + 1))) :
    ∃ d', Decodes (pixelChunks e.px e) (releasedPixels e.px e e'.run) d d' ∧ Lockstep e' d' := by
  obtain ⟨hpx', hrun, hcache⟩ := hregs.px_run_cache
  have hsame : ∀ d', Lockstep e d' → Lockstep e' d' :=
    fun d' hd => hd.congr_encoder hpx' (hcache.trans (if_pos (.inl rfl)))
  have hnext : (e.run + 1).toNat = e.run.toNat + 1 := by bv_omega
  rw [hrun, pixelRun, pixelChunks, if_pos rfl]
  cases countsOnly e.px e with
  | true =>
    have hnone : releasedPixels e.px e (e.run + 1) = [] := by
      rw [releasedPixels, hnext, Nat.sub_self, List.take_zero]
    refine ⟨d, ?_, hsame d h⟩
    rw [if_pos rfl, if_pos rfl, hnone]
    exact decodes_nil d
  | false =>
    have hall : releasedPixels e.px e 0 = List.replicate (e.run + 1).toNat d.px := by
      rw [releasedPixels_zero, hnext, h.px, List.replicate_succ']
    refine ⟨_, ?_, hsame _ (h.run hpx (e.run + 1).toNat)⟩
    rw [if_neg Bool.false_ne_true, if_neg Bool.false_ne_true, hall]
    exact decodes_chunk (i := .run (e.run + 1).toNat) rfl (by rw [execCount, hnext]; exact hroom)

/-- R137, R138: a pixel that differs leaves the pending run to decode, and then the pixel's own chunk. -/
theorem Lockstep.decodes_differ {e d e' : State} {cur : Pixel} (h : Lockstep e d) (hpx : pxCached e) (hne : cur ≠ e.px)
    (hregs : PixelRegisters cur e e') (hroom : Room d (4 * (e.run.toNat + 1))) :
    ∃ d', Decodes (pixelChunks cur e) (releasedPixels cur e e'.run) d d' ∧ Lockstep e' d' := by
  obtain ⟨hpx', hrun, hcache⟩ := hregs.px_run_cache
  have hflushed : pixelRun cur e = 0 := by simp [pixelRun, countsOnly, hne]
  have hgets : CacheGets e e' cur := fun k => by rw [hcache]; exact slotRead_pixelCache hne k
  obtain ⟨d₁, hdec₁, hlock₁⟩ := h.decodes_pending hpx (Nat.le_trans (by omega) hroom)
  have hroom₁ : Room d₁ 4 := by
    have hlen : ((List.replicate e.run.toNat e.px).flatMap pixelBytes).length = 4 * e.run.toNat := by
      rw [List.flatMap_def, List.map_replicate, length_copies]
    unfold Room at hroom ⊢
    rw [hdec₁.appends.cfg, hdec₁.appends.o, hlen]
    omega
  obtain ⟨d₂, hdec₂, hlock₂⟩ := hlock₁.decodes_lookup hroom₁ hpx' hgets
  refine ⟨d₂, ?_, hlock₂⟩
  rw [pixelChunks, if_neg hne, hrun, hflushed, releasedPixels_zero]
  exact hdec₁.append hdec₂

/-- The chunks of a pixel step are decoded into the pixels that are no longer pending. -/
theorem Lockstep.decodes_pixelChunks {e d e' : State} {cur : Pixel} (h : Lockstep e d) (hpx : pxCached e)
    (hmax : e.run.toNat ≤ 61) (hregs : PixelRegisters cur e e') (hroom : Room d (4 * (e.run.toNat + 1))) :
    ∃ d', Decodes (pixelChunks cur e) (releasedPixels cur e e'.run) d d' ∧ Lockstep e' d' := by
  by_cases heq : cur = e.px
  · subst heq
    exact h.decodes_repeat hpx hmax hregs hroom
  · exact h.decodes_differ hpx heq hregs hroom

/-! ### The pixel step of the encoder -/

/-- A pixel step after which the job runs on is done. -/
theorem pixelStep_done {e e' : State} {cur : Pixel} (hat : AtPixel e) (hfetch : Fetched e cur) (hstep : step e = .next e')
    (hbusy : e'.jobState = .busy) :
    PixelRegisters cur e e' ∧ AppendsBytes ((pixelChunks cur e).flatMap encode) e e' := by
  obtain ⟨hturns, hb, hm, hp, hi⟩ := hat
  have hruns : CoreRuns e (encodePixel cur) := .pixel hb hm hp hi cur (fetchPixel_of_fetched hfetch)
  obtain ⟨u, hgives, hregs⟩ := encodePixel_gives cur e
  rw [step_core hturns, hruns.coreStep_eq] at hstep
  rcases hgives.of_next hstep with ⟨rfl, happ, -⟩ | ⟨herr, -⟩
  · exact ⟨hregs, happ⟩
  · exact absurd (hbusy.symm.trans herr) (by decide)

theorem pixelDone_of_registers {e e' : State} {cur : Pixel} {bs : List Byte} (hregs : PixelRegisters cur e e')
    (happ : AppendsBytes bs e e') : PixelDone e e' cur bs := by
  have hout := happ.outGets
  have ho := happ.o
  obtain ⟨m, o, rfl⟩ := hregs
  exact ⟨hout, ho, rfl, rfl, .refl e, ⟨rfl, rfl, rfl, rfl, rfl, rfl⟩, rfl, rfl, rfl, rfl, rfl, rfl, rfl⟩

/-- R72, R137: a run of 1 to 62 pixels is a chunk. -/
theorem run_wellFormed {r : BitVec 6} (h0 : r ≠ 0) (hmax : r.toNat ≤ 62) : (Instr.run r.toNat).wellFormed = true := by
  have hpos : r.toNat ≠ 0 := fun h => h0 (BitVec.eq_of_toNat_eq h)
  simp only [Instr.wellFormed, Bool.and_eq_true, decide_eq_true_eq]
  omega

/-- A pixel step emits well-formed chunks. -/
theorem pixelChunks_wellFormed {cur : Pixel} {e : State} (hmax : e.run.toNat ≤ 61) :
    ∀ i ∈ pixelChunks cur e, i.wellFormed = true := by
  have hlookup : (lookupChunk cur e).wellFormed = true := by
    unfold lookupChunk
    split_ifs
    · rfl
    · exact selectChunk_wellFormed cur e.px
  intro i hi
  unfold pixelChunks pendingChunks at hi
  split_ifs at hi with heq hcount hr
  · cases hi
  · obtain rfl := List.mem_singleton.mp hi
    exact run_wellFormed (by bv_omega) (by bv_omega)
  · obtain rfl := List.mem_singleton.mp hi
    exact hlookup
  · rcases List.mem_append.mp hi with hi | hi <;> obtain rfl := List.mem_singleton.mp hi
    · exact run_wellFormed hr (by omega)
    · exact hlookup

/-- Settles O39: the chunks of the pixel step are well-formed, and in lockstep they are decoded into the pixels released. -/
theorem decoderMirrorsThePixelStep : Obligations.DecoderMirrorsThePixelStep := by
  intro e d e' cur hinv hat hfetch hlock hstep hbusy hroom
  have ⟨_, hb, hm, _, _⟩ := hat
  have hmax := (hinv.encode hb hm).run_max
  obtain ⟨hregs, happ⟩ := pixelStep_done hat hfetch hstep hbusy
  obtain ⟨d', hdec, hlock'⟩ := hlock.decodes_pixelChunks (hinv.busy hb).cached hmax hregs hroom
  exact ⟨pixelChunks cur e, d', pixelChunks_wellFormed hmax, pixelDone_of_registers hregs happ, hdec.exec, hlock',
    hdec.absIdx, hdec.jobState, hdec.appends.outGets⟩

end Sys2Proof.Machine
end

section
/-! SUPPORT. Framing (41_framing.md R95-R98): the byte-number codec is big-endian and reads back what it wrote, and the header
step writes OUT[0..13] or overflows. -/

namespace Sys2Proof.Machine

/-! ### The byte-number codec (R96, R97) -/

/-- R96: the first byte is the most significant. -/
theorem bytesToUint32_toNat (b0 b1 b2 b3 : Byte) :
    (bytesToUint32 b0 b1 b2 b3).toNat = b0.toNat * 2 ^ 24 + b1.toNat * 2 ^ 16 + b2.toNat * 2 ^ 8 + b3.toNat := by
  rw [bytesToUint32, toNat_append_eq_add, toNat_append_eq_add, toNat_append_eq_add]
  omega

/-- R97: the four bytes of a word, the most significant first, are read as that word. -/
theorem bytesToUint32_extractLsb' (v : Word) :
    bytesToUint32 (v.extractLsb' 24 8) (v.extractLsb' 16 8) (v.extractLsb' 8 8) (v.extractLsb' 0 8) = v := by
  have hv := v.isLt
  refine BitVec.eq_of_toNat_eq ?_
  rw [bytesToUint32_toNat]
  simp only [BitVec.extractLsb'_toNat, Nat.shiftRight_eq_div_pow]
  omega

/-- Settles O7: a word is the sum of its bytes, each by its place. -/
theorem byteNumberCodecIsBigEndian : Obligations.ByteNumberCodecIsBigEndian :=
  ⟨bytesToUint32_toNat, fun v => ⟨_, _, _, _, rfl, rfl, rfl, rfl, rfl, bytesToUint32_extractLsb' v⟩⟩

/-! ### The step of a running job, by the room in OUT (R49) -/

/-- The one error a running job's step ends with (R159). -/
theorem coreStep_overflows_of_error {s t : State} (hb : s.jobState = .busy) (h : coreStep s = .next t)
    (herr : t.jobState = .error) : JobOverflows s t := by
  rcases coreStep_cases h with ⟨hnb, -⟩ | ⟨-, hr | hd | ho⟩
  · exact absurd hb hnb
  · exact absurd (herr.symm.trans (hr.jobState.trans hb)) (by decide)
  · exact absurd (herr.symm.trans hd.jobState) (by decide)
  · exact ho

theorem CoreRuns.busy {s : State} {f : State → Flow} (h : CoreRuns s f) : s.jobState = .busy := by
  cases h <;> assumption

section
variable {s t : State} {f : State → Flow} {bs : List Byte}

/-- A step whose bytes fit leaves what its part gives. -/
theorem CoreRuns.step_fits (hruns : CoreRuns s f) (hturns : s.turns = []) (hgives : (f s).Gives bs s t)
    (hroom : Room s bs.length) : step s = .next t ∧ AppendsBytes bs s t := by
  obtain ⟨hmore, happ⟩ := hgives.eq_more hroom
  rw [step_core hturns, hruns.coreStep_eq, hmore, Flow.more_outcome]
  exact ⟨rfl, happ⟩

/-- A step whose bytes do not fit ends the job with ERR_OUT_OVERFLOW. -/
theorem CoreRuns.step_overflows (hruns : CoreRuns s f) (hturns : s.turns = []) (hgives : (f s).Gives bs s t)
    (hne : bs ≠ []) (hfull : ¬Room s bs.length) : Overflows s := by
  obtain ⟨u, hu⟩ := (hruns.emitPart.appends s).exists_next
  have hcore : coreStep s = .next u := hruns.coreStep_eq.trans hu
  have herr : u.jobState = .error := by
    rcases hgives.of_next hu with ⟨-, happ, -⟩ | ⟨herr, -⟩
    · have hle := happ.room hne
      rw [happ.o, happ.cfg] at hle
      exact absurd hle hfull
    · exact herr
  have ho := coreStep_overflows_of_error hruns.busy hcore herr
  exact ⟨u, (step_core hturns).trans hcore, ho.jobState, ho.err, ho.outLen, ho.pixCount, ho.inputs⟩

end

/-! ### The header step (R98, R131) -/

/-- R95: the magic, two words and two bytes. -/
theorem length_headerBytes (w h : Word) (ch cs : Byte) : (headerBytes w h ch cs).length = 14 := rfl

/-- Settles O28: the header is 14 bytes, appended at o = 0. -/
theorem headerStepWritesFourteenBytes : Obligations.HeaderStepWritesFourteenBytes := by
  intro s hturns hb hm hp ho
  have hruns : CoreRuns s headerStep := .header hb hm hp
  have hroom : Room s (headerBytes s.wid s.hgt s.ch 0x00).length ↔ 14 ≤ s.cfg.outCap.toNat := by
    simp [Room, ho, length_headerBytes]
  constructor
  · intro hcap
    obtain ⟨hstep, happ⟩ := hruns.step_fits hturns (headerStep_gives s) (hroom.mpr hcap)
    have hout := happ.outGets
    rw [ho] at hout
    refine ⟨_, s.outBuf.putBytes s.o.toNat (headerBytes s.wid s.hgt s.ch 0x00), hstep, ?_, hout⟩
    rw [pushBytes, ho]
    rfl
  · intro hcap
    exact hruns.step_overflows hturns (headerStep_gives s) (List.cons_ne_nil _ _) (mt hroom.mp (Nat.not_le_of_lt hcap))

end Sys2Proof.Machine
end

section
/-! SUPPORT. What a chunk does, by the room in OUT (42_decoder.md R110-R119, 60_exceptions.md R158), and the statements about the
six chunk types and their frame. -/

namespace Sys2Proof

/-! ### The tags of the four packed types (R65-R69) -/

/-- The bytes a well-formed chunk is packed into are decoded to it. -/
theorem decode_packed {i : Instr} {bs : List Byte} (hwf : i.wellFormed = true) (henc : encode i = bs) (rest : List Byte) :
    decode (bs ++ rest) = .chunk i rest := decode_eq_chunk_iff.mpr ⟨hwf, henc ▸ rfl⟩

/-- The two top bits as a number: from them follow the range bounds that the packing lemmas ask for. -/
theorem div_of_top {tag : Byte} {t : BitVec 2} (h : tag.extractLsb' 6 2 = t) : tag.toNat / 64 = t.toNat := by
  rw [← h, BitVec.extractLsb'_toNat, Nat.shiftRight_eq_div_pow]
  omega

theorem decode_of_top_index {tag : Byte} (h : tag.extractLsb' 6 2 = 0b00) (rest : List Byte) :
    decode (tag :: rest) = .chunk (indexOperands tag) rest := by
  have hq : tag.toNat / 64 = 0 := div_of_top h
  exact decode_packed rfl (encode_indexOperands (by omega)) rest

theorem decode_of_top_diff {tag : Byte} (h : tag.extractLsb' 6 2 = 0b01) (rest : List Byte) :
    decode (tag :: rest) = .chunk (diffOperands tag) rest := by
  have hq : tag.toNat / 64 = 1 := div_of_top h
  exact decode_packed (diffOperands_wellFormed tag) (encode_diffOperands (by omega) (by omega)) rest

theorem decode_of_top_luma {tag : Byte} (h : tag.extractLsb' 6 2 = 0b10) (b2 : Byte) (rest : List Byte) :
    decode (tag :: b2 :: rest) = .chunk (lumaOperands tag b2) rest := by
  have hq : tag.toNat / 64 = 2 := div_of_top h
  exact decode_packed (lumaOperands_wellFormed tag b2) (encode_lumaOperands b2 (by omega) (by omega)) rest

theorem decode_of_top_run {tag : Byte} (h : tag.extractLsb' 6 2 = 0b11) (hrgb : tag ≠ 0xFE) (hrgba : tag ≠ 0xFF)
    (rest : List Byte) : decode (tag :: rest) = .chunk (runOperands tag) rest := by
  have hq : tag.toNat / 64 = 3 := div_of_top h
  exact decode_packed (runOperands_wellFormed tag (by omega) (by bv_omega)) (encode_runOperands (by omega)) rest

end Sys2Proof

namespace Sys2Proof.Machine

/-! ### What a chunk reads -/

/-- Reading the cache changes ABS and the draw count at most. -/
theorem execRead_registers (i : Instr) (s : State) :
    execRead i s = { s with absIdx := (execRead i s).absIdx, draws := (execRead i s).draws } := by
  obtain ⟨a, d, h⟩ := execRead_eq i s
  rw [h]

/-- R115: it changes them only where the chunk is an INDEX of an absent slot. -/
theorem index_absent_of_execRead_ne {i : Instr} {s : State} (h : execRead i s ≠ s) :
    ∃ idx, i = .index idx ∧ (slotRead s.cache idx).valid = false := by
  cases i with
  | index idx =>
    rcases indexRead_cases idx s with ⟨-, hread⟩ | ⟨habs, -⟩
    · exact absurd (congrArg Prod.snd hread) h
    · exact ⟨idx, rfl, habs⟩
  | diff | luma | run | rgb | rgba => exact absurd rfl h

/-- R115, the valid slot: what an INDEX reads. -/
theorem indexRead_valid {idx : BitVec 6} {s : State} (h : (slotRead s.cache idx).valid = true) :
    indexRead idx s = ((slotRead s.cache idx).px, s) := if_pos h

/-- R115, the absent slot: reading it sets ABS. -/
theorem indexRead_absent_absIdx {idx : BitVec 6} {s : State} (h : (slotRead s.cache idx).valid = false) :
    (indexRead idx s).2.absIdx = true := by
  rw [indexRead, h]
  rfl

/-- R64, R72: a well-formed chunk gives a pixel. -/
theorem execCount_ne_zero {i : Instr} (h : i.wellFormed = true) : execCount i ≠ 0 := by
  cases i with
  | run count =>
    simp only [Instr.wellFormed, Bool.and_eq_true, decide_eq_true_eq] at h
    exact Nat.ne_of_gt h.1
  | index | diff | luma | rgb | rgba => exact Nat.one_ne_zero

theorem execCount_eq_pixelCount (i : Instr) : execCount i = pixelCount i := by
  cases i <;> rfl

/-! ### A chunk is done, or OUT overflows (R110-R112, R158) -/

/-- The state `chunkDone` is what R110 says of a chunk that is done. -/
theorem chunkDone_of_appends {i : Instr} {s : State} (happ : AppendsBytes (chunkBytes i s) s (chunkDone i s)) :
    ChunkDone s (chunkDone i s) (execPixel i s) (execCount i) (execLength i) := by
  have hout := happ.outGets
  have ho := happ.o
  rw [chunkBytes, length_copies] at ho
  rw [chunkDone, execRead_registers] at hout ho ⊢
  exact ⟨rfl, hout, ho, cacheGets_slotWrite _ s, rfl, .refl s, ⟨rfl, rfl, rfl, rfl, rfl, rfl⟩, rfl, rfl, rfl, rfl, rfl, rfl⟩

/-- R115: ABS and the draw count are what reading the cache has left. -/
theorem chunkDone_absIdx_draws (i : Instr) (s : State) :
    (chunkDone i s).absIdx = (execRead i s).absIdx ∧ (chunkDone i s).draws = (execRead i s).draws := by
  simp only [chunkDone, tailDone, slotWrite_absIdx, slotWrite_draws, pushBytes_absIdx, pushBytes_draws, and_self]

/-- Where OUT has room the chunk is done. -/
theorem exec_of_room {i : Instr} {s : State} (hroom : Room s (4 * execCount i)) :
    ∃ t, exec i s = .next t ∧ ChunkDone s t (execPixel i s) (execCount i) (execLength i) ∧
      t.absIdx = (execRead i s).absIdx ∧ t.draws = (execRead i s).draws := by
  have hlen : (chunkBytes i s).length = 4 * execCount i := length_copies _ _
  obtain ⟨hmore, happ⟩ := (chunkPart_gives i s).eq_more (by rw [hlen]; exact hroom)
  refine ⟨chunkDone i s, ?_, chunkDone_of_appends happ, chunkDone_absIdx_draws i s⟩
  rw [exec_eq_chunkPart, hmore, Flow.more_outcome]

/-- Where OUT has no room the chunk raises ERR_OUT_OVERFLOW. -/
theorem exec_of_no_room {i : Instr} {s : State} (hcount : execCount i ≠ 0) (hfull : ¬Room s (4 * execCount i)) :
    ∃ t, exec i s = .next t ∧ Raised .outOverflow s t ∧ t.absIdx = (execRead i s).absIdx := by
  rcases exec_cases i s with ⟨-, hnone | hroom⟩ | ⟨hexec, -, -⟩
  · exact absurd hnone hcount
  · exact absurd hroom hfull
  · refine ⟨_, hexec, ?_, rfl⟩
    rw [execRead_registers]
    exact ⟨rfl, rfl, rfl, rfl, .refl s, rfl, rfl, rfl, rfl, rfl, rfl⟩

/-! ### The six chunk types (R113-R118) -/

/-- Settles O12: the five bytes of the chunk, and what every chunk does by the room in OUT. -/
theorem rgbaChunkWritesItsFourChannels : Obligations.RgbaChunkWritesItsFourChannels :=
  fun r g b a _ => ⟨decode_packed (i := .rgba r g b a) rfl rfl, exec_of_room (i := .rgba r g b a),
    exec_of_no_room (i := .rgba r g b a) Nat.one_ne_zero⟩

/-- Settles O13: the four bytes of the chunk, and what every chunk does by the room in OUT. -/
theorem rgbChunkKeepsAlpha : Obligations.RgbChunkKeepsAlpha :=
  fun r g b _ => ⟨decode_packed (i := .rgb r g b) rfl rfl, exec_of_room (i := .rgb r g b),
    exec_of_no_room (i := .rgb r g b) Nat.one_ne_zero⟩

/-- Settles O14: a valid slot is read as it stands. -/
theorem indexChunkCopiesAValidSlot : Obligations.IndexChunkCopiesAValidSlot := by
  refine ⟨fun tag rest h => decode_of_top_index h rest, fun idx s hvalid => ?_⟩
  have hroom := exec_of_room (i := .index idx) (s := s)
  have hfull := exec_of_no_room (i := .index idx) (s := s) Nat.one_ne_zero
  rw [execRead, indexRead_valid hvalid] at hroom hfull
  rw [execPixel, indexRead_valid hvalid] at hroom
  exact ⟨hroom, hfull⟩

/-- Settles O15: an absent slot sets ABS, and the pixel drawn is the chunk's. -/
theorem indexChunkOfAnAbsentSlotSetsAbs : Obligations.IndexChunkOfAnAbsentSlotSetsAbs := by
  intro idx s habsent
  have hflag : (execRead (.index idx) s).absIdx = true := indexRead_absent_absIdx habsent
  refine ⟨fun hroom => ?_, fun hfull => ?_⟩
  · obtain ⟨t, hexec, hdone, habs, -⟩ := exec_of_room (i := .index idx) hroom
    exact ⟨t, _, hexec, hdone, habs.trans hflag⟩
  · obtain ⟨t, hexec, hraised, habs⟩ := exec_of_no_room (i := .index idx) Nat.one_ne_zero hfull
    exact ⟨t, hexec, hraised, habs.trans hflag⟩

/-- R13: the sum mod 256, as a number. -/
theorem addChannel_toNat (c : Byte) (d : Int) : ((addChannel c d).toNat : Int) = (c.toNat + d) % 256 := by
  rw [addChannel, BitVec.toNat_ofInt]
  exact Int.toNat_of_nonneg (Int.emod_nonneg _ (by decide))

/-- Settles O16: each channel is a sum mod 256. -/
theorem diffChunkAddsItsDeltas : Obligations.DiffChunkAddsItsDeltas := by
  refine ⟨fun tag rest h => decode_of_top_diff h rest, fun dR dG dB s => ⟨fun hroom => ?_,
    exec_of_no_room (i := .diff dR dG dB) Nat.one_ne_zero⟩⟩
  obtain ⟨t, hexec, hdone, habs, hdraws⟩ := exec_of_room (i := .diff dR dG dB) hroom
  exact ⟨t, _, hexec, hdone, habs, hdraws, addChannel_toNat _ _, addChannel_toNat _ _, addChannel_toNat _ _, rfl⟩

/-- Settles O17: each channel is a sum mod 256, red and blue with both deltas. -/
theorem lumaChunkAddsItsDeltas : Obligations.LumaChunkAddsItsDeltas := by
  refine ⟨fun tag b2 rest h => decode_of_top_luma h b2 rest, fun dG dRG dBG s => ⟨fun hroom => ?_,
    exec_of_no_room (i := .luma dG dRG dBG) Nat.one_ne_zero⟩⟩
  obtain ⟨t, hexec, hdone, habs, hdraws⟩ := exec_of_room (i := .luma dG dRG dBG) hroom
  refine ⟨t, _, hexec, hdone, habs, hdraws, ?_, addChannel_toNat _ _, ?_, rfl⟩ <;> rw [add_assoc]
  · exact addChannel_toNat _ _
  · exact addChannel_toNat _ _

/-- Settles O18: a RUN keeps PX, and its count is not 0. -/
theorem runChunkRepeatsThePixel : Obligations.RunChunkRepeatsThePixel :=
  ⟨fun _ rest h hrgb hrgba => decode_of_top_run h hrgb hrgba rest, fun count _ hcount =>
    ⟨exec_of_room (i := .run count), exec_of_no_room (i := .run count) (Nat.ne_of_gt hcount.1)⟩⟩

/-! ### The frame of every chunk (R110, R125) -/

/-- Settles O19: a chunk that is done writes one slot and its bytes of OUT; one that overflows writes no slot; and only
reading an absent slot changes ABS or the draw count. -/
theorem chunkFrame : Obligations.ChunkFrame := by
  intro i s t hwf hexec
  have hread : ∀ {α : Type} (f : State → α), f (execRead i s) ≠ f s →
      ∃ idx, i = .index idx ∧ (slotRead s.cache idx).valid = false :=
    fun f hne => index_absent_of_execRead_ne (mt (congrArg f) hne)
  rw [← execCount_eq_pixelCount]
  by_cases hroom : Room s (4 * execCount i)
  · obtain ⟨u, hu, hdone, habs, hdraws⟩ := exec_of_room hroom
    obtain rfl := Host.Outcome.next.inj (hu.symm.trans hexec)
    obtain ⟨hpx, ⟨-, hout⟩, -, hcache, -, hinputs, hresults, hstate, herr, hphase, hi, hrun, hturns⟩ := hdone
    rw [length_copies] at hout
    refine ⟨hinputs, hrun, hi, hphase, hturns, fun k hk => ?_, habs ▸ hread State.absIdx, fun _ =>
      ⟨hresults, hstate, herr, hdraws ▸ hread State.draws, hout⟩⟩
    rw [hcache k, if_neg (hpx ▸ hk)]
  · obtain ⟨u, hu, hraised, habs⟩ := exec_of_no_room (execCount_ne_zero hwf) hroom
    obtain rfl := Host.Outcome.next.inj (hu.symm.trans hexec)
    obtain ⟨-, -, -, -, hinputs, hphase, hi, hrun, -, hcache, hturns⟩ := hraised
    exact ⟨hinputs, hrun, hi, hphase, hturns, fun _ _ => by rw [hcache], habs ▸ hread State.absIdx,
      fun h => absurd h hroom⟩

end Sys2Proof.Machine
end

section
/-! SUPPORT. A DECODE job (42_decoder.md R106-R110, R119-R124): its start step, its chunk and finish steps, and that it ends. -/

namespace Sys2Proof.Machine

/-! ### The start step (R106) -/

/-- R106: a START of a DECODE job that passes the three checks. -/
theorem startDecode_of_good {s : State} (hmin : 22 ≤ s.inLen.toNat) (hcap : s.inLen.toNat ≤ s.cfg.inCap.toNat)
    (hmagic : inBytes s 0 4 = magic) : startDecode s = .more (decoderInit (parseHeader (latchLen s))) := by
  have hparam : ¬s.cfg.inCap < s.inLen := by bv_omega
  have htrunc : ¬s.inLen < 22 := by bv_omega
  have hgood : inBytes (latchLen s) 0 4 = magic := hmagic
  rw [startDecode_eq, if_neg hparam, if_neg htrunc, readHeader, if_pos hgood, Flow.more_andThen]

/-- R30: a CTRL write with START = 1 while no job runs is the start step in the MODE written. -/
theorem step_of_start {s : State} {v : Word} {ts : List Turn} (h : Starts s v ts) :
    step s = (startJob { s with mode := modeOf v, turns := ts }).outcome := by
  obtain ⟨hb, hstart, hturns⟩ := h
  rw [step_hostWrites rfl hturns, csrWrite.eq_def, if_neg hb]
  exact congrArg Flow.outcome (if_pos hstart)

/-- Settles O23: the header is parsed, and then the job is initialized. -/
theorem decodeStartInitializesTheJob : Obligations.DecodeStartInitializesTheJob := by
  intro s v ts hb hstart hdecode hturns hmin hcap hmagic
  have hmode : modeOf v = .decode := if_pos hdecode
  have hgood := startDecode_of_good (s := { s with mode := .decode, turns := ts }) hmin hcap hmagic
  refine ⟨decoderInit (parseHeader (latchLen { s with mode := .decode, turns := ts })), ?_, rfl, rfl, rfl, rfl, rfl, rfl, rfl,
    rfl, rfl, rfl, slotRead_invalidate s, rfl, rfl, rfl, rfl, rfl, rfl, rfl, rfl, rfl, rfl, rfl, rfl, rfl, rfl, rfl, rfl,
    rfl, rfl⟩
  rw [step_of_start ⟨hb, hstart, hturns⟩, hmode]
  exact congrArg Flow.outcome hgood

/-! ### The chunk step and the finish step (R108, R110, R124) -/

/-- R108, R110: the core's turn at a chunk boundary, whatever turns are to come. -/
theorem coreStep_of_decode {s : State} {i : Instr} {rest : List Byte} (hb : s.jobState = .busy) (hm : s.jobMode = .decode)
    (hp : s.phase = .body) (hptr : s.ptr.toNat + 8 < s.len.toNat) (hcap : s.len.toNat ≤ s.cfg.inCap.toNat)
    (hdec : decode (inBytes s s.ptr.toNat 5) = .chunk i rest) : coreStep s = exec i s := by
  have hruns : CoreRuns s (chunkPart i) :=
    .chunk hb hm hp (decide_eq_true hptr) i (fetchChunk_of_decode hdec (by omega) hcap)
  rw [hruns.coreStep_eq, exec_eq_chunkPart]

/-- Settles O20: the step is the core's turn, on the state with that turn taken off. -/
theorem stepRunsTheChunkAtPtr : Obligations.StepRunsTheChunkAtPtr := by
  intro s i rest hat hdec
  refine ⟨step_of_decode hat hdec, fun ts => ?_⟩
  obtain ⟨-, hb, hm, hp, hptr, hcap⟩ := hat
  rw [step_core_listed rfl]
  exact coreStep_of_decode (s := { s with turns := ts }) hb hm hp hptr hcap hdec

/-- R124: the step at ptr ≥ L − 8. -/
theorem step_finishes {s : State} (hturns : s.turns = []) (hb : s.jobState = .busy) (hm : s.jobMode = .decode)
    (hp : s.phase = .body) (hptr : s.len.toNat ≤ s.ptr.toNat + 8) : step s = .next (finishDecode s) := by
  have hruns : CoreRuns s fun s => .more (finishDecode s) := .finish hb hm hp (decide_eq_false (Nat.not_lt.mpr hptr))
  rw [step_core hturns, hruns.coreStep_eq, Flow.more_outcome]

/-- Settles O22: what the finish step assigns. -/
theorem decodeFinishPublishesTheResult : Obligations.DecodeFinishPublishesTheResult :=
  fun _ hturns hb hm hp hptr => ⟨_, BitVec.toNat_udiv, step_finishes hturns hb hm hp hptr⟩

/-! ### A DECODE job ends (R122, R123) -/

/-- How a DECODE job ends: in DONE, or in ERROR by an output overflow. -/
def DecodeEnded (t : State) : Prop := t.jobState = .done ∨ (t.jobState = .error ∧ t.err = .outOverflow)

/-- The job runs on from `s` to `t`, and ptr has moved towards L − 8. -/
structure DecodeAdvances (s t : State) : Prop where
  turns : t.turns = []
  busy : t.jobState = .busy
  mode : t.jobMode = .decode
  due : s.ptr.toNat + 8 < s.len.toNat
  ptr : s.ptr.toNat < t.ptr.toNat
  len : t.len = s.len

/-- R110, R119: a chunk step moves ptr on, or overflows OUT. -/
theorem chunkStep_advances_or_ends {s : State} (hat : AtChunk s) :
    ∃ t, step s = .next t ∧ (DecodeEnded t ∨ DecodeAdvances s t) := by
  obtain ⟨i, -, hwf, -, hstep, -⟩ := everyTagIsRunAsAChunk s hat
  obtain ⟨hturns, hb, hm, -, hdue, -⟩ := hat
  rw [hstep]
  by_cases hroom : Room s (4 * execCount i)
  · obtain ⟨t, hexec, ⟨-, -, -, -, hptr, hinputs, -, hstate, -, -, -, -, hturns'⟩, -⟩ := exec_of_room hroom
    obtain ⟨-, -, -, -, -, -, hmode, hlen, -⟩ := hinputs
    have hpos : 0 < execLength i := execLength_eq i ▸ i.chunkType.byteLength_pos
    have hmax : execLength i ≤ 5 := execLength_eq i ▸ i.chunkType.byteLength_le
    have hmoved : t.ptr.toNat = s.ptr.toNat + execLength i := by
      rw [hptr]
      exact toNat_add_of_le (c := s.len) (by omega)
    exact ⟨t, hexec, .inr ⟨hturns'.trans hturns, hstate.trans hb, hmode.trans hm, hdue, by omega, hlen⟩⟩
  · obtain ⟨t, hexec, ⟨herror, hcode, -⟩, -⟩ := exec_of_no_room (execCount_ne_zero hwf) hroom
    exact ⟨t, hexec, .inl (.inr ⟨herror, hcode⟩)⟩

/-- R108: the step of a running DECODE job is a chunk step or the finish step. -/
theorem State.Inv.decode_advances_or_ends {s : State} (h : s.Inv) (hturns : s.turns = []) (hb : s.jobState = .busy)
    (hm : s.jobMode = .decode) : ∃ t, step s = .next t ∧ (DecodeEnded t ∨ DecodeAdvances s t) := by
  have hp := (h.decode hb hm).phase
  by_cases hdue : s.ptr.toNat + 8 < s.len.toNat
  · exact chunkStep_advances_or_ends ⟨hturns, hb, hm, hp, hdue, (h.busy hb).len_cap⟩
  · exact ⟨_, step_finishes hturns hb hm hp (Nat.not_lt.mp hdue), .inl (.inl rfl)⟩

/-- Settles O25, by induction on the bytes between ptr and L − 8. -/
theorem decodeJobEnds : Obligations.DecodeJobEnds := by
  intro s
  induction hn : s.len.toNat - 8 - s.ptr.toNat using Nat.strong_induction_on generalizing s with
  | _ n ih =>
    intro h hturns hb hm
    obtain ⟨t, hstep, hend | hadv⟩ := h.decode_advances_or_ends hturns hb hm
    · exact ⟨1, t, by omega, run_succ hstep 0, hend⟩
    · have hdue := hadv.due
      have hptr := hadv.ptr
      obtain ⟨k, u, hk, hrun, hend⟩ := ih (t.len.toNat - 8 - t.ptr.toNat) (by rw [hadv.len]; omega) t rfl
        (everyStepKeepsTheInvariant s t h hstep) hadv.turns hadv.busy hadv.mode
      rw [hadv.len] at hk
      exact ⟨k + 1, u, by omega, (run_succ hstep k).trans hrun, hend⟩

end Sys2Proof.Machine
end

section
/-! SUPPORT. The steps of an ENCODE job one by one (43_encoder.md R126-R151): the start step, the pixel step by the room in
OUT, the chunk selected on a miss, and the trailer step. -/

namespace Sys2Proof.Machine

/-! ### The start step (R126, R130) -/

/-- R30: a START with MODE = 0 is the ENCODE start step. -/
theorem step_of_encodeStart {s : State} {v : Word} {ts : List Turn} (h : Starts s v ts) (hencode : v.getLsbD 1 = false) :
    step s = (startEncode { s with mode := .encode, turns := ts }).outcome := by
  have hmode : modeOf v = .encode := if_neg (by rw [hencode]; exact Bool.false_ne_true)
  rw [step_of_start h, hmode]
  rfl

/-- R130: the three checks, of the registers that the start step latches. -/
theorem latched_paramsOk_iff (s : State) :
    paramsOk (latchParams (beginJob s)) = true ↔
      s.inLen.toNat ≤ s.cfg.inCap.toNat ∧ (s.encChannels = 3 ∨ s.encChannels = 4) ∧
        s.inLen.toNat % s.encChannels.toNat = 0 := paramsOk_iff _

theorem startEncode_of_good {s : State} (h : paramsOk (latchParams (beginJob s)) = true) :
    startEncode s = .more (encoderInit (latchParams (beginJob s))) := if_pos h

theorem startEncode_of_bad {s : State} (h : ¬paramsOk (latchParams (beginJob s)) = true) :
    startEncode s = .aborted (raise .param (latchParams (beginJob s))) := if_neg h

/-- R24: L div CH is a 32-bit number. -/
theorem toNat_ofNat_div (l : Word) (c : Byte) :
    (BitVec.ofNat 32 (l.toNat / c.toNat)).toNat = l.toNat / c.toNat := by
  rw [BitVec.toNat_ofNat, Nat.mod_eq_of_lt (Nat.lt_of_le_of_lt (Nat.div_le_self _ _) l.isLt)]

/-- Settles O26: what the start step assigns where the checks pass. -/
theorem encodeStartInitializesTheJob : Obligations.EncodeStartInitializesTheJob := by
  intro s v ts hb hstart hencode hturns hcap hch hmod
  have hgood := startEncode_of_good (s := { s with mode := .encode, turns := ts })
    ((latched_paramsOk_iff _).mpr ⟨hcap, hch, hmod⟩)
  refine ⟨encoderInit (latchParams (beginJob { s with mode := .encode, turns := ts })), ?_, rfl, rfl, rfl, rfl, rfl, rfl,
    rfl, rfl, rfl, toNat_ofNat_div _ _, slotRead_invalidate s, rfl, rfl, rfl, rfl, rfl, rfl, rfl, rfl, rfl, rfl, rfl, rfl,
    rfl, rfl⟩
  rw [step_of_encodeStart ⟨hb, hstart, hturns⟩ hencode, hgood, Flow.more_outcome]

/-- Settles O27: one of the checks does not pass, and the start step raises ERR_PARAM. -/
theorem encodeStartRefusesBadParameters : Obligations.EncodeStartRefusesBadParameters := by
  intro s v ts hstarts hencode hbad
  have hfails : ¬paramsOk (latchParams (beginJob { s with mode := .encode, turns := ts })) = true := by
    rw [latched_paramsOk_iff]
    rintro ⟨hcap, hch, hmod⟩
    rcases hbad with hlong | ⟨h3, h4⟩ | hrest
    · exact Nat.not_lt.mpr hcap hlong
    · exact hch.elim h3 h4
    · exact hrest hmod
  refine ⟨raise .param (latchParams (beginJob { s with mode := .encode, turns := ts })), ?_, rfl, rfl, rfl, rfl, rfl, rfl,
    rfl, rfl, rfl, rfl, rfl, rfl, rfl, rfl, rfl⟩
  rw [step_of_encodeStart hstarts hencode, startEncode_of_bad hfails, Flow.aborted_outcome]

/-! ### The pixel step (R133-R146) -/

/-- R127, R133: the next step is the pixel step for `cur`. -/
theorem coreRuns_pixel {s : State} {cur : Pixel} (hat : AtPixel s) (hfetch : Fetched s cur) :
    CoreRuns s (encodePixel cur) := by
  obtain ⟨-, hb, hm, hp, hi⟩ := hat
  exact .pixel hb hm hp hi cur (fetchPixel_of_fetched hfetch)

/-- Where OUT has room for the chunks of the pixel step, it is done. -/
theorem pixelStep_of_room {s : State} {cur : Pixel} (hat : AtPixel s) (hfetch : Fetched s cur)
    (hroom : Room s ((pixelChunks cur s).flatMap encode).length) :
    ∃ t, step s = .next t ∧ PixelRegisters cur s t ∧ AppendsBytes ((pixelChunks cur s).flatMap encode) s t := by
  obtain ⟨t, hgives, hregs⟩ := encodePixel_gives cur s
  obtain ⟨hstep, happ⟩ := (coreRuns_pixel hat hfetch).step_fits hat.1 hgives hroom
  exact ⟨t, hstep, hregs, happ⟩

/-- A pixel step that emits the bytes `bs`, by the room in OUT. -/
theorem pixelStep_by_room {s : State} {cur : Pixel} {bs : List Byte} (hat : AtPixel s) (hfetch : Fetched s cur)
    (hbytes : (pixelChunks cur s).flatMap encode = bs) (hne : bs ≠ []) :
    (Room s bs.length → ∃ t, step s = .next t ∧ PixelDone s t cur bs ∧ t.run = pixelRun cur s ∧
        t.cache = pixelCache cur s) ∧
      (¬Room s bs.length → Overflows s) := by
  subst hbytes
  constructor
  · intro hroom
    obtain ⟨t, hstep, hregs, happ⟩ := pixelStep_of_room hat hfetch hroom
    obtain ⟨-, hrun, hcache⟩ := hregs.px_run_cache
    exact ⟨t, hstep, pixelDone_of_registers hregs happ, hrun, hcache⟩
  · intro hfull
    obtain ⟨t, hgives, -⟩ := encodePixel_gives cur s
    exact (coreRuns_pixel hat hfetch).step_overflows hat.1 hgives hne hfull

/-- R134: what counting a repeat asks for, in numbers. -/
theorem countsOnly_iff {s : State} (hmax : s.run.toNat ≤ 61) :
    countsOnly s.px s = true ↔ s.run.toNat ≠ 61 ∧ s.i.toNat + 1 ≠ s.n.toNat := by
  have hcap : s.run + 1#6 = 62#6 ↔ s.run.toNat = 61 := by bv_omega
  simp [countsOnly, isLast, hcap]

/-- R134: a repeat that is only counted. -/
theorem encodePixel_counts {s : State} (h : countsOnly s.px s = true) :
    encodePixel s.px s = .more { s with run := s.run + 1, i := s.i + 1 } := by
  obtain ⟨-, hstay⟩ := of_decide_eq_true h
  have hbranch : repeatBranch (isLast s) s = .more { s with run := s.run + 1 } := if_neg hstay
  rw [encodePixel, if_pos rfl, hbranch]
  rfl

/-- Settles O29: the repeat is only counted. -/
theorem repeatedPixelIsOnlyCounted : Obligations.RepeatedPixelIsOnlyCounted := by
  rintro s cur hat hfetch rfl hrun hlast
  have hcounts := (countsOnly_iff (Nat.le_of_lt hrun)).mpr ⟨Nat.ne_of_lt hrun, hlast⟩
  rw [step_core hat.1, (coreRuns_pixel hat hfetch).coreStep_eq, encodePixel_counts hcounts, Flow.more_outcome]

/-- R69, R146: a RUN of one more than a field is packed into that field on top of C0. -/
theorem packRun_eq_ofNat (f : BitVec 6) : packRun (f.toNat + 1) = [BitVec.ofNat 8 (0xC0 + f.toNat)] := by
  revert f; decide

/-- Settles O30: the chunk of the pixel step is the RUN of the copies counted. -/
theorem runIsFlushedAtTheCapOrTheEnd : Obligations.RunIsFlushedAtTheCapOrTheEnd := by
  rintro s cur hat hfetch rfl hmax hflush
  have hcounts : countsOnly s.px s = false := by
    rw [← Bool.not_eq_true, countsOnly_iff hmax]
    exact fun h => hflush.elim h.1 h.2
  have hnext : (s.run + 1).toNat = s.run.toNat + 1 := by bv_omega
  have hbytes : (pixelChunks s.px s).flatMap encode = [BitVec.ofNat 8 (0xC0 + s.run.toNat)] := by
    rw [pixelChunks, if_pos rfl, hcounts, if_neg Bool.false_ne_true, List.flatMap_singleton, encode, hnext,
      packRun_eq_ofNat]
  have hrun : pixelRun s.px s = 0 := by rw [pixelRun, hcounts]; rfl
  have hcache : pixelCache s.px s = s.cache := if_pos (.inl rfl)
  have hroom := pixelStep_by_room hat hfetch hbytes (List.cons_ne_nil _ _)
  rwa [hrun, hcache] at hroom

/-- R137: the bytes of the pending run's chunk. -/
theorem flatMap_pendingChunks (s : State) : (pendingChunks s).flatMap encode = pendingRun s := by
  unfold pendingChunks pendingRun
  split_ifs
  · rfl
  · exact List.flatMap_singleton _ _

/-- R137, R138: the bytes of a pixel that differs from PX. -/
theorem flatMap_pixelChunks_of_ne {cur : Pixel} {s : State} (hne : cur ≠ s.px) :
    (pixelChunks cur s).flatMap encode = pendingRun s ++ encode (lookupChunk cur s) := by
  rw [pixelChunks, if_neg hne, List.flatMap_append, List.flatMap_singleton, flatMap_pendingChunks]

/-- R137: after a pixel that differs from PX no run is pending. -/
theorem pixelRun_of_ne {cur : Pixel} {s : State} (hne : cur ≠ s.px) : pixelRun cur s = 0 :=
  if_neg (by simp [countsOnly, hne])

/-- A chunk has bytes, so what ends with one is not empty. -/
theorem append_encode_ne_nil (bs : List Byte) (i : Instr) : bs ++ encode i ≠ [] := by
  have hpos := (length_encode i).1
  exact List.append_ne_nil_of_right_ne_nil _ (List.ne_nil_of_length_pos hpos)

/-- Settles O31: on a hit the chunk looked up is the INDEX of the hash. -/
theorem cachedPixelIsEmittedAsIndex : Obligations.CachedPixelIsEmittedAsIndex := by
  intro s cur hat hfetch hne hhit
  have hlookup : lookupChunk cur s = .index (pixelHash cur) := if_pos hhit
  have hcache : pixelCache cur s = s.cache := if_pos (.inr hhit)
  have hroom := pixelStep_by_room hat hfetch (flatMap_pixelChunks_of_ne hne) (append_encode_ne_nil _ _)
  rwa [hlookup, pixelRun_of_ne hne, hcache, List.length_append] at hroom

/-- Settles O32: on a miss it is the selected chunk, and the slot is written. -/
theorem missedPixelIsCachedAndEncoded : Obligations.MissedPixelIsCachedAndEncoded := by
  intro s cur hat hfetch hne hmiss
  have hlookup : lookupChunk cur s = selectChunk cur s.px := if_neg (by rw [hmiss]; exact Bool.false_ne_true)
  obtain ⟨hroom, hfull⟩ := pixelStep_by_room hat hfetch (flatMap_pixelChunks_of_ne hne) (append_encode_ne_nil _ _)
  rw [hlookup, List.length_append] at hroom hfull
  refine ⟨fun h => ?_, hfull⟩
  obtain ⟨t, hstep, hdone, hrun, hcache⟩ := hroom h
  exact ⟨t, hstep, hdone, hrun.trans (pixelRun_of_ne hne), fun k => by rw [hcache]; exact slotRead_pixelCache hne k⟩

/-! ### The selected chunk (R139, R140) -/

/-- R139: the delta is the one signed 8-bit number that is the difference mod 256. -/
theorem channelDelta_eq {cur prev : Byte} {d : Int} (hlo : -128 ≤ d) (hhi : d ≤ 127)
    (hmod : ((cur.toNat : Int) - prev.toNat - d) % 256 = 0) : channelDelta cur prev = d := by
  rw [channelDelta, s8, BitVec.toInt_ofInt, Int.bmod_def]
  omega

/-- R140's tests as ranges. -/
theorem fitsDiff_iff (d : Deltas) :
    fitsDiff d = true ↔ d.dA = 0 ∧ (-2 ≤ d.dR ∧ d.dR ≤ 1) ∧ (-2 ≤ d.dG ∧ d.dG ≤ 1) ∧ (-2 ≤ d.dB ∧ d.dB ≤ 1) := by
  simp only [fitsDiff, Bool.and_eq_true, decide_eq_true_eq, inRange_iff, and_assoc]

theorem fitsLuma_iff (d : Deltas) :
    fitsLuma d = true ↔ d.dA = 0 ∧ (-32 ≤ d.dG ∧ d.dG ≤ 31) ∧ (-8 ≤ d.dR - d.dG ∧ d.dR - d.dG ≤ 7) ∧
      (-8 ≤ d.dB - d.dG ∧ d.dB - d.dG ≤ 7) := by
  simp only [fitsLuma, Bool.and_eq_true, decide_eq_true_eq, inRange_iff, and_assoc]

/-- Settles O33: the deltas are the numbers given, and the tests are the ranges. -/
theorem selectionFollowsThePriorityOrder : Obligations.SelectionFollowsThePriorityOrder := by
  intro cur prev dR dG dB dA hrange hr hg hb ha
  obtain ⟨⟨hrlo, hrhi⟩, ⟨hglo, hghi⟩, ⟨hblo, hbhi⟩, halo, hahi⟩ :
      (-128 ≤ dR ∧ dR ≤ 127) ∧ (-128 ≤ dG ∧ dG ≤ 127) ∧ (-128 ≤ dB ∧ dB ≤ 127) ∧ -128 ≤ dA ∧ dA ≤ 127 := by
    simpa using hrange
  have hdeltas : deltas cur prev = ⟨dR, dG, dB, dA⟩ := by
    rw [deltas, channelDelta_eq hrlo hrhi hr, channelDelta_eq hglo hghi hg, channelDelta_eq hblo hbhi hb,
      channelDelta_eq halo hahi ha]
  simp only [selectChunk, hdeltas, fitsDiff_iff, fitsLuma_iff]

/-- R13, R139: the delta from a channel to its sum with a signed 8-bit number is that number. -/
theorem channelDelta_addChannel {prev : Byte} {d : Int} (hlo : -128 ≤ d) (hhi : d ≤ 127) :
    channelDelta (addChannel prev d) prev = d := by
  have hsum := addChannel_toNat prev d
  exact channelDelta_eq hlo hhi (by omega)

/-- A channel that stays has delta 0. -/
theorem channelDelta_self (c : Byte) : channelDelta c c = 0 := channelDelta_eq (by decide) (by decide) (by simp)

/-- R140: a DIFF is selected wherever one gives the pixel. -/
theorem length_selectChunk_of_diff {dR dG dB : Int} (hwf : (Instr.diff dR dG dB).wellFormed = true) (prev : Pixel) :
    (encode (selectChunk (applyDiff dR dG dB prev) prev)).length = 1 := by
  simp only [Instr.wellFormed, Bool.and_eq_true, inRange_iff] at hwf
  obtain ⟨⟨⟨hr, hr'⟩, hg, hg'⟩, hb, hb'⟩ := hwf
  have hdeltas : deltas (applyDiff dR dG dB prev) prev = ⟨dR, dG, dB, 0⟩ := by
    simp (disch := omega) only [deltas, applyDiff, channelDelta_addChannel, channelDelta_self]
  have hfits : fitsDiff ⟨dR, dG, dB, 0⟩ = true := (fitsDiff_iff _).mpr ⟨rfl, ⟨hr, hr'⟩, ⟨hg, hg'⟩, hb, hb'⟩
  simp only [selectChunk, hdeltas, hfits, if_true]
  rfl

/-- R140: a DIFF or a LUMA is selected wherever a LUMA gives the pixel. -/
theorem length_selectChunk_of_luma {dG dRG dBG : Int} (hwf : (Instr.luma dG dRG dBG).wellFormed = true) (prev : Pixel) :
    (encode (selectChunk (applyLuma dG dRG dBG prev) prev)).length ≤ 2 := by
  simp only [Instr.wellFormed, Bool.and_eq_true, inRange_iff] at hwf
  obtain ⟨⟨⟨hg, hg'⟩, hr, hr'⟩, hb, hb'⟩ := hwf
  have hdeltas : deltas (applyLuma dG dRG dBG prev) prev = ⟨dG + dRG, dG, dG + dBG, 0⟩ := by
    simp (disch := omega) only [deltas, applyLuma, channelDelta_addChannel, channelDelta_self]
  have hfits : fitsLuma ⟨dG + dRG, dG, dG + dBG, 0⟩ = true := by
    simp only [fitsLuma_iff, add_sub_cancel_left]
    exact ⟨trivial, ⟨hg, hg'⟩, ⟨hr, hr'⟩, hb, hb'⟩
  simp only [selectChunk, hdeltas, hfits, if_true]
  split_ifs
  · exact Nat.le_succ 1
  · exact Nat.le_refl 2

/-- R140: RGBA is selected only where alpha changes. -/
theorem selectChunk_ne_rgba {cur prev : Pixel} (halpha : cur.a = prev.a) (r g b a : Byte) :
    selectChunk cur prev ≠ .rgba r g b a := by
  have hkeep : (deltas cur prev).dA = 0 := by rw [deltas, halpha, channelDelta_self]
  unfold selectChunk
  dsimp only
  rw [if_pos hkeep]
  split_ifs <;> exact nofun

/-- Where alpha stays the selected chunk has at most 4 bytes. -/
theorem length_selectChunk_of_alpha {cur prev : Pixel} (halpha : cur.a = prev.a) :
    (encode (selectChunk cur prev)).length ≤ 4 := by
  have hne := selectChunk_ne_rgba halpha
  cases h : selectChunk cur prev with
  | rgba r g b a => exact absurd h (hne r g b a)
  | index | diff | luma | run | rgb => simp [encode, packIndex, packDiff, packLuma, packRun, packRgb]

/-- Settles O34: the chunk rebuilds the pixel, and each type that does was tried before the longer ones. -/
theorem selectedChunkRebuildsThePixelAndIsTheShortest :
    Obligations.SelectedChunkRebuildsThePixelAndIsTheShortest := by
  refine fun cur prev slot => ⟨selectChunk_wellFormed cur prev, chunkPixel_selectChunk cur prev slot, ?_⟩
  rintro i hwf hindex hrun rfl
  cases i with
  | index idx => exact absurd rfl hindex
  | run count => exact absurd rfl hrun
  | diff dR dG dB => exact (length_selectChunk_of_diff hwf prev).le
  | luma dG dRG dBG => exact length_selectChunk_of_luma hwf prev
  | rgb r g b => exact length_selectChunk_of_alpha rfl
  | rgba r g b a => exact (length_encode _).2

/-- Settles O35: in RGB mode PX and the pixel fetched have alpha 255. -/
theorem rgbModeNeverSelectsRgba : Obligations.RgbModeNeverSelectsRgba := by
  intro s cur hinv hat hch hfetch
  obtain ⟨-, hb, hm, -, -⟩ := hat
  obtain ⟨-, -, -, rfl⟩ := hfetch
  have hpx := (hinv.encode hb hm).alpha hch
  rw [hch]
  exact selectChunk_ne_rgba ((inputPixel_alpha s _).trans hpx.symm)

/-! ### The trailer step (R151) -/

/-- Settles O36: the end marker is 8 bytes, and the step publishes the result where they fit. -/
theorem trailStepPublishesTheStream : Obligations.TrailStepPublishesTheStream := by
  intro s hturns hb hm hp hi
  have hruns : CoreRuns s trailStep := .trail hb hm hp hi
  constructor
  · intro hroom
    obtain ⟨hstep, happ⟩ := hruns.step_fits hturns (trailStep_gives s) hroom
    exact ⟨_, _, hstep, rfl, happ.outGets⟩
  · exact hruns.step_overflows hturns (trailStep_gives s) (List.cons_ne_nil _ _)

end Sys2Proof.Machine
end

section
/-! SUPPORT. An ENCODE job does not depend on CACHE_FILL (43_encoder.md R148, 40_pixel_cache.md R87): no part of it reads the
data field of an absent slot. -/

namespace Sys2Proof.Machine

/-! ### Machines that differ in CACHE_FILL and in absent slots -/

/-- The machine with another CACHE_FILL and another cache. -/
def State.withFill (fill : Pixel) (c : Cache) (s : State) : State :=
  { s with cfg := { s.cfg with cacheFill := fill }, cache := c }

/-- A cache with the same valid slots, and the same pixels in them. -/
def CacheAgrees (c c' : Cache) : Prop :=
  ∀ k, (slotRead c' k).valid = (slotRead c k).valid ∧
    ((slotRead c k).valid = true → (slotRead c' k).px = (slotRead c k).px)

theorem sameButFill_withFill {fill : Pixel} {c : Cache} {s : State} (h : CacheAgrees s.cache c) :
    SameButFill s (s.withFill fill c) := ⟨⟨fill, c, rfl⟩, h⟩

theorem SameButFill.exists_withFill {s t : State} (h : SameButFill s t) :
    ∃ fill c, t = s.withFill fill c ∧ CacheAgrees s.cache c := by
  obtain ⟨⟨fill, c, rfl⟩, hc⟩ := h
  exact ⟨fill, c, rfl, hc⟩

/-- R87: only a valid slot can hit. -/
theorem CacheAgrees.hit_eq {c c' : Cache} (h : CacheAgrees c c') (p : Pixel) : hit c' p = hit c p := by
  obtain ⟨hvalid, hpx⟩ := h (pixelHash p)
  cases hv : (slotRead c (pixelHash p)).valid with
  | true => simp only [hit, hvalid, hv, hpx hv]
  | false => rw [hit_false_of_absent hv, hit_false_of_absent (hvalid.trans hv)]

/-- R89: the same slot written. -/
theorem CacheAgrees.slotSet {c c' : Cache} (h : CacheAgrees c c') (k : BitVec 6) (v : Slot) :
    CacheAgrees (slotSet c k v) (slotSet c' k v) := by
  intro j
  rw [slotRead_slotSet, slotRead_slotSet]
  split_ifs
  · exact ⟨rfl, fun _ => rfl⟩
  · exact h j

/-- R91: two empty caches. -/
theorem cacheAgrees_absent (fill fill' : Pixel) : CacheAgrees (Cache.absent fill) (Cache.absent fill') := by
  intro k
  rw [slotRead_absent, slotRead_absent]
  exact ⟨rfl, fun h => absurd h Bool.false_ne_true⟩

/-! ### Parts of a step that take such machines to such machines -/

/-- Two parts end alike, in machines that differ only so. -/
def Flow.SameButFill : Flow → Flow → Prop
  | .more s, .more t => Machine.SameButFill s t
  | .aborted s, .aborted t => Machine.SameButFill s t
  | .faulted r, .faulted r' => r = r'
  | _, _ => False

theorem Flow.SameButFill.next {f f' : Flow} {s : State} (h : f.SameButFill f') (hs : f.outcome = .next s) :
    ∃ t, f'.outcome = .next t ∧ Machine.SameButFill s t := by
  rcases Flow.outcome_eq_next hs with rfl | rfl
  · cases f' with
    | more t => exact ⟨t, rfl, h⟩
    | aborted t | faulted r => exact h.elim
  · cases f' with
    | aborted t => exact ⟨t, rfl, h⟩
    | more t | faulted r => exact h.elim

/-- A part of a core step that does not depend on CACHE_FILL. -/
def IgnoresFill (f : State → Flow) : Prop := ∀ s t, SameButFill s t → (f s).SameButFill (f t)

theorem Flow.SameButFill.andThen {f f' : Flow} {g : State → Flow} (h : f.SameButFill f') (hg : IgnoresFill g) :
    (f.andThen g).SameButFill (f'.andThen g) := by
  cases f with
  | more s => cases f' with
    | more t => exact hg s t h
    | aborted t | faulted r => exact h.elim
  | aborted s => cases f' with
    | aborted t => exact h
    | more t | faulted r => exact h.elim
  | faulted r => cases f' with
    | faulted r' => exact h
    | more t | aborted t => exact h.elim

/-- One part after another. -/
theorem IgnoresFill.seq {f g : State → Flow} (hf : IgnoresFill f) (hg : IgnoresFill g) :
    IgnoresFill fun s => (f s).andThen g := fun s t h => (hf s t h).andThen hg

/-- A choice between two parts by a test that such machines answer alike. -/
theorem IgnoresFill.ite {p : State → Prop} [DecidablePred p]
    (hp : ∀ fill c s, CacheAgrees s.cache c → (p (s.withFill fill c) ↔ p s)) {f g : State → Flow} (hf : IgnoresFill f)
    (hg : IgnoresFill g) : IgnoresFill fun s => if p s then f s else g s := by
  intro s t h
  have hsame : p t ↔ p s := by
    obtain ⟨fill, c, rfl, hc⟩ := h.exists_withFill
    exact hp fill c s hc
  by_cases hs : p s
  · simpa only [hsame, hs, if_true] using hf s t h
  · simpa only [hsame, hs, if_false] using hg s t h

/-- A change of registers that neither reads nor writes the cache. -/
theorem SameButFill.update {u : State → State} (hu : ∀ fill c s, u (s.withFill fill c) = (u s).withFill fill c)
    (hcache : ∀ s, (u s).cache = s.cache) {s t : State} (h : SameButFill s t) : SameButFill (u s) (u t) := by
  obtain ⟨fill, c, rfl, hc⟩ := h.exists_withFill
  rw [hu]
  exact sameButFill_withFill (by rwa [hcache])

theorem IgnoresFill.update {u : State → State} (hu : ∀ fill c s, u (s.withFill fill c) = (u s).withFill fill c)
    (hcache : ∀ s, (u s).cache = s.cache) : IgnoresFill fun s => .more (u s) :=
  fun _ _ h => SameButFill.update hu hcache h

/-- Emit of one byte. -/
theorem ignoresFill_emit (b : Byte) : IgnoresFill (emit b) :=
  .ite (fun _ _ _ _ => Iff.rfl)
    (fun _ _ h => SameButFill.update (u := raise .outOverflow) (fun _ _ _ => rfl) (fun _ => rfl) h)
    (.update (fun _ _ _ => rfl) fun _ => rfl)

theorem ignoresFill_emits (bs : List Byte) : IgnoresFill (emits bs) := by
  induction bs with
  | nil => exact .update (u := id) (fun _ _ _ => rfl) fun _ => rfl
  | cons b bs ih => exact .seq (ignoresFill_emit b) ih

/-- Emit of bytes that depend neither on CACHE_FILL nor on the cache. -/
theorem IgnoresFill.emits {bs : State → List Byte} (hbs : ∀ fill c s, bs (s.withFill fill c) = bs s) :
    IgnoresFill fun s => emits (bs s) s := by
  intro s t h
  have hsame : bs t = bs s := by
    obtain ⟨fill, c, rfl, -⟩ := h.exists_withFill
    exact hbs fill c s
  dsimp only
  rw [hsame]
  exact ignoresFill_emits (bs s) s t h

/-- R89: slot_write writes the same slot. -/
theorem SameButFill.slotWrite {s t : State} (h : SameButFill s t) (p : Pixel) :
    SameButFill (slotWrite p s) (slotWrite p t) := by
  obtain ⟨fill, c, rfl, hc⟩ := h.exists_withFill
  exact sameButFill_withFill (s := Machine.slotWrite p s) (hc.slotSet _ _)

/-! ### The parts of an ENCODE job -/

theorem headerStep_ignoresFill : IgnoresFill headerStep :=
  .seq (.emits fun _ _ _ => rfl) (.update (fun _ _ _ => rfl) fun _ => rfl)

theorem flushRun_ignoresFill : IgnoresFill flushRun :=
  .seq (.emits fun _ _ _ => rfl) (.update (fun _ _ _ => rfl) fun _ => rfl)

theorem repeatBranch_ignoresFill : IgnoresFill fun s => repeatBranch (isLast s) s :=
  .seq (f := fun s => .more { s with run := s.run + 1 })
    (g := fun s => if s.run = 62 ∨ isLast s = true then flushRun s else .more s)
    (.update (fun _ _ _ => rfl) fun _ => rfl)
    (.ite (fun _ _ _ _ => Iff.rfl) flushRun_ignoresFill (.update (u := id) (fun _ _ _ => rfl) fun _ => rfl))

theorem lookupBranch_ignoresFill (cur : Pixel) : IgnoresFill (lookupBranch cur) := by
  have hmiss : IgnoresFill fun s => emitSelected cur s.px (slotWrite cur s) := by
    simp only [emitSelected_eq]
    exact .seq (f := fun s => .more (slotWrite cur s)) (g := fun s => emits (encode (selectChunk cur s.px)) s)
      (fun s t h => h.slotWrite cur) (.emits fun _ _ _ => rfl)
  exact .ite (fun _ _ _ hc => iff_of_eq (congrArg (· = true) (hc.hit_eq cur))) (.emits fun _ _ _ => rfl) hmiss

theorem differBranch_ignoresFill (cur : Pixel) : IgnoresFill (differBranch cur) :=
  .seq (.ite (fun _ _ _ _ => Iff.rfl) (.update (u := id) (fun _ _ _ => rfl) fun _ => rfl) flushRun_ignoresFill)
    (lookupBranch_ignoresFill cur)

theorem encodePixel_ignoresFill (cur : Pixel) : IgnoresFill (encodePixel cur) :=
  .seq (.ite (fun _ _ _ _ => Iff.rfl) repeatBranch_ignoresFill (differBranch_ignoresFill cur))
    (.update (fun _ _ _ => rfl) fun _ => rfl)

theorem trailStep_ignoresFill : IgnoresFill trailStep :=
  .seq (f := fun s => writeEnd { s with phase := .trail })
    (.seq (f := fun s => .more { s with phase := .trail }) (.update (fun _ _ _ => rfl) fun _ => rfl)
      (.emits fun _ _ _ => rfl))
    (.update (fun _ _ _ => rfl) fun _ => rfl)

/-! ### A step of an ENCODE job -/

/-- Where IN holds the same bytes a read gives the same. -/
theorem inBytes_congr {s t : State} (h : ∀ a, inByte t a = inByte s a) (off k : Nat) :
    inBytes t off k = inBytes s off k := by
  induction k generalizing off with
  | zero => rfl
  | succ k ih => rw [inBytes, inBytes, h, ih]

theorem fetchPixel_withFill (fill : Pixel) (c : Cache) (s : State) : fetchPixel (s.withFill fill c) = fetchPixel s := by
  have hread : memRead (s.withFill fill c) = memRead s := by
    funext off k
    have hbytes : inBytes (s.withFill fill c) off k = inBytes s off k :=
      inBytes_congr (s := s) (t := s.withFill fill c) (fun _ => rfl) off k
    rw [memRead_eq, memRead_eq, hbytes]
    rfl
  unfold fetchPixel
  rw [hread]
  rfl

/-- The next step of an ENCODE job is the same part, and does not depend on CACHE_FILL. -/
theorem CoreRuns.encode_ignoresFill {s : State} {f : State → Flow} (h : CoreRuns s f) (hencode : s.jobMode = .encode)
    (fill : Pixel) (c : Cache) : CoreRuns (s.withFill fill c) f ∧ IgnoresFill f := by
  cases h with
  | header hb hm hp => exact ⟨.header hb hm hp, headerStep_ignoresFill⟩
  | pixel hb hm hp hi cur hcur =>
    exact ⟨.pixel (s := s.withFill fill c) hb hm hp hi cur ((fetchPixel_withFill fill c s).trans hcur),
      encodePixel_ignoresFill cur⟩
  | trail hb hm hp hi => exact ⟨.trail hb hm hp hi, trailStep_ignoresFill⟩
  | chunk _ hm | finish _ hm => exact absurd (hencode.symm.trans hm) (by decide)

/-- R91, R126: the start step checks neither, and leaves an empty cache. -/
theorem startEncode_ignoresFill : IgnoresFill startEncode := by
  refine .ite (fun _ _ _ _ => Iff.rfl) (fun s t h => ?_) fun s t h => ?_ <;> obtain ⟨fill, c, rfl, hc⟩ := h.exists_withFill
  · exact sameButFill_withFill (s := encoderInit (latchParams (beginJob s))) (cacheAgrees_absent s.cfg.cacheFill fill)
  · exact sameButFill_withFill (s := raise .param (latchParams (beginJob s))) hc

/-- Settles O38: each part of an ENCODE job, and its start step, ignores CACHE_FILL. -/
theorem encoderIgnoresCacheFill : Obligations.EncoderIgnoresCacheFill := by
  refine fun s t s' hst => ⟨fun hb hm hstep => ?_, fun v ts hstarts hencode hstep => ?_⟩
  · obtain ⟨f, hruns⟩ := coreRuns_of_coreStep hb hstep
    obtain ⟨fill, c, rfl, -⟩ := hst.exists_withFill
    obtain ⟨hruns', hignores⟩ := hruns.encode_ignoresFill hm fill c
    rw [hruns'.coreStep_eq]
    exact (hignores _ _ hst).next (hruns.coreStep_eq ▸ hstep)
  · have hlatched := hst.update (u := fun s => { s with mode := .encode, turns := ts }) (fun _ _ _ => rfl) fun _ => rfl
    have hstarts' : Starts t v ts := by
      obtain ⟨fill, c, rfl, -⟩ := hst.exists_withFill
      exact hstarts
    rw [step_of_encodeStart hstarts hencode] at hstep
    rw [step_of_encodeStart hstarts' hencode]
    exact (startEncode_ignoresFill _ _ hlatched).next hstep

end Sys2Proof.Machine
end

section
/-! SUPPORT. An ENCODE job from its start to DONE (43_encoder.md R126-R152): its steps between pixels, how many there are,
and how much they write. -/

namespace Sys2Proof.Machine

/-! ### Between the steps -/

/-- Runs one after another. -/
theorem run_add {k : Nat} {s u : State} (h : Host.Core.run Sys2Proof.core k s = .next u) (m : Nat) :
    Host.Core.run Sys2Proof.core (k + m) s = Host.Core.run Sys2Proof.core m u := by
  induction k generalizing s with
  | zero =>
    obtain rfl := Host.Outcome.next.inj h
    rw [Nat.zero_add]
  | succ k ih =>
    obtain ⟨v, hv, hrest⟩ := run_succ_eq_next h
    rw [Nat.add_right_comm, run_succ hv, ih hrest]

/-- With the host silent a run goes no further than a state in which no job runs. -/
theorem run_ended {k : Nat} {s u t : State} (hstep : step s = .next u)
    (hrun : Host.Core.run Sys2Proof.core (k + 1) s = .next t) (hb : u.jobState ≠ .busy) (hturns : u.turns = []) : t = u := by
  rw [run_succ hstep] at hrun
  exact run_idle hb hturns hrun

/-- An ENCODE job in BODY, with the host silent: the part of the invariant that its steps rest on. -/
structure PixelBoundary (s : State) : Prop where
  turns : s.turns = []
  busy : s.jobState = .busy
  mode : s.jobMode = .encode
  phase : s.phase = .body
  len_cap : s.len.toNat ≤ s.cfg.inCap.toNat
  job : EncodeInv s
  cached : pxCached s

theorem State.Inv.pixelBoundary {s : State} (h : s.Inv) (hturns : s.turns = []) (hb : s.jobState = .busy)
    (hm : s.jobMode = .encode) (hp : s.phase = .body) : PixelBoundary s :=
  ⟨hturns, hb, hm, hp, (h.busy hb).len_cap, h.encode hb hm, (h.busy hb).cached⟩

/-- R132: the pixel at index i. -/
def currentPixel (s : State) : Pixel := inputPixel s s.ch s.i.toNat

theorem PixelBoundary.atPixel {s : State} (h : PixelBoundary s) (hi : s.i.toNat < s.n.toNat) : AtPixel s :=
  ⟨h.turns, h.busy, h.mode, h.phase, hi⟩

/-- R46: the pixel at i < N exists in IN. -/
theorem PixelBoundary.fetched {s : State} (h : PixelBoundary s) (hi : s.i.toNat < s.n.toNat) :
    Fetched s (currentPixel s) := by
  refine ⟨h.job.channels, ?_, h.len_cap, rfl⟩
  rw [← h.job.pixels]
  exact Nat.mul_le_mul_right _ hi

/-- R128: a pixel step goes from i to i + 1. -/
theorem PixelRegisters.i_n {cur : Pixel} {s t : State} (h : PixelRegisters cur s t) : t.i = s.i + 1 ∧ t.n = s.n := by
  obtain ⟨m, o, rfl⟩ := h
  exact ⟨rfl, rfl⟩

theorem PixelRegisters.sameInputs {cur : Pixel} {s t : State} (h : PixelRegisters cur s t) : SameInputs s t := by
  obtain ⟨m, o, rfl⟩ := h
  exact .refl s

/-- A pixel step that is done leads to the next boundary. -/
theorem PixelBoundary.pixel {s t : State} (h : PixelBoundary s) (hi : s.i.toNat < s.n.toNat)
    (hregs : PixelRegisters (currentPixel s) s t)
    (happ : AppendsBytes ((pixelChunks (currentPixel s) s).flatMap encode) s t) : PixelBoundary t := by
  have halpha : s.ch = 3 → (currentPixel s).a = 255 := by
    intro hch
    rw [currentPixel, hch]
    exact inputPixel_alpha s _
  have hjob := h.job.pixel h.phase hi halpha hregs happ
  have hcached := pxCached_of_registers h.cached hregs
  obtain ⟨m, o, rfl⟩ := hregs
  exact ⟨h.turns, h.busy, h.mode, h.phase, h.len_cap, hjob, hcached⟩

/-- R152: what has been written by pixel i. -/
theorem PixelBoundary.o_bounds {s : State} (h : PixelBoundary s) :
    14 ≤ s.o.toNat ∧ s.o.toNat ≤ 14 + 5 * (s.i.toNat - s.run.toNat) ∧ (s.run.toNat < s.i.toNat → 15 ≤ s.o.toNat) := by
  rcases h.job.place with ⟨hhdr, -⟩ | ⟨-, hplace⟩
  · exact absurd (hhdr.symm.trans h.phase) (by decide)
  · exact hplace

/-! ### N + 2 steps (R127, R152) -/

/-- R152: with OUT_CAP ≥ 14 + 5N no pixel step overflows. -/
theorem PixelBoundary.room_of_cap {s : State} (h : PixelBoundary s) (hi : s.i.toNat < s.n.toNat)
    (hcap : 14 + 5 * s.n.toNat ≤ s.cfg.outCap.toNat) (cur : Pixel) :
    Room s ((pixelChunks cur s).flatMap encode).length := by
  obtain ⟨-, ho, -⟩ := h.o_bounds
  have hrun := h.job.run_index
  have hlen : ((pixelChunks cur s).flatMap encode).length ≤ 5 * (s.run.toNat + 1) := by
    rcases pixelStep_size (cur := cur) h.job.run_max with ⟨-, -, -, hnone⟩ | ⟨-, -, hle⟩
    · rw [hnone]
      exact Nat.zero_le _
    · exact hle
  unfold Room
  omega

/-- As many pixel steps as there are pixels left, or fewer. -/
theorem PixelBoundary.run_pixels {s : State} (h : PixelBoundary s) (hcap : 14 + 5 * s.n.toNat ≤ s.cfg.outCap.toNat) {k : Nat}
    (hk : s.i.toNat + k ≤ s.n.toNat) :
    ∃ u, Host.Core.run Sys2Proof.core k s = .next u ∧ PixelBoundary u ∧ u.i.toNat = s.i.toNat + k ∧ u.n = s.n ∧
      u.cfg = s.cfg := by
  induction k generalizing s with
  | zero => exact ⟨s, rfl, h, rfl, rfl, rfl⟩
  | succ k ih =>
    have hi : s.i.toNat < s.n.toNat := by omega
    obtain ⟨t, hstep, hregs, happ⟩ := pixelStep_of_room (h.atPixel hi) (h.fetched hi) (h.room_of_cap hi hcap _)
    obtain ⟨hti, htn⟩ := hregs.i_n
    have hnext : t.i.toNat = s.i.toNat + 1 := by
      rw [hti]
      exact toNat_add_of_le (k := 1) (c := s.n) hi
    obtain ⟨u, hrun, hu, hui, hun, hucfg⟩ := ih (h.pixel hi hregs happ) (by rw [htn, happ.cfg]; exact hcap)
      (by rw [hnext, htn]; omega)
    exact ⟨u, (run_succ hstep k).trans hrun, hu, by omega, hun.trans htn, hucfg.trans happ.cfg⟩

/-- R151: the TRAIL step, where the end marker fits. -/
theorem PixelBoundary.step_trail {s : State} (h : PixelBoundary s) (hi : s.i = s.n) (hroom : Room s 8) :
    ∃ t, step s = .next t ∧ t.jobState = .done ∧ t.pixCount = s.n ∧ t.outLen.toNat = s.o.toNat + 8 := by
  obtain ⟨hstep, happ⟩ := (CoreRuns.trail h.busy h.mode h.phase hi).step_fits h.turns (trailStep_gives s) hroom
  exact ⟨_, hstep, rfl, rfl, happ.o⟩

/-- R131: the HDR step, where the header fits. -/
theorem State.Inv.step_header {s : State} (h : s.Inv) (hturns : s.turns = []) (hb : s.jobState = .busy)
    (hm : s.jobMode = .encode) (hp : s.phase = .hdr) (hcap : 14 ≤ s.cfg.outCap.toNat) :
    ∃ t, step s = .next t ∧ PixelBoundary t ∧ t.i = 0 ∧ t.n = s.n ∧ t.cfg = s.cfg := by
  obtain ⟨hi, ho⟩ : s.i = 0 ∧ s.o = 0 := by
    rcases (h.encode hb hm).place with ⟨-, hi, -, ho⟩ | ⟨hbody, -⟩
    · exact ⟨hi, ho⟩
    · exact absurd (hbody.symm.trans hp) (by decide)
  have hroom : Room s (headerBytes s.wid s.hgt s.ch 0x00).length := by
    rw [Room, ho, length_headerBytes]
    exact hcap
  obtain ⟨hstep, -⟩ := (CoreRuns.header hb hm hp).step_fits hturns (headerStep_gives s) hroom
  exact ⟨_, hstep, (everyStepKeepsTheInvariant _ _ h hstep).pixelBoundary hturns hb hm rfl, hi, rfl, rfl⟩

/-- Settles O37: the HDR step, N pixel steps and the TRAIL step. -/
theorem encodeJobTakesNPlusTwoSteps : Obligations.EncodeJobTakesNPlusTwoSteps := by
  intro s h hturns hb hm hp hcap
  obtain ⟨e, hheader, he, hi, hn, hcfg⟩ := h.step_header hturns hb hm hp (by omega)
  have hi0 : e.i.toNat = 0 := by rw [hi]; rfl
  have hpixels : ∀ k, k ≤ s.n.toNat → ∃ u, Host.Core.run Sys2Proof.core (k + 1) s = .next u ∧ PixelBoundary u ∧
      u.i.toNat = k ∧ u.n = s.n ∧ u.cfg = s.cfg := by
    intro k hk
    obtain ⟨u, hrun, hu, hui, hun, hucfg⟩ := he.run_pixels (k := k) (by rw [hn, hcfg]; omega) (by rw [hn]; omega)
    exact ⟨u, (run_succ hheader k).trans hrun, hu, by omega, hun.trans hn, hucfg.trans hcfg⟩
  constructor
  · intro k hk
    cases k with
    | zero => exact ⟨s, rfl, hb⟩
    | succ k =>
      obtain ⟨u, hrun, hu, -⟩ := hpixels k (by omega)
      exact ⟨u, hrun, hu.busy⟩
  · obtain ⟨u, hrun, hu, hui, hun, hucfg⟩ := hpixels s.n.toNat (Nat.le_refl _)
    have hlast : u.i = u.n := BitVec.eq_of_toNat_eq (by rw [hui, hun])
    have hrun0 : u.run.toNat = 0 := by rw [hu.job.run_end hlast]; rfl
    obtain ⟨hlo, hhi, hpos⟩ := hu.o_bounds
    have hroom : Room u 8 := by
      unfold Room
      rw [hucfg]
      omega
    obtain ⟨t, htrail, hdone, hcount, hlen⟩ := hu.step_trail hlast hroom
    exact ⟨t, (run_add hrun 1).trans (run_succ htrail 0), hdone, hcount.trans hun, by omega, by omega, by omega⟩

end Sys2Proof.Machine
end

section
/-! SUPPORT. The chunks that an ENCODE job emits decode to its pixels (40_pixel_cache.md R94, 43_encoder.md R147-R149): the
lockstep of one pixel step carried through the job, and the encoder's side of the round trip. -/

namespace Sys2Proof.Machine

/-! ### From pixel step to pixel step -/

/-- Everything a step from a boundary can do: the pixel step is done, the TRAIL step completes the job, or OUT overflows. -/
theorem PixelBoundary.step_cases {s t : State} (h : PixelBoundary s) (hstep : step s = .next t) :
    (s.i.toNat < s.n.toNat ∧ PixelRegisters (currentPixel s) s t ∧
        AppendsBytes ((pixelChunks (currentPixel s) s).flatMap encode) s t) ∨
      (s.i = s.n ∧ JobCompletes s t) ∨ JobOverflows s t := by
  have hcore : coreStep s = .next t := step_core h.turns ▸ hstep
  rcases Nat.lt_or_eq_of_le h.job.index with hi | hi
  · have hruns := coreRuns_pixel (h.atPixel hi) (h.fetched hi)
    obtain ⟨u, hgives, hregs⟩ := encodePixel_gives (currentPixel s) s
    rcases hgives.of_next (hruns.coreStep_eq ▸ hcore) with ⟨rfl, happ, -⟩ | ⟨herr, -⟩
    · exact .inl ⟨hi, hregs, happ⟩
    · exact .inr (.inr (coreStep_overflows_of_error h.busy hcore herr))
  · have hlast : s.i = s.n := BitVec.eq_of_toNat_eq hi
    have hruns := CoreRuns.trail h.busy h.mode h.phase hlast
    exact .inr ((trailStep_cases (hruns.coreStep_eq ▸ hcore)).imp_left (⟨hlast, ·⟩))

/-- A run that ends in DONE takes the TRAIL step, and what each pixel step keeps holds before it. -/
theorem PixelBoundary.run_done {P : State → Prop}
    (hP : ∀ e e', PixelBoundary e → e.i.toNat < e.n.toNat → PixelRegisters (currentPixel e) e e' →
      AppendsBytes ((pixelChunks (currentPixel e) e).flatMap encode) e e' → P e → P e')
    {k : Nat} {s t : State} (h : PixelBoundary s) (hs : P s) (hrun : Host.Core.run Sys2Proof.core k s = .next t)
    (hd : t.jobState = .done) : ∃ u, PixelBoundary u ∧ P u ∧ u.i = u.n ∧ coreStep u = .next t := by
  induction k generalizing s with
  | zero =>
    obtain rfl := Host.Outcome.next.inj hrun
    exact absurd (h.busy.symm.trans hd) (by decide)
  | succ k ih =>
    obtain ⟨e, hstep, hrest⟩ := run_succ_eq_next hrun
    rcases h.step_cases hstep with ⟨hi, hregs, happ⟩ | ⟨hi, hc⟩ | ho
    · exact ih (h.pixel hi hregs happ) (hP s e h hi hregs happ hs) hrest
    · obtain rfl := run_idle (by simp [hc.jobState]) (hc.turns.trans h.turns) hrest
      exact ⟨s, h, hs, hi, step_core h.turns ▸ hstep⟩
    · obtain rfl := run_idle (by simp [ho.jobState]) (ho.turns.trans h.turns) hrest
      exact absurd (hd.symm.trans ho.jobState) (by decide)

/-! ### The decoder follows -/

/-- The pixels of IN are those of its contents alone. -/
theorem inputPixel_congr {s t : State} (hbuf : t.inBuf = s.inBuf) (hepoch : t.inEpoch = s.inEpoch) :
    inputPixel t = inputPixel s := by
  funext ch j
  simp only [inputPixel, inByte, hbuf, hepoch]

/-- R149: the pixels released by a pixel step and those still pending after it are those pending before it and the pixel. -/
theorem releasedPixels_append_pending (cur : Pixel) (e : State) (hmax : e.run.toNat ≤ 61) :
    releasedPixels cur e (pixelRun cur e) ++ List.replicate (pixelRun cur e).toNat cur =
      List.replicate e.run.toNat e.px ++ [cur] := by
  cases hcounts : countsOnly cur e with
  | true =>
    obtain ⟨rfl, -⟩ := of_decide_eq_true hcounts
    have hnext : (e.run + 1).toNat = e.run.toNat + 1 := by bv_omega
    rw [pixelRun, hcounts, if_pos rfl, releasedPixels, hnext, Nat.sub_self, List.take_zero, List.nil_append,
      List.replicate_succ']
  | false =>
    rw [pixelRun, hcounts, if_neg Bool.false_ne_true, releasedPixels_zero]
    exact List.append_nil _

theorem length_flatMap_pixelBytes (ps : List Pixel) : (ps.flatMap pixelBytes).length = 4 * ps.length := by
  induction ps with
  | nil => rfl
  | cons p ps ih =>
    rw [List.flatMap_cons, List.length_append, ih, List.length_cons]
    exact (Nat.add_comm _ _)

/-- R94, R149: the encoder, at `e₁` when it went to BODY, is now at `e` and has emitted the chunks `is`; decoded from `d₁` on
they have given the pixels `ps` and led to `d`; and `ps` and the copies pending are the pixels of IN so far. -/
structure Mirrors (e₁ d₁ e d : State) (is : List Instr) (ps : List Pixel) : Prop where
  wellFormed : ∀ i ∈ is, i.wellFormed = true
  emitted : AppendsBytes (is.flatMap encode) e₁ e
  decoded : Decodes is ps d₁ d
  lockstep : Lockstep e d
  pixels : ps ++ List.replicate e.run.toNat e.px = (List.range e.i.toNat).map (inputPixel e₁ e₁.ch)

/-- As many pixels as are decoded and pending have been fetched. -/
theorem Mirrors.length_add_run {e₁ d₁ e d : State} {is : List Instr} {ps : List Pixel} (h : Mirrors e₁ d₁ e d is ps) :
    ps.length + e.run.toNat = e.i.toNat := by
  have hlen := congrArg List.length h.pixels
  rwa [List.length_append, List.length_replicate, List.length_map, List.length_range] at hlen

/-- R94: a pixel step keeps the decoder that follows in lockstep, where OUT has room for all the pixels. -/
theorem Mirrors.pixel {e₁ d₁ e d e' : State} {is : List Instr} {ps : List Pixel} (h : Mirrors e₁ d₁ e d is ps)
    (hinputs : SameInputs e₁ e) (hroom : Room d₁ (4 * e.n.toNat)) (he : PixelBoundary e) (hi : e.i.toNat < e.n.toNat)
    (hregs : PixelRegisters (currentPixel e) e e')
    (happ : AppendsBytes ((pixelChunks (currentPixel e) e).flatMap encode) e e') :
    ∃ d' js qs, Mirrors e₁ d₁ e' d' (is ++ js) (ps ++ qs) := by
  have hroom' : Room d (4 * (e.run.toNat + 1)) := by
    have hlen := h.length_add_run
    unfold Room at hroom ⊢
    rw [h.decoded.appends.cfg, h.decoded.appends.o, length_flatMap_pixelBytes]
    omega
  obtain ⟨d', hdec, hlock⟩ := h.lockstep.decodes_pixelChunks he.cached he.job.run_max hregs hroom'
  obtain ⟨hpx, hrun, -⟩ := hregs.px_run_cache
  refine ⟨d', _, _, ?_, ?_, h.decoded.append hdec, hlock, ?_⟩
  · intro i hi
    exact (List.mem_append.mp hi).elim (h.wellFormed i) (pixelChunks_wellFormed he.job.run_max i)
  · rw [List.flatMap_append]
    exact h.emitted.trans happ
  · obtain ⟨-, -, -, -, -, -, -, -, -, -, hch, -, hbuf, hepoch, -⟩ := hinputs
    have hcur : currentPixel e = inputPixel e₁ e₁.ch e.i.toNat := by
      rw [currentPixel, inputPixel_congr hbuf hepoch, hch]
    have hnext : e'.i.toNat = e.i.toNat + 1 := by
      rw [hregs.i_n.1]
      exact toNat_add_of_le (k := 1) (c := e.n) hi
    rw [hnext, List.range_succ, List.map_append, ← h.pixels, hrun, hpx, List.append_assoc,
      releasedPixels_append_pending _ _ he.job.run_max, ← List.append_assoc, hcur]
    rfl

/-- What an ENCODE job has made since it went to BODY at `e₁`: any decoder in lockstep then, with room for the job's pixels,
has followed. -/
structure EncodedSoFar (e₁ e : State) : Prop where
  inputs : SameInputs e₁ e
  mirrored : ∀ d₁, Lockstep e₁ d₁ → Room d₁ (4 * e₁.n.toNat) → ∃ d is ps, Mirrors e₁ d₁ e d is ps

theorem encodedSoFar_refl {e : State} (hi : e.i = 0) (hrun : e.run = 0) : EncodedSoFar e e where
  inputs := .refl e
  mirrored d₁ hlock _ :=
    ⟨d₁, [], [], nofun, appendsBytes_nil rfl rfl rfl rfl, decodes_nil d₁, hlock, by rw [hi, hrun]; rfl⟩

theorem EncodedSoFar.pixel {e₁ e e' : State} (h : EncodedSoFar e₁ e) (he : PixelBoundary e) (hi : e.i.toNat < e.n.toNat)
    (hregs : PixelRegisters (currentPixel e) e e')
    (happ : AppendsBytes ((pixelChunks (currentPixel e) e).flatMap encode) e e') : EncodedSoFar e₁ e' where
  inputs := h.inputs.trans hregs.sameInputs
  mirrored d₁ hlock hroom := by
    have hn : e.n = e₁.n := by
      obtain ⟨-, -, -, -, -, -, -, -, -, -, -, hn, -⟩ := h.inputs
      exact hn
    obtain ⟨d, is, ps, hmirrors⟩ := h.mirrored d₁ hlock hroom
    obtain ⟨d', js, qs, hmirrors'⟩ := hmirrors.pixel h.inputs (hn ▸ hroom) he hi hregs happ
    exact ⟨d', _, _, hmirrors'⟩

/-- At i = N nothing is pending, and the decoder has all the pixels. -/
theorem Mirrors.pixels_at_end {e₁ d₁ e d : State} {is : List Instr} {ps : List Pixel} (h : Mirrors e₁ d₁ e d is ps)
    (he : PixelBoundary e) (hi : e.i = e.n) (hn : e.n = e₁.n) :
    ps = (List.range e₁.n.toNat).map (inputPixel e₁ e₁.ch) := by
  have hpixels := h.pixels
  rw [he.job.run_end hi, hi, hn] at hpixels
  rw [← hpixels]
  exact (List.append_nil ps).symm

/-! ### The whole job -/

/-- R126: an ENCODE job begun in `s` with the host silent, before its parameters are checked. -/
def encodeBegun (s : State) : State := latchParams (beginJob { s with mode := .encode, turns := [] })

/-- R126, R131: that job in BODY, before its first pixel step, with `m` in OUT. -/
def encodeBody (s : State) (m : Memory) : State :=
  { encoderInit (encodeBegun s) with outBuf := m, o := 14, phase := .body }

theorem pixelBoundary_encodeBody {s : State} (hok : paramsOk (encodeBegun s) = true) (m : Memory) :
    PixelBoundary (encodeBody s m) := by
  obtain ⟨hcap, hch, hmod⟩ := (paramsOk_iff _).mp hok
  refine ⟨rfl, rfl, rfl, rfl, hcap, ?_, .inr ⟨rfl, congrArg Slot.valid (slotRead_absent _ _)⟩⟩
  exact {
    channels := hch
    latched := ⟨rfl, rfl, rfl⟩
    pixels := toNat_ofNat_div_mul hmod
    index := Nat.zero_le _
    run_max := Nat.zero_le _
    run_index := Nat.le_refl _
    run_end := fun _ => rfl
    flag := rfl
    alpha := fun _ => rfl
    place := .inr ⟨rfl, Nat.le_refl _, Nat.le_refl _, fun h => absurd h (Nat.lt_irrefl 0)⟩ }

/-- R126: a START that leads to DONE has passed the checks. -/
theorem encodeStart_of_run_done {s t : State} {v : Word} {k : Nat} (hstarts : Starts s v [])
    (hencode : v.getLsbD 1 = false) (hrun : Host.Core.run Sys2Proof.core (k + 1) s = .next t) (hd : t.jobState = .done) :
    paramsOk (encodeBegun s) = true ∧ Host.Core.run Sys2Proof.core k (encoderInit (encodeBegun s)) = .next t := by
  have hstep := step_of_encodeStart hstarts hencode
  by_cases hok : paramsOk (encodeBegun s) = true
  · rw [startEncode_of_good hok, Flow.more_outcome] at hstep
    exact ⟨hok, run_succ hstep k ▸ hrun⟩
  · rw [startEncode_of_bad hok, Flow.aborted_outcome] at hstep
    obtain rfl := run_ended hstep hrun nofun rfl
    cases hd

/-- R131: a job that reaches DONE has written its header. -/
theorem encodeHeader_of_run_done {s t : State} {k : Nat}
    (hrun : Host.Core.run Sys2Proof.core k (encoderInit (encodeBegun s)) = .next t) (hd : t.jobState = .done) :
    ∃ m k', AppendsBytes (headerBytes s.encWidth s.encHeight s.encChannels 0x00) (encoderInit (encodeBegun s))
        (encodeBody s m) ∧ Host.Core.run Sys2Proof.core k' (encodeBody s m) = .next t := by
  cases k with
  | zero =>
    obtain rfl := Host.Outcome.next.inj hrun
    cases hd
  | succ k =>
    obtain ⟨e, hstep, hrest⟩ := run_succ_eq_next hrun
    have hruns : CoreRuns (encoderInit (encodeBegun s)) headerStep := .header rfl rfl rfl
    have hcore : coreStep (encoderInit (encodeBegun s)) = .next e := step_core (s := encoderInit (encodeBegun s)) rfl ▸ hstep
    rcases (headerStep_gives _).of_next (hruns.coreStep_eq ▸ hcore) with ⟨rfl, happ, -⟩ | ⟨herr, -⟩
    · exact ⟨_, k, happ, hrest⟩
    · have ho := coreStep_overflows_of_error hruns.busy hcore herr
      obtain rfl := run_ended hstep hrun (by simp [herr]) ho.turns
      exact absurd (hd.symm.trans herr) (by decide)

/-- R151: the TRAIL step that completes a job appends the end marker. -/
theorem trailStep_of_done {u t : State} (hu : PixelBoundary u) (hi : u.i = u.n) (hcore : coreStep u = .next t)
    (hd : t.jobState = .done) : AppendsBytes endMarker u t ∧ t.pixCount = u.n ∧ t.outLen = t.o := by
  rw [(CoreRuns.trail hu.busy hu.mode hu.phase hi).coreStep_eq] at hcore
  rcases (trailStep_gives u).of_next hcore with ⟨rfl, happ, -⟩ | ⟨herr, -⟩
  · exact ⟨happ, rfl, rfl⟩
  · exact absurd (hd.symm.trans herr) (by decide)

/-- The bytes of the stream that an ENCODE job writes: header, chunks and end marker (R95). -/
def streamBytes (s : State) (is : List Instr) : List Byte :=
  headerBytes s.encWidth s.encHeight s.encChannels 0x00 ++ (is.flatMap encode ++ endMarker)

/-- R131-R151: an ENCODE job that reaches DONE has written a stream whose chunks any decoder in lockstep decodes to the
pixels of IN. -/
theorem exists_stream_of_run_done {s t : State} {v : Word} {k : Nat} (hstarts : Starts s v [])
    (hencode : v.getLsbD 1 = false) (hrun : Host.Core.run Sys2Proof.core (k + 1) s = .next t) (hd : t.jobState = .done)
    {d₁ : State} (hlock : ∀ m, Lockstep (encodeBody s m) d₁) (hroom : Room d₁ (4 * t.pixCount.toNat)) :
    ∃ d is, (∀ i ∈ is, i.wellFormed = true) ∧
      Decodes is ((List.range t.pixCount.toNat).map (inputPixel s s.encChannels)) d₁ d ∧
      t.outLen.toNat = (streamBytes s is).length ∧
      ∀ a, a < (streamBytes s is).length → t.outBuf.byteAt a = (streamBytes s is)[a]? := by
  obtain ⟨hok, hrun₀⟩ := encodeStart_of_run_done hstarts hencode hrun hd
  obtain ⟨m, k', hheader, hrun₁⟩ := encodeHeader_of_run_done hrun₀ hd
  obtain ⟨u, hu, hsofar, hi, hcore⟩ := (pixelBoundary_encodeBody hok m).run_done
    (P := EncodedSoFar (encodeBody s m)) (fun _ _ he hi hregs happ h => h.pixel he hi hregs happ)
    (encodedSoFar_refl rfl rfl) hrun₁ hd
  obtain ⟨hmarker, hcount, hlen⟩ := trailStep_of_done hu hi hcore hd
  obtain ⟨-, -, -, -, -, -, -, -, -, -, -, hn, -⟩ := hsofar.inputs
  rw [hcount, hn] at hroom ⊢
  obtain ⟨d, is, ps, hmirrors⟩ := hsofar.mirrored d₁ (hlock m) hroom
  obtain rfl := hmirrors.pixels_at_end hu hi hn
  have hstream : AppendsBytes (streamBytes s is) (encoderInit (encodeBegun s)) t :=
    hheader.trans (hmirrors.emitted.trans hmarker)
  obtain ⟨hbytes, -⟩ := hstream.outGets
  refine ⟨d, is, hmirrors.wellFormed, hmirrors.decoded, ?_, fun a ha => ?_⟩
  · rw [hlen, hstream.o]
    exact Nat.zero_add _
  · rw [← hbytes a ha]
    exact congrArg t.outBuf.byteAt (Nat.zero_add a).symm

end Sys2Proof.Machine
end

section
/-! SUPPORT. The decoder's side of the round trip (42_decoder.md R106-R124, 43_encoder.md R149): a DECODE job runs the chunks
of the stream in IN, one step each, and finishes at the end marker. -/

namespace Sys2Proof.Machine

/-! ### Bytes in IN -/

/-- A read of IN in two parts. -/
theorem inBytes_add (s : State) (off a b : Nat) : inBytes s off (a + b) = inBytes s off a ++ inBytes s (off + a) b := by
  induction a generalizing off with
  | zero => rw [Nat.zero_add]; rfl
  | succ a ih => rw [Nat.add_right_comm, inBytes, inBytes, ih, List.cons_append, Nat.add_right_comm, Nat.add_assoc]

/-- A read that gives `xs` and then `ys` gives each of them. -/
theorem inBytes_of_append {s : State} {off : Nat} {xs ys : List Byte}
    (h : inBytes s off (xs ++ ys).length = xs ++ ys) :
    inBytes s off xs.length = xs ∧ inBytes s (off + xs.length) ys.length = ys := by
  rw [List.length_append, inBytes_add] at h
  exact List.append_inj h (inBytes_length _ _ _)

/-- Bytes that are in IN one by one are what is read. -/
theorem inBytes_of_getElem? {s : State} {bs : List Byte} {off : Nat}
    (h : ∀ a, a < bs.length → bs[a]? = some (inByte s (off + a))) : inBytes s off bs.length = bs := by
  induction bs generalizing off with
  | nil => rfl
  | cons b bs ih =>
    have hhead : b = inByte s off := by simpa using h 0 (Nat.succ_pos _)
    have htail : inBytes s (off + 1) bs.length = bs := by
      refine ih fun a ha => ?_
      have hnext := h (a + 1) (Nat.succ_lt_succ ha)
      rwa [List.getElem?_cons_succ, Nat.add_comm a 1, ← Nat.add_assoc] at hnext
    rw [List.length_cons, inBytes, htail, hhead]

/-! ### Running the chunks of a stream (R108, R110) -/

/-- A DECODE job at a chunk boundary, with the host silent: the bytes of IN from ptr up to L are `bs`. -/
structure StreamAt (d : State) (bs : List Byte) : Prop where
  turns : d.turns = []
  busy : d.jobState = .busy
  mode : d.jobMode = .decode
  phase : d.phase = .body
  len_cap : d.len.toNat ≤ d.cfg.inCap.toNat
  len : d.len.toNat = d.ptr.toNat + bs.length
  bytes : inBytes d d.ptr.toNat bs.length = bs

theorem length_encode_eq (i : Instr) : (encode i).length = execLength i := by
  cases i <;> rfl

section
variable {d d' : State} {i : Instr} {rest : List Byte}

/-- R108, R110: the step is the meaning of the chunk that comes next, where at least the end marker comes after it. -/
theorem StreamAt.step_chunk (h : StreamAt d (encode i ++ rest)) (hwf : i.wellFormed = true) (hrest : 8 ≤ rest.length) :
    step d = exec i d := by
  have hlen := h.len
  have hpos := length_encode i
  rw [List.length_append] at hlen
  have hfive : inBytes d d.ptr.toNat 5 = encode i ++ rest.take (5 - (encode i).length) := by
    rw [← take_inBytes d _ (k := (encode i ++ rest).length) (by rw [List.length_append]; omega), h.bytes,
      List.take_append, List.take_of_length_le hpos.2]
  refine step_of_decode (rest := rest.take (5 - (encode i).length))
    ⟨h.turns, h.busy, h.mode, h.phase, by omega, h.len_cap⟩ ?_
  rw [hfive]
  exact decode_packed hwf rfl _

/-- R119: after a chunk the rest of the stream comes next. -/
theorem StreamAt.after_chunk (h : StreamAt d (encode i ++ rest)) (hwf : i.wellFormed = true) (hexec : exec i d = .next d')
    (hb : d'.jobState = .busy) : StreamAt d' rest := by
  by_cases hroom : Room d (4 * execCount i)
  · obtain ⟨t, ht, ⟨-, -, -, -, hptr, hinputs, -, -, -, hphase, -, -, hturns⟩, -⟩ := exec_of_room hroom
    obtain rfl := Host.Outcome.next.inj (ht.symm.trans hexec)
    obtain ⟨hcfg, -, -, -, -, -, hmode, hlen, -, -, -, -, hbuf, hepoch, -⟩ := hinputs
    have hL := h.len
    rw [List.length_append, length_encode_eq] at hL
    have hmoved : t.ptr.toNat = d.ptr.toNat + (encode i).length := by
      rw [hptr, length_encode_eq]
      exact toNat_add_of_le (c := d.len) (by omega)
    have hsame : ∀ a, inByte t a = inByte d a := fun a => by rw [inByte, inByte, hbuf, hepoch]
    refine ⟨hturns.trans h.turns, hb, hmode.trans h.mode, hphase.trans h.phase, ?_, ?_, ?_⟩
    · rw [hlen, hcfg]
      exact h.len_cap
    · rw [hlen, hmoved, length_encode_eq]
      omega
    · rw [inBytes_congr hsame, hmoved]
      exact (inBytes_of_append h.bytes).2
  · obtain ⟨t, ht, ⟨herr, -⟩, -⟩ := exec_of_no_room (execCount_ne_zero hwf) hroom
    obtain rfl := Host.Outcome.next.inj (ht.symm.trans hexec)
    exact absurd (hb.symm.trans herr) (by decide)

/-- R163: where a job runs after a chunk, it ran before it. -/
theorem busy_of_exec (hexec : exec i d = .next d') (hb : d'.jobState = .busy) : d.jobState = .busy := by
  rcases exec_runsOn_or_overflows hexec with hr | ho
  · exact hr.jobState.symm.trans hb
  · exact absurd (hb.symm.trans ho.jobState) (by decide)

end

/-- Where a job runs after a list of chunks, it ran before them. -/
theorem busy_of_execAll {is : List Instr} {d d' : State} (hexec : execAll is d = .next d') (hb : d'.jobState = .busy) :
    d.jobState = .busy := by
  induction is generalizing d with
  | nil =>
    obtain rfl := Host.Outcome.next.inj hexec
    exact hb
  | cons i is ih =>
    rw [execAll] at hexec
    split at hexec
    · rename_i t ht
      exact busy_of_exec ht (ih hexec)
    · cases hexec
    · cases hexec

/-- A DECODE job runs the chunks of its stream, one step each, as far as the job goes on. -/
theorem StreamAt.run_chunks {is : List Instr} {rest : List Byte} {d d' : State} (h : StreamAt d (is.flatMap encode ++ rest))
    (hwf : ∀ i ∈ is, i.wellFormed = true) (hrest : 8 ≤ rest.length) (hexec : execAll is d = .next d')
    (hb : d'.jobState = .busy) : Host.Core.run Sys2Proof.core is.length d = .next d' ∧ StreamAt d' rest := by
  induction is generalizing d with
  | nil =>
    obtain rfl := Host.Outcome.next.inj hexec
    exact ⟨rfl, h⟩
  | cons i is ih =>
    rw [List.flatMap_cons, List.append_assoc] at h
    rw [execAll] at hexec
    split at hexec
    · rename_i t ht
      have hi := hwf i List.mem_cons_self
      have hstep : step d = .next t := (h.step_chunk hi (by rw [List.length_append]; omega)).trans ht
      obtain ⟨hrun, hend⟩ := ih (h.after_chunk hi ht (busy_of_execAll hexec hb))
        (fun j hj => hwf j (List.mem_cons_of_mem i hj)) hexec
      exact ⟨(run_succ hstep is.length).trans hrun, hend⟩
    · cases hexec
    · cases hexec

/-- R108, R124: at the end marker the job finishes. -/
theorem StreamAt.step_finish {d : State} (h : StreamAt d endMarker) : step d = .next (finishDecode d) :=
  step_finishes h.turns h.busy h.mode h.phase (Nat.le_of_eq h.len)

/-! ### The start (R106) -/

/-- R106: a DECODE job begun in `u` with the host silent, its header parsed. -/
def decodeBody (u : State) : State := decoderInit (parseHeader (latchLen { u with mode := .decode, turns := [] }))

/-- R93, R94: encoder and decoder begin with the same PX and an empty cache. -/
theorem lockstep_encodeBody_decodeBody (s u : State) (m : Memory) : Lockstep (encodeBody s m) (decodeBody u) where
  px := rfl
  valid k hk := absurd ((congrArg Slot.valid (slotRead_absent _ k)).symm.trans hk) Bool.false_ne_true
  absent k _ _ := congrArg Slot.valid (slotRead_absent _ k)

/-- R95, R106: a START over a stream as an ENCODE job writes it starts the job, at the first chunk. -/
theorem decodeStart_of_stream {s u : State} {w : Word} {is : List Instr} (hstarts : Starts u w [])
    (hdecode : w.getLsbD 1 = true) (hcap : u.inLen.toNat ≤ u.cfg.inCap.toNat)
    (hlen : u.inLen.toNat = (streamBytes s is).length)
    (hbytes : inBytes u 0 (streamBytes s is).length = streamBytes s is) :
    step u = .next (decodeBody u) ∧ StreamAt (decodeBody u) (is.flatMap encode ++ endMarker) := by
  obtain ⟨hheader, hrest⟩ := inBytes_of_append hbytes
  have hmagic : inBytes u 0 4 = magic := by
    rw [← take_inBytes u 0 (k := 14) (by decide), ← length_headerBytes s.encWidth s.encHeight s.encChannels 0x00, hheader]
    rfl
  have hmin : (streamBytes s is).length = 14 + (is.flatMap encode ++ endMarker).length := by
    rw [streamBytes, List.length_append, length_headerBytes]
  have hmarker : 8 ≤ (is.flatMap encode ++ endMarker).length := by
    rw [List.length_append]
    exact Nat.le_add_left _ _
  have hmode : modeOf w = .decode := if_pos hdecode
  have hgood := startDecode_of_good (s := { u with mode := .decode, turns := [] }) (by dsimp only; omega) hcap hmagic
  constructor
  · rw [step_of_start hstarts, hmode]
    exact congrArg Flow.outcome hgood
  · refine ⟨rfl, rfl, rfl, rfl, hcap, hlen.trans hmin, ?_⟩
    have hsame : ∀ a, inByte (decodeBody u) a = inByte u a := fun _ => rfl
    rw [length_headerBytes, Nat.zero_add] at hrest
    exact (inBytes_congr hsame _ _).trans hrest

/-! ### Whole pixels in OUT (R111, R124) -/

/-- R111: pixel j of a list is bytes 4j to 4j + 3. -/
theorem getElem?_flatMap_pixelBytes {ps : List Pixel} {j : Nat} {p : Pixel} (h : ps[j]? = some p) (c : Nat) (hc : c < 4) :
    (ps.flatMap pixelBytes)[4 * j + c]? = (pixelBytes p)[c]? := by
  induction ps generalizing j with
  | nil => cases h
  | cons q ps ih =>
    rw [List.flatMap_cons]
    cases j with
    | zero =>
      obtain rfl : q = p := by simpa using h
      rw [Nat.mul_zero, Nat.zero_add]
      exact List.getElem?_append_left hc
    | succ j =>
      have hskip : 4 * (j + 1) + c - (pixelBytes q).length = 4 * j + c := by
        simp only [pixelBytes, List.length_cons, List.length_nil]
        omega
      rw [List.getElem?_append_right (by simp only [pixelBytes, List.length_cons, List.length_nil]; omega), hskip]
      exact ih h

/-- R124: PIX_COUNT is OUT_LEN div 4, and OUT is as the chunks left it. -/
theorem finishDecode_of_decodes {is : List Instr} {ps : List Pixel} {d₁ d : State} (h : Decodes is ps d₁ d) (ho : d₁.o = 0) :
    (finishDecode d).outLen.toNat = 4 * ps.length ∧ (finishDecode d).pixCount.toNat = ps.length ∧
      ∀ j p, ps[j]? = some p →
        (finishDecode d).outBuf.byteAt (4 * j) = some p.r ∧ (finishDecode d).outBuf.byteAt (4 * j + 1) = some p.g ∧
          (finishDecode d).outBuf.byteAt (4 * j + 2) = some p.b ∧ (finishDecode d).outBuf.byteAt (4 * j + 3) = some p.a := by
  have hlen : d.o.toNat = 4 * ps.length := by
    rw [h.appends.o, ho, length_flatMap_pixelBytes]
    exact Nat.zero_add _
  refine ⟨hlen, ?_, fun j p hj => ?_⟩
  · have hcount : (finishDecode d).pixCount.toNat = d.o.toNat / 4 := BitVec.toNat_udiv
    rw [hcount, hlen, Nat.mul_div_cancel_left _ (by decide)]
  · obtain ⟨hin, -⟩ := List.getElem?_eq_some_iff.mp hj
    obtain ⟨hbytes, -⟩ := h.appends.outGets
    have hbyte : ∀ c, c < 4 → d.outBuf.byteAt (4 * j + c) = (pixelBytes p)[c]? := by
      intro c hc
      have hk := hbytes (4 * j + c) (by rw [length_flatMap_pixelBytes]; omega)
      rw [getElem?_flatMap_pixelBytes hj c hc, ho] at hk
      rw [← hk]
      exact congrArg d.outBuf.byteAt (Nat.zero_add _).symm
    exact ⟨hbyte 0 (by decide), hbyte 1 (by decide), hbyte 2 (by decide), hbyte 3 (by decide)⟩

/-! ### The round trip (R149) -/

/-- Settles O40: the stream the encoder wrote is run by the decoder, which has followed the encoder in lockstep. -/
theorem decodeOfEncodeIsTheImage : Obligations.DecodeOfEncodeIsTheImage := by
  intro s t u k v w hs hv hencode hsturns hrun hd hu hw hdecode huturns hinLen hcap hroom hin
  have hroom' : Room (decodeBody u) (4 * t.pixCount.toNat) := (Nat.zero_add _).trans_le hroom
  obtain ⟨d, is, hwf, hdec, hlen, hout⟩ := exists_stream_of_run_done ⟨hs, hv, hsturns⟩ hencode hrun hd
    (lockstep_encodeBody_decodeBody s u) hroom'
  have hread : inBytes u 0 (streamBytes s is).length = streamBytes s is := inBytes_of_getElem? fun a ha => by
    rw [← hout a ha, hin a (hlen ▸ ha), Nat.zero_add]
  obtain ⟨hstart, hstream⟩ := decodeStart_of_stream ⟨hu, hw, huturns⟩ hdecode hcap (hinLen ▸ hlen) hread
  have hbusy : d.jobState = .busy := hdec.jobState.trans hstream.busy
  obtain ⟨hchunks, hmarker⟩ := hstream.run_chunks hwf (Nat.le_refl 8) hdec.exec hbusy
  obtain ⟨houtLen, hcount, hpixels⟩ := finishDecode_of_decodes hdec rfl
  rw [List.length_map, List.length_range] at houtLen hcount
  refine ⟨is.length + 1 + 1, finishDecode d, ?_, rfl, hdec.absIdx, BitVec.eq_of_toNat_eq hcount, houtLen, fun j hj => ?_⟩
  · rw [run_succ hstart, run_add hchunks, run_succ hmarker.step_finish]
    rfl
  · refine hpixels j _ ?_
    rw [List.getElem?_map, List.getElem?_range hj]
    rfl

end Sys2Proof.Machine
end

section
/-! SUPPORT. Errors (60_exceptions.md R157-R163): what raise leaves, which error a failing DECODE start reports, and what every
step into ERROR leaves. -/

namespace Sys2Proof.Machine

/-! ### What raise leaves (R158) -/

/-- Settles O41: raise writes the fields it names, and the core steps only while BUSY. -/
theorem raiseEndsTheJob : Obligations.RaiseEndsTheJob := fun e s =>
  have hended : (raise e s).jobState ≠ .busy := nofun
  ⟨rfl, rfl, rfl, rfl, rfl, rfl, rfl, rfl, rfl, rfl, rfl, sameInputs_raise e s, coreStep_idle hended⟩

/-! ### A DECODE start that fails (R106, R157) -/

theorem startDecode_of_long {s : State} (hcap : s.cfg.inCap.toNat < s.inLen.toNat) :
    startDecode s = .aborted (raise .param (latchLen s)) := by
  rw [startDecode_eq, if_pos (BitVec.lt_def.mpr hcap)]

theorem startDecode_of_short {s : State} (hcap : s.inLen.toNat ≤ s.cfg.inCap.toNat) (hshort : s.inLen.toNat < 22) :
    startDecode s = .aborted (raise .truncated (latchLen s)) := by
  have hparam : ¬s.cfg.inCap < s.inLen := by bv_omega
  have htrunc : s.inLen < 22 := by bv_omega
  rw [startDecode_eq, if_neg hparam, if_pos htrunc]

theorem startDecode_of_badMagic {s : State} (hcap : s.inLen.toNat ≤ s.cfg.inCap.toNat) (hmin : 22 ≤ s.inLen.toNat)
    (hmagic : inBytes s 0 4 ≠ magic) : startDecode s = .aborted (raise .badMagic (latchLen s)) := by
  have hparam : ¬s.cfg.inCap < s.inLen := by bv_omega
  have htrunc : ¬s.inLen < 22 := by bv_omega
  have hbad : inBytes (latchLen s) 0 4 ≠ magic := hmagic
  rw [startDecode_eq, if_neg hparam, if_neg htrunc, readHeader, if_neg hbad, Flow.aborted_andThen]

/-- What the host finds after a DECODE start step that raises `e` before it has done more than latch L. -/
theorem startFails_of_startDecode {e : ErrCode} {s : State} {v : Word} {ts : List Turn} (hstarts : Starts s v ts)
    (hdecode : v.getLsbD 1 = true)
    (hraise : startDecode { s with mode := .decode, turns := ts } =
      .aborted (raise e (latchLen { s with mode := .decode, turns := ts }))) : StartFails e s .decode := by
  have hmode : modeOf v = .decode := if_pos hdecode
  refine ⟨raise e (latchLen { s with mode := .decode, turns := ts }), ?_, rfl, rfl, rfl, rfl, rfl, rfl, rfl, rfl, rfl, rfl,
    rfl, rfl, rfl, rfl, rfl⟩
  rw [step_of_start hstarts, hmode]
  exact congrArg Flow.outcome hraise

/-- Settles O24: each check in its turn, where those before it pass. -/
theorem decodeStartErrorsInPriority : Obligations.DecodeStartErrorsInPriority := fun _ _ _ hstarts hdecode =>
  ⟨fun hlong => startFails_of_startDecode hstarts hdecode (startDecode_of_long hlong),
    fun hcap hshort => startFails_of_startDecode hstarts hdecode (startDecode_of_short hcap hshort),
    fun hcap hmin hmagic => startFails_of_startDecode hstarts hdecode (startDecode_of_badMagic hcap hmin hmagic)⟩

/-! ### Every entry to ERROR (R157-R160) -/

/-- R157, R158: the job has ended with the code of a real error and no result, with IN and the parameters as in `s`. -/
def ReportsError (s t : State) : Prop :=
  (t.err ≠ .none ∧ t.err ≠ .invalidTag) ∧ t.outLen = 0 ∧ t.pixCount = 0 ∧ t.inBuf = s.inBuf ∧ t.inEpoch = s.inEpoch ∧
    t.cfg = s.cfg

theorem JobOverflows.reportsError {s t : State} (h : JobOverflows s t) : ReportsError s t := by
  obtain ⟨hcfg, -, -, -, -, -, -, -, -, -, -, -, hin, hepoch, -⟩ := h.inputs
  exact ⟨by simp [h.err], h.outLen, h.pixCount, hin, hepoch, hcfg⟩

/-- A start step that raises an error has written neither IN nor the parameters before. -/
theorem reportsError_raise {e : ErrCode} {s t : State} (he : e ≠ .none ∧ e ≠ .invalidTag) (hin : t.inBuf = s.inBuf)
    (hepoch : t.inEpoch = s.inEpoch) (hcfg : t.cfg = s.cfg) : ReportsError s (raise e t) :=
  ⟨he, rfl, rfl, hin, hepoch, hcfg⟩

/-- R106: what fails a DECODE start is one of three errors. -/
theorem startDecode_reportsError {s t : State} (h : (startDecode s).outcome = .next t) (herror : t.jobState = .error) :
    ReportsError s t := by
  rw [startDecode_eq] at h
  unfold readHeader at h
  split_ifs at h <;> obtain rfl := Host.Outcome.next.inj h
  · exact reportsError_raise (by decide) rfl rfl rfl
  · exact reportsError_raise (by decide) rfl rfl rfl
  · cases herror
  · exact reportsError_raise (by decide) rfl rfl rfl

/-- R130: what fails an ENCODE start is ERR_PARAM. -/
theorem startEncode_reportsError {s t : State} (h : (startEncode s).outcome = .next t) (herror : t.jobState = .error) :
    ReportsError s t := by
  by_cases hok : paramsOk (latchParams (beginJob s)) = true
  · rw [startEncode_of_good hok] at h
    obtain rfl := Host.Outcome.next.inj h
    cases herror
  · rw [startEncode_of_bad hok] at h
    obtain rfl := Host.Outcome.next.inj h
    exact reportsError_raise (by decide) rfl rfl rfl

theorem startJob_reportsError {s t : State} (h : (startJob s).outcome = .next t) (herror : t.jobState = .error) :
    ReportsError s t := by
  unfold startJob at h
  split at h
  · exact startEncode_reportsError h herror
  · exact startDecode_reportsError h herror

/-- R159: a core's turn that enters ERROR has overflowed OUT. -/
theorem coreStep_overflows {s t : State} (h : coreStep s = .next t) (hs : s.jobState ≠ .error)
    (herror : t.jobState = .error) : JobOverflows s t := by
  rcases coreStep_cases h with ⟨-, rfl⟩ | ⟨-, hr | hc | ho⟩
  · exact absurd herror hs
  · exact absurd (hr.jobState.symm.trans herror) hs
  · exact absurd (hc.jobState.symm.trans herror) (by decide)
  · exact ho

theorem not_coreTurn_of_host {s : State} {op : HostOp} {ts : List Turn} (h : s.turns = .host op :: ts) : ¬CoreTurn s := by
  simp [CoreTurn, h]

/-- Settles O42: the core's turn enters ERROR by an overflow of OUT, and the host's only by a START that fails. -/
theorem everyErrorEntryReportsACode : Obligations.EveryErrorEntryReportsACode := by
  intro s t hs h herror
  have hchange : t.jobState ≠ s.jobState := fun heq => hs (heq.symm.trans herror)
  have hreport : ReportsError s t ∧ (CoreTurn s → t.err = .outOverflow ∧ SameInputs s t) := by
    rcases step_cases h with ⟨-, hcore⟩ | ⟨op, ts, hturns, hhost⟩
    · have hover := coreStep_overflows hcore hs herror
      exact ⟨hover.reportsError, fun _ => ⟨hover.err, hover.inputs⟩⟩
    · refine ⟨?_, fun hturn => absurd hturn (not_coreTurn_of_host hturns)⟩
      rcases hostStep_jobState hhost hchange with ⟨hb, -, v, hop, hstart⟩ | ⟨hidle, -⟩
      · have hstarts : Starts s v ts := ⟨hb, hstart, hturns.trans (congrArg (· :: ts) hop)⟩
        have hfails := startJob_reportsError ((step_of_start hstarts).symm.trans h) herror
        exact hfails
      · exact absurd (hidle.symm.trans herror) (by decide)
  obtain ⟨⟨⟨hnone, htag⟩, hlen, hcount, hin, hepoch, hcfg⟩, hcore⟩ := hreport
  exact ⟨hnone, htag, hlen, hcount, hin, hepoch, hcfg, hcore⟩

end Sys2Proof.Machine
end

section
/-! SUPPORT. Power-on reset (10_state.md R44, 70_reset_and_hazards.md R172, R173). -/

namespace Sys2Proof.Machine

/-- R44: the reset state holds every power-on value, for whatever parameters. -/
theorem resetWith_powerOn (p : Params) : PowerOn (State.resetWith p) :=
  ⟨rfl, rfl, rfl, rfl, rfl, rfl, rfl, rfl, rfl, rfl, rfl, rfl, rfl, rfl, slotRead_absent p.cacheFill⟩

/-- R172: in PowerOn's registers and cache slots a power-on reset agrees with the reset state of the machine's parameters. -/
theorem powerOnReset_powerOn (s : State) : PowerOn (powerOnReset s) := resetWith_powerOn s.cfg

/-- R173: a power-on reset during a job leaves IN as it was. -/
theorem inByte_powerOnReset {s : State} (h : s.jobState = .busy) (a : Nat) : inByte (powerOnReset s) a = inByte s a := by
  simp only [inByte, powerOnReset, if_pos h]

/-- R172: the core takes no step after a power-on reset. -/
theorem coreStep_powerOnReset (s : State) : coreStep (powerOnReset s) = .next (powerOnReset s) := coreStep_idle nofun

/-- Settles O52: the turn is a power-on reset of the state with that turn taken off. -/
theorem powerOnResetRestoresPowerOnValues : Obligations.PowerOnResetRestoresPowerOnValues := by
  refine ⟨fun s ts hturns => ?_, resetWith_powerOn Params.default⟩
  have hstep : step s = .next (powerOnReset { s with turns := ts }) := step_host hturns
  exact ⟨_, hstep, powerOnReset_powerOn _, rfl, fun hbusy => inByte_powerOnReset hbusy, coreStep_powerOnReset _⟩

end Sys2Proof.Machine
end
